-- ==== Sys2Proof/Word.lean ====
section
/-! DEFINITION. The word types of the block: a frame byte (8 bits), a brightness level (5 bits), and the normalized number, an
exact rational in [0, 1] (10_state R14, decision D4). -/

namespace Sys2Proof

/-- One byte of a frame, bit 7 most significant (00_scope section 5). -/
abbrev Byte := BitVec 8

/-- A BrightnessLevel: "a single 5-bit value (0–31)" (10_state R16). -/
abbrev Level := BitVec 5

/-- A normalized number: "the exact rationals in `[0, 1]`", the type of a stored channel (10_state R14) and of a valid brightness
(30_encoding R55). -/
abbrev Normalized := Set.Icc (0 : Rat) 1

end Sys2Proof
end

