-- ==== Sys2Proof/Config.lean ====
section
/-! DEFINITION. What an implementation fixes (the OPEN parameters of 00_scope R8) and what the environment decides
(the draws of 00_scope R9, decision D18). The opaque constants have no body: no proof can see a value of one. -/

namespace Sys2Proof

/-- The answer `hw_init_outcome` of the platform to an attempt to set up the hardware-timed transport
(41_transport R88, R89, R93): success with the detected program variant, or failure for a reason nothing reads. That variants and
reasons are natural numbers, any number of them, is the model's choice: the spec gives neither a form (10_state R19; DESIGN CHOICE,
log 9). -/
inductive HwInit where
  | ok (variant : Nat)
  | fail (reason : Nat)
deriving DecidableEq, Repr, Inhabited

/-- A positive rational, `num / den` (00_scope R8: "positive duration"); two pairs may have one value (log 9). -/
structure Positive where
  num : ℕ+
  den : ℕ+
deriving DecidableEq, Repr, Inhabited

/-- The number itself. -/
def Positive.val (p : Positive) : Rat := ((p.num : Nat) : Rat) / ((p.den : Nat) : Rat)

/-- The OPEN parameters of 00_scope R8 that no command carries: fixed for one machine, open in the spec but for the constraints
their types state. -/
structure Platform where
  /-- `N_MAX`, the largest pixel count; `none` is unbounded (D21). -/
  nMax : Option Nat
  /-- The pins that satisfy the platform predicate `pin_valid` (D21; log 9). -/
  validPins : List Nat
  /-- `HWQ_DEPTH`: at least 1, or `none`, unbounded (D16). -/
  hwqDepth : Option ℕ+
  /-- `INIT_FLUSH`: whether CONSTRUCT transmits a first frame (D13). -/
  initFlush : Bool
  /-- `BIT_DELAY_US`, the software-timed half-bit delay, a positive duration (R8, D20). -/
  bitDelayUs : Positive
  /-- `TOGGLE_CYCLES` of PIN_TOGGLE_TEST (44_diagnostics R142). -/
  toggleCycles : Nat
  /-- `TOGGLE_DELAY_MS` of PIN_TOGGLE_TEST; a delay is not negative (log 9). -/
  toggleDelayMs : { t : Rat // 0 ≤ t }
  /-- `PATTERN_HOLD` of SHOW_TEST_PATTERN; a delay is not negative (log 9). -/
  patternHold : { t : Rat // 0 ≤ t }
deriving DecidableEq, Repr, Inhabited

/-- The parameters of the machine at hand: open, so no value is given (log 9). -/
opaque Config.platform : Platform

/-- `hw_init_outcome` at draw `n`, where `Env` holds no scripted answer (log 10). -/
opaque Config.hwInit : Nat → HwInit

/-- `pin_claim_outcome` at draw `n`: true is ok (log 10). -/
opaque Config.pinClaim : Nat → Bool

/-- The environment's part of `hw_ready` at draw `n` (log 10, log 11). -/
opaque Config.hwReady : Nat → Bool

/-- How many bits the hardware channel puts out when it is given a chance to run (R97; log 12). -/
opaque Config.channelBits : Nat → Nat

/-- How many of the queued bits still reach the wire when the channel is deactivated (R106, D17; log 13). -/
opaque Config.cutBits : Nat → Nat

/-- Whether the platform supports a pin configuration of PIN_DRIVE_CHECK (U6). -/
opaque Config.modeSupported : Nat → Bool

/-- The level read back in a stage of PIN_DRIVE_CHECK (U7). -/
opaque Config.readBack : Nat → Bool

/-- The level of a pin nobody drives after a hardware channel is released (U18; log 21). -/
opaque Config.undrivenLevel : Nat → Bool

/-- The environment as an input of the machine: for each draw a script of the answers to come, and the number of
unscripted draws so far. An answer that no script holds is the opaque constant of that draw (log 10). -/
structure Env where
  hwInit : List HwInit
  pinClaim : List Bool
  hwReady : List Bool
  channelBits : List Nat
  cutBits : List Nat
  modeSupported : List Bool
  readBack : List Bool
  undrivenLevel : List Bool
  drawn : Nat
deriving DecidableEq, Repr, Inhabited

/-- No scripted answer at all: every draw is an opaque constant. -/
def Env.unscripted : Env :=
  { hwInit := [], pinClaim := [], hwReady := [], channelBits := [], cutBits := [], modeSupported := [], readBack := [],
    undrivenLevel := [], drawn := 0 }

end Sys2Proof
end

