-- ==== Sys2Proof/Syntax.lean ====
section
/-! DEFINITION. The abstract syntax: operands (30_encoding R58), the instructions (one constructor per row of
spec/opcode_table.json), and the two concrete forms an instruction has, a request at the command port and a word of
a frame. -/

namespace Sys2Proof

/-- A channel, brightness, count or frequency operand: "either a rational number or the token `NaN`" (R58). -/
inductive Number where
  | rat (q : Rat)
  | nan
deriving DecidableEq, Repr, Inhabited

/-- A colour operand `(r, g, b)`, not yet validated (R58, 42_strip_controller R112). -/
structure ColorOperand where
  r : Number
  g : Number
  b : Number
deriving DecidableEq, Repr, Inhabited

/-- The instructions: the 18 commands of 30_encoding R59 and the three frame elements of R46, R47 and R48. -/
inductive Instr where
  | construct (n brightness : Number) (dataPin clockPin : Nat) (forceSoftware debug : Bool) (hwChannelId : Nat)
      (hwFreqHz : Number)
  | setPixel (index : Nat) (color : ColorOperand)
  | setAll (color : ColorOperand)
  | setBuffer (colors : List ColorOperand)
  | getPixel (index : Nat)
  | getBuffer
  | averageColor
  | setBrightness (brightness : Number)
  | getBrightness
  | turnOn
  | turnOff
  | flush
  | shutdown
  | handleGet (index : Nat)
  | handleSet (index : Nat) (color : ColorOperand)
  | pinToggleTest
  | pinDriveCheck
  | showTestPattern
  | start
  | led (level : Level) (blue green red : Byte)
  | pad
deriving DecidableEq, Repr, Inhabited

/-- A typed operand at the command port: "Operands are typed values, not bit strings" (R58). -/
inductive Operand where
  | natural (n : Nat)
  | number (x : Number)
  | color (c : ColorOperand)
  | colors (cs : List ColorOperand)
  | pin (p : Nat)
  | flag (b : Bool)
  | ident (id : Nat)
deriving DecidableEq, Repr, Inhabited

/-- A command as the caller presents it: "an 8-bit opcode followed by typed operands" (R58). -/
structure Request where
  opcode : Byte
  operands : List Operand
deriving DecidableEq, Repr, Inhabited

/-- A word of a frame: the formats START and LED are 32 bits with bit 31 sent first (R46, R47), PAD is 8 (R48). -/
inductive FrameWord where
  | word (w : BitVec 32)
  | byte (b : Byte)
deriving DecidableEq, Repr, Inhabited

/-- The concrete form of an instruction, in one of the opcode table's two formats, CMD and FRAME. -/
inductive Code where
  | cmd (r : Request)
  | frame (w : FrameWord)
deriving DecidableEq, Repr, Inhabited

end Sys2Proof
end

