-- ==== Sys2Proof/WellFormed.lean ====
section
/-! DEFINITION. Which codes are well formed: a request whose opcode is assigned and whose operands have the types of
its row (30_encoding R59), and a frame word that is one of the three frame elements (R46 to R48, R62). -/

namespace Sys2Proof

/-- The type of an operand in the table of R59. -/
inductive OperandKind where
  | natural | number | color | colors | pin | flag | ident
deriving DecidableEq, Repr

/-- The type of an operand. -/
def Operand.kind : Operand → OperandKind
  | .natural _ => .natural
  | .number _ => .number
  | .color _ => .color
  | .colors _ => .colors
  | .pin _ => .pin
  | .flag _ => .flag
  | .ident _ => .ident

/-- The operand types of each opcode of R59; `none` for the reserved opcodes of R61. -/
def signature (opcode : Byte) : Option (List OperandKind) :=
  match opcode.toNat with
  | 0x00 => some [.number, .number, .pin, .pin, .flag, .flag, .ident, .number]
  | 0x01 => some [.natural, .color]
  | 0x02 => some [.color]
  | 0x03 => some [.colors]
  | 0x04 => some [.natural]
  | 0x05 => some []
  | 0x06 => some []
  | 0x07 => some [.number]
  | 0x08 => some []
  | 0x09 => some []
  | 0x0A => some []
  | 0x0B => some []
  | 0x0C => some []
  | 0x0D => some [.natural]
  | 0x0E => some [.natural, .color]
  | 0x10 => some []
  | 0x11 => some []
  | 0x12 => some []
  | _ => none

/-- The opcode is assigned and the operands are of the types, number and order of its row. -/
def Request.wellFormed (r : Request) : Bool :=
  decide (signature r.opcode = some (r.operands.map Operand.kind))

/-- The word is START (all zero), a LED block (prefix `0b111`) or PAD (zero). -/
def FrameWord.wellFormed : FrameWord → Bool
  | .word w => decide (w = 0#32) || decide (w.extractLsb' 29 3 = 0b111#3)
  | .byte b => decide (b = 0#8)

/-- The code of some instruction. -/
def Code.wellFormed : Code → Bool
  | .cmd r => r.wellFormed
  | .frame w => w.wellFormed

end Sys2Proof
end

