-- ==== Sys2Proof/Decode.lean ====
section
/-! DEFINITION. The decoder, total on every request and every frame word and rejecting by name, then the encoder,
both written from 30_encoding R46 to R48 and R59. -/

namespace Sys2Proof

/-- Why a code is no instruction. -/
inductive DecodeError where
  /-- The opcode is reserved (R61). -/
  | reservedOpcode (opcode : Byte)
  /-- The operands are not of the types, number and order of the opcode's row in R59 (log 2). -/
  | badOperands (opcode : Byte)
  /-- The frame word is none of START, LED and PAD; the block never produces it (R62). -/
  | notAFrameElement (w : FrameWord)
deriving DecidableEq, Repr

/-- The opcode map of R59. -/
def decodeCommand (r : Request) : Except DecodeError Instr :=
  match r.opcode.toNat, r.operands with
  | 0x00, [.number n, .number x, .pin d, .pin c, .flag fs, .flag dbg, .ident id, .number f] =>
      .ok (.construct n x d c fs dbg id f)
  | 0x01, [.natural i, .color c] => .ok (.setPixel i c)
  | 0x02, [.color c] => .ok (.setAll c)
  | 0x03, [.colors cs] => .ok (.setBuffer cs)
  | 0x04, [.natural i] => .ok (.getPixel i)
  | 0x05, [] => .ok .getBuffer
  | 0x06, [] => .ok .averageColor
  | 0x07, [.number x] => .ok (.setBrightness x)
  | 0x08, [] => .ok .getBrightness
  | 0x09, [] => .ok .turnOn
  | 0x0A, [] => .ok .turnOff
  | 0x0B, [] => .ok .flush
  | 0x0C, [] => .ok .shutdown
  | 0x0D, [.natural i] => .ok (.handleGet i)
  | 0x0E, [.natural i, .color c] => .ok (.handleSet i c)
  | 0x10, [] => .ok .pinToggleTest
  | 0x11, [] => .ok .pinDriveCheck
  | 0x12, [] => .ok .showTestPattern
  | _, _ =>
    match signature r.opcode with
    | none => .error (.reservedOpcode r.opcode)
    | some _ => .error (.badOperands r.opcode)

/-- The frame formats of R46 (START), R47 (LED: prefix 31:29, level 28:24, blue 23:16, green 15:8, red 7:0) and R48 (PAD). -/
def decodeFrame (f : FrameWord) : Except DecodeError Instr :=
  match f with
  | .word w =>
    if w = 0#32 then .ok .start
    else if w.extractLsb' 29 3 = 0b111#3 then
      .ok (.led (w.extractLsb' 24 5) (w.extractLsb' 16 8) (w.extractLsb' 8 8) (w.extractLsb' 0 8))
    else .error (.notAFrameElement f)
  | .byte b => if b = 0#8 then .ok .pad else .error (.notAFrameElement f)

/-- The decoder, over both formats of the opcode table. -/
def decode : Code → Except DecodeError Instr
  | .cmd r => decodeCommand r
  | .frame w => decodeFrame w

/-- The encoder: R59 for the commands, R46 to R48 for the frame elements. -/
def encode : Instr → Code
  | .construct n x d c fs dbg id f =>
      .cmd ⟨0x00#8, [.number n, .number x, .pin d, .pin c, .flag fs, .flag dbg, .ident id, .number f]⟩
  | .setPixel i c => .cmd ⟨0x01#8, [.natural i, .color c]⟩
  | .setAll c => .cmd ⟨0x02#8, [.color c]⟩
  | .setBuffer cs => .cmd ⟨0x03#8, [.colors cs]⟩
  | .getPixel i => .cmd ⟨0x04#8, [.natural i]⟩
  | .getBuffer => .cmd ⟨0x05#8, []⟩
  | .averageColor => .cmd ⟨0x06#8, []⟩
  | .setBrightness x => .cmd ⟨0x07#8, [.number x]⟩
  | .getBrightness => .cmd ⟨0x08#8, []⟩
  | .turnOn => .cmd ⟨0x09#8, []⟩
  | .turnOff => .cmd ⟨0x0A#8, []⟩
  | .flush => .cmd ⟨0x0B#8, []⟩
  | .shutdown => .cmd ⟨0x0C#8, []⟩
  | .handleGet i => .cmd ⟨0x0D#8, [.natural i]⟩
  | .handleSet i c => .cmd ⟨0x0E#8, [.natural i, .color c]⟩
  | .pinToggleTest => .cmd ⟨0x10#8, []⟩
  | .pinDriveCheck => .cmd ⟨0x11#8, []⟩
  | .showTestPattern => .cmd ⟨0x12#8, []⟩
  | .start => .frame (.word 0#32)
  | .led l b g r => .frame (.word (0b111#3 ++ l ++ b ++ g ++ r))
  | .pad => .frame (.byte 0#8)

/-- An instruction is well formed when its code is: the types of `Instr` leave nothing else to check. -/
def Instr.wellFormed (i : Instr) : Bool := (encode i).wellFormed

/-- The operand of a given type whose every part is zero (the table gives operands no bits; log 1). -/
def zeroOperand : OperandKind → Operand
  | .natural => .natural 0
  | .number => .number (.rat 0)
  | .color => .color ⟨.rat 0, .rat 0, .rat 0⟩
  | .colors => .colors []
  | .pin => .pin 0
  | .flag => .flag false
  | .ident => .ident 0

/-- A request with the given opcode and operands of zeros, as many as its row has. -/
def zeroRequest (opcode : Byte) : Request :=
  ⟨opcode, ((signature opcode).getD []).map zeroOperand⟩

/-- The code an opcode-table word stands for: 32 bits are a frame word, 8 bits an opcode at the command port with
operands of zeros (log 1; PAD shares the word of CONSTRUCT, log 4); no row has another width. -/
def tableCode (nbits w : Nat) : Option Code :=
  if nbits = 32 then some (.frame (.word (BitVec.ofNat 32 w)))
  else if nbits = 8 then some (.cmd (zeroRequest (BitVec.ofNat 8 w)))
  else none

/-- What the decoder reads from an opcode-table word. -/
def decodeTableWord (nbits w : Nat) : Option Instr :=
  match tableCode nbits w with
  | none => none
  | some c =>
    match decode c with
    | .ok i => some i
    | .error _ => none

end Sys2Proof
end

