-- ==== Sys2Proof/Machine/State.lean ====
section
/-! DEFINITION. The state of the block (10_state), as plain data, its value after reset (70_reset_and_hazards R176),
and the reasons a step can stop. -/

namespace Sys2Proof.Machine

/-- `LIFECYCLE` (R11). -/
inductive Lifecycle where
  | uninitialized | active | closed
deriving DecidableEq, Repr, Inhabited

/-- A LogicalColor, red, green, blue; each channel lies in [0, 1] by its type (R14). -/
structure Color where
  r : Normalized
  g : Normalized
  b : Normalized
deriving DecidableEq, Repr

/-- A PixelBuffer: a sequence of at least one LogicalColor (R12, R13; 40_frame_encoder R71: `len(pixels) = N >= 1`). -/
structure PixelBuffer where
  colors : List Color
  nonempty : colors ≠ []
deriving DecidableEq, Repr

/-- The configuration registers `CFG` (R12); `N >= 1` by its type. -/
structure Cfg where
  n : ℕ+
  dataPin : Nat
  clockPin : Nat
  forceSoftware : Bool
  debug : Bool
  hwChannelId : Nat
  hwFreqHz : Rat
deriving DecidableEq, Repr, Inhabited

/-- `TRANSPORT` (R17): the handle of the claimed channel, or those of the claimed data and clock pins. -/
inductive Transport where
  | none
  | hardwareTimed (channel : Nat)
  | softwareTimed (dataPin clockPin : Nat)
deriving DecidableEq, Repr, Inhabited

/-- The two pins of the block (R20, R25). -/
inductive Pin where
  | data | clock
deriving DecidableEq, Repr, Inhabited

/-- `PIN_DIR` (R20). -/
inductive PinDir where
  | inputFloating | inputPullUp | inputPullDown | output
deriving DecidableEq, Repr, Inhabited

/-- `PIN_OWNER` (R20). -/
inductive PinOwner where
  | unclaimed | gpio | peripheral
deriving DecidableEq, Repr, Inhabited

/-- The phase inside a bit (R21). -/
inductive Phase where
  | setup | high | low
deriving DecidableEq, Repr, Inhabited

/-- The serializer position `SER = (k, j, p)`; for the hardware-timed transport only `k` is the controller's (R21). -/
structure SerPos where
  k : Nat
  j : Option Nat
  p : Option Phase
deriving DecidableEq, Repr, Inhabited

/-- The nominal length of a `Delay` event; it is a lower bound (41_transport R100). -/
inductive Duration where
  | us (t : Rat)
  | ms (t : Rat)
  | hold (t : Rat)
deriving DecidableEq, Repr, Inhabited

/-- The events of the output trace (R26). -/
inductive Event where
  | hwClaim (id : Nat) (freq : Rat) (d c : Nat)
  | hwRelease
  | hwSuspend
  | hwResume
  | pinClaim (p : Nat)
  | hwWrite (b : Byte)
  | pin (p : Pin) (v : Bool)
  | pinMode (p : Pin) (m : PinDir)
  | delay (t : Duration)
  | log
  | wireBit (v : Bool)
deriving DecidableEq, Repr, Inhabited

/-- The causes of a ValidationError (60_exceptions R151, R152). -/
inductive ValidationCause where
  | index | length | channel | brightness | param
deriving DecidableEq, Repr, Inhabited

/-- The causes of a ResourceError; the second is internal to SELECT and never returned (R151, R153). -/
inductive ResourceCause where
  | pin | channelUnavailable
deriving DecidableEq, Repr, Inhabited

/-- The error kinds (R150) and the spec's IllegalCommand (R161); TransportError is never returned (R155). -/
inductive Error where
  | validation (c : ValidationCause)
  | resource (c : ResourceCause)
  | closed
  | transport
  | illegal
deriving DecidableEq, Repr, Inhabited

/-- The result value of a successful command (30_encoding R59). The check name `name(p, m)` of PIN_DRIVE_CHECK is
the pair (44_diagnostics R143). -/
inductive Value where
  | none
  | color (c : Color)
  | colors (cs : List Color)
  | brightness (x : Rat)
  | checks (m : List ((Pin × PinDir) × Bool))
deriving DecidableEq, Repr, Inhabited

/-- A response: status OK with a result, or an error with its cause and nothing else (R60, R151). -/
inductive Response where
  | ok (v : Value)
  | error (e : Error)
deriving DecidableEq, Repr, Inhabited

/-- What the command in flight still does when the frame it is sending has been handed over: answer OK, or, for the first
frame of SHOW_TEST_PATTERN, hold, restore the snapshot and send the second frame (44_diagnostics R145; log 11). -/
inductive Cont where
  | reply
  | restore (snapshot : PixelBuffer)
deriving DecidableEq, Repr, Inhabited

/-- The state of the block. -/
structure State where
  /-- `LIFECYCLE` (R11). -/
  lifecycle : Lifecycle
  /-- `CFG` (R12). -/
  cfg : Cfg
  /-- `PIX`, the PixelBuffer (R13). -/
  pix : PixelBuffer
  /-- `BRIGHT` (R16). -/
  bright : Level
  /-- `TRANSPORT` (R17). -/
  transport : Transport
  /-- `HW_ACTIVE` (R18). -/
  hwActive : Bool
  /-- `HW_VARIANT` (R19); a natural number, the model's choice for an identifier the spec calls opaque (DESIGN CHOICE, log 9). -/
  hwVariant : Nat
  /-- `DATA_LEVEL` (R20). -/
  dataLevel : Bool
  /-- `CLOCK_LEVEL` (R20). -/
  clockLevel : Bool
  /-- `PIN_DIR[DATA]` (R20). -/
  dataDir : PinDir
  /-- `PIN_DIR[CLOCK]` (R20). -/
  clockDir : PinDir
  /-- `PIN_OWNER[DATA]` (R20). -/
  dataOwner : PinOwner
  /-- `PIN_OWNER[CLOCK]` (R20). -/
  clockOwner : PinOwner
  /-- `SER`; `none` is not alive (R21). -/
  ser : Option SerPos
  /-- `FRAME`: byte `k` stands at offset `k` (R22; log 15). -/
  frame : List Byte
  /-- `HWQ`, the bytes not yet finished shifting out, the oldest first (R23). -/
  hwq : List Byte
  /-- How many bits of the byte at the head of `HWQ` the channel has put out, 0 to 7 (implied by 41_transport R97; log 12). -/
  headSent : Fin 8
  /-- The output trace, oldest event first (R26). -/
  trace : List Event
  /-- The responses given, oldest first (30_encoding R60; log 20). -/
  responses : List Response
  /-- The command that waits for the hardware channel, if one does (41_transport R96, R98; log 11). -/
  inFlight : Option Cont
  /-- Frame elements ENCODE has still to assemble; empty at every command boundary (log 3). -/
  encq : List FrameWord
  /-- The commands the caller has issued and the block has not taken, oldest first (30_encoding R58; log 5). -/
  port : List Request
  /-- The platform asks for a reset (70_reset_and_hazards R175; log 17). -/
  resetReq : Bool
  /-- The OPEN parameters of the machine (00_scope R8; log 9); no step changes them. -/
  plat : Platform
  /-- The environment's answers (00_scope R9; log 10). -/
  env : Env
deriving DecidableEq, Repr

/-- After reset (70_reset_and_hazards R175, R176). The values R176 leaves unspecified are those of log 8. -/
def State.reset : State :=
  { lifecycle := .uninitialized
    cfg := { n := 1, dataPin := 0, clockPin := 0, forceSoftware := false, debug := false, hwChannelId := 0, hwFreqHz := 0 }
    pix := ⟨[⟨0, 0, 0⟩], by simp⟩
    bright := 0
    transport := .none
    hwActive := false
    hwVariant := 0
    dataLevel := false
    clockLevel := false
    dataDir := .inputFloating
    clockDir := .inputFloating
    dataOwner := .unclaimed
    clockOwner := .unclaimed
    ser := none
    frame := []
    hwq := []
    headSent := 0
    trace := []
    responses := []
    inFlight := none
    encq := []
    port := []
    resetReq := false
    plat := Config.platform
    env := Env.unscripted }

/-- Why a step stops with a fault. Each is raised only in a state that `Inv` rules out and that no run from reset
reaches, where the spec gives no effect: safe (log 16). -/
inductive Fault where
  /-- TRANSMIT or RELEASE meets `TRANSPORT = None` although `LIFECYCLE` is Active; raised by the commands that transmit and by
  SHUTDOWN. 41_transport R95: "It is never called with `TRANSPORT = None`". Safe. -/
  | noTransport
  /-- An index below `CFG.N` with no entry in `PIX`; raised by GET_PIXEL, SET_PIXEL, HANDLE_GET and HANDLE_SET. R13 and R27
  rule it out. Safe. -/
  | noSuchPixel
  /-- A command in flight without a position in `SER`, or without a hardware-timed transport to go on with; R21 and R95 rule
  it out. Safe. -/
  | lostPosition
deriving DecidableEq, Repr, Inhabited

/-- Why a step is refused. -/
inductive Refusal where
  /-- An instruction without a meaning in this model; raised by no arm. Safe. -/
  | notModelled (mnemonic : String)
  /-- A word in `encq` that is none of START, LED and PAD (30_encoding R62: never produced); raised by `step` when such a word is
  placed from outside. Safe. -/
  | notAFrameElement (w : FrameWord)
deriving DecidableEq, Repr, Inhabited

end Sys2Proof.Machine
end

