-- ==== Sys2Proof/Machine/Ops.lean ====
section
/-! DEFINITION. The named operations over the state: responding, raising an error (the block's exception entry), emitting an
event, drawing an answer of the environment, reading and writing pixels and frame bytes, reset, and placing a code where
`step` fetches. -/

namespace Sys2Proof.Machine

/-- What a meaning answers. -/
abbrev Result := Host.Outcome State Fault Refusal

/-- Goes on with a next state; a fault or a refusal stands. -/
def andThen (o : Result) (k : State → Result) : Result :=
  match o with
  | .next s => k s
  | .fault r => .fault r
  | .refused r => .refused r

/-- `respond` (00_scope section 5): the one response of a command. -/
def respond (r : Response) (s : State) : State :=
  { s with responses := s.responses ++ [r] }

/-- `raise` (00_scope section 5, 60_exceptions R156, R157): the block's only exception entry. The response carries the error;
nothing is saved, no mode changes, there is no vector and nothing else is written. There is no return (R158). -/
def raise (e : Error) (s : State) : State :=
  respond (.error e) s

/-- `emit E` (00_scope section 5, 10_state R26). -/
def emit (e : Event) (s : State) : State :=
  { s with trace := s.trace ++ [e] }

/-- The head of a script and the rest of it, or the free value of this draw. -/
def drawFrom {α : Type} (script : List α) (free : Nat → α) (n : Nat) : α × List α × Nat :=
  match script with
  | a :: rest => (a, rest, n)
  | [] => (free n, [], n + 1)

/-- draw `hw_init_outcome` (00_scope R9). -/
def takeHwInit (e : Env) : HwInit × Env :=
  match drawFrom e.hwInit Config.hwInit e.drawn with
  | (a, rest, n) => (a, { e with hwInit := rest, drawn := n })

/-- draw `pin_claim_outcome` (R9). -/
def takePinClaim (e : Env) : Bool × Env :=
  match drawFrom e.pinClaim Config.pinClaim e.drawn with
  | (a, rest, n) => (a, { e with pinClaim := rest, drawn := n })

/-- draw the environment's part of `hw_ready` (R9, 41_transport R96). -/
def takeHwReady (e : Env) : Bool × Env :=
  match drawFrom e.hwReady Config.hwReady e.drawn with
  | (a, rest, n) => (a, { e with hwReady := rest, drawn := n })

/-- draw how many bits the hardware channel puts out now (41_transport R97). -/
def takeChannelBits (e : Env) : Nat × Env :=
  match drawFrom e.channelBits Config.channelBits e.drawn with
  | (a, rest, n) => (a, { e with channelBits := rest, drawn := n })

/-- draw how many queued bits survive a deactivation (41_transport R106). -/
def takeCutBits (e : Env) : Nat × Env :=
  match drawFrom e.cutBits Config.cutBits e.drawn with
  | (a, rest, n) => (a, { e with cutBits := rest, drawn := n })

/-- draw whether a pin configuration is supported (44_diagnostics R143). -/
def takeModeSupported (e : Env) : Bool × Env :=
  match drawFrom e.modeSupported Config.modeSupported e.drawn with
  | (a, rest, n) => (a, { e with modeSupported := rest, drawn := n })

/-- draw a level read back (44_diagnostics R143). -/
def takeReadBack (e : Env) : Bool × Env :=
  match drawFrom e.readBack Config.readBack e.drawn with
  | (a, rest, n) => (a, { e with readBack := rest, drawn := n })

/-- draw the level of a pin that nobody drives (U18). -/
def takeUndrivenLevel (e : Env) : Bool × Env :=
  match drawFrom e.undrivenLevel Config.undrivenLevel e.drawn with
  | (a, rest, n) => (a, { e with undrivenLevel := rest, drawn := n })

/-- Black, `(0, 0, 0)` (30_encoding R65). -/
def black : Color := ⟨0, 0, 0⟩

/-- Whether the tag of `TRANSPORT` is HardwareTimed (R17). -/
def isHardwareTimed : Transport → Bool
  | .hardwareTimed _ => true
  | _ => false

/-- Whether the tag of `TRANSPORT` is SoftwareTimed (R17). -/
def isSoftwareTimed : Transport → Bool
  | .softwareTimed _ _ => true
  | _ => false

/-- A buffer of `n` entries of one colour. -/
def PixelBuffer.replicate (n : ℕ+) (c : Color) : PixelBuffer := ⟨List.replicate n c, by simp⟩

/-- The buffer with entry `i` replaced; the same buffer where there is no entry `i`. -/
def PixelBuffer.set (p : PixelBuffer) (i : Nat) (c : Color) : PixelBuffer :=
  ⟨p.colors.set i c, by simpa using p.nonempty⟩

/-- A list of colours as a buffer; an empty list is none. -/
def PixelBuffer.ofList : List Color → Option PixelBuffer
  | [] => none
  | c :: cs => some ⟨c :: cs, by simp⟩

/-- `PIX[i]`: an entry that does not exist has no value (20_memory R34). -/
def readPixel (s : State) (i : Nat) : Option Color := s.pix.colors[i]?

/-- `PIX[i] <- c`, the three channels together (20_memory R37); no effect where there is no entry `i`. -/
def writePixel (i : Nat) (c : Color) (s : State) : State :=
  { s with pix := s.pix.set i c }

/-- `PIX <- cs`, all entries together (20_memory R37). -/
def writePixels (cs : PixelBuffer) (s : State) : State :=
  { s with pix := cs }

/-- `MemRead(k, 1)`, that is `FRAME[k]`: an offset at or beyond the frame's end does not exist (00_scope section 5). -/
def readFrame (s : State) (k : Nat) : Option Byte := s.frame[k]?

/-- `MemWrite` at the end of the transient frame buffer: ENCODE writes its bytes in ascending order (40_frame_encoder R72). -/
def appendFrame (bs : List Byte) (s : State) : State :=
  { s with frame := s.frame ++ bs }

/-- The frame byte space as (address, byte) pairs, the block's only memory (00_scope section 5, 10_state R25; log 15). -/
def Memory.cells (s : State) : List Host.Cell :=
  s.frame.zipIdx.map (fun p => (p.2, p.1))

/-- The canonical form of a list of cells: addresses strictly rising. Every listed byte is one that was written: an unlisted
address does not exist. -/
abbrev Memory.wf (m : List Host.Cell) : Prop :=
  (m.map Prod.fst).Pairwise (· < ·)

/-- `PIN_DIR[p] <- m` (R20). -/
def setPinDir (p : Pin) (m : PinDir) (s : State) : State :=
  match p with
  | .data => { s with dataDir := m }
  | .clock => { s with clockDir := m }

/-- Both pins get one owner (R20). -/
def setPinOwners (o : PinOwner) (s : State) : State :=
  { s with dataOwner := o, clockOwner := o }

/-- The platform's reset (70_reset_and_hazards R175, R176): the reset state; what lies outside the block stays, that is the
platform's parameters, the environment's answers and the caller's commands (log 17). -/
def applyReset (s : State) : State :=
  { State.reset with plat := s.plat, env := s.env, port := s.port }

/-- A code that is no command is answered with IllegalCommand and has no other effect (30_encoding R61, 60_exceptions R150,
R161; log 2). -/
def rejectCommand (s : State) : State :=
  raise .illegal s

/-- Puts a code where the next `step` fetches, and clears what would keep that step from fetching: a reset request and a
command in flight (log 5). -/
def placeCode (c : Code) (s : State) : State :=
  match c with
  | .cmd r => { s with port := r :: s.port, encq := [], inFlight := none, ser := none, resetReq := false }
  | .frame w => { s with encq := w :: s.encq, inFlight := none, ser := none, resetReq := false }

/-- Takes the oldest command from the command port. -/
def takeCommand (s : State) : Option (Request × State) :=
  match s.port with
  | [] => none
  | r :: rest => some (r, { s with port := rest })

/-- Takes the next frame element ENCODE has to assemble. -/
def takeElement (s : State) : Option (FrameWord × State) :=
  match s.encq with
  | [] => none
  | w :: rest => some (w, { s with encq := rest })

end Sys2Proof.Machine
end

