-- ==== Sys2Proof/Machine/Operands.lean ====
section
/-! DEFINITION. Operand forms: validation (42_strip_controller R110, R112, R120) and the conversions of 30_encoding section 2. -/

namespace Sys2Proof.Machine

/-- A channel or brightness operand: valid when it is a number and `0 <= v <= 1`, both bounds included (R112, R120); what is valid is a
normalized number from here on (40_frame_encoder R71). -/
def unitNumber : Number → Option Normalized
  | .nan => none
  | .rat q => if h : 0 ≤ q ∧ q ≤ 1 then some ⟨q, h⟩ else none

/-- `valid_color` (R112): the colour, when its three channels are valid. -/
def validColor (c : ColorOperand) : Option Color :=
  match unitNumber c.r, unitNumber c.g, unitNumber c.b with
  | some r, some g, some b => some ⟨r, g, b⟩
  | _, _, _ => none

/-- The colours of a list, when every one is valid (R116). -/
def validColors : List ColorOperand → Option (List Color)
  | [] => some []
  | c :: cs =>
    match validColor c, validColors cs with
    | some c, some cs => some (c :: cs)
    | _, _ => none

/-- The colours of a list as a buffer, when every one is valid and there is one. -/
def validBuffer (cs : List ColorOperand) : Option PixelBuffer := (validColors cs).bind PixelBuffer.ofList

/-- Whether a pixel count is within `N_MAX` (D21). -/
def withinMax (nMax : Option Nat) (n : Nat) : Bool :=
  match nMax with
  | none => true
  | some m => decide (n ≤ m)

/-- The pixel count of CONSTRUCT, when it is an integer with `1 <= n <= N_MAX` (R110, D21). -/
def pixelCount (plat : Platform) : Number → Option ℕ+
  | .nan => none
  | .rat q =>
    if h : 1 ≤ q.num.toNat then
      if q.den = 1 ∧ withinMax plat.nMax q.num.toNat = true then some ⟨q.num.toNat, h⟩ else none
    else none

/-- Both pins satisfy `pin_valid` and they differ (R110, D21). -/
def pinsUsable (plat : Platform) (d c : Nat) : Bool :=
  plat.validPins.contains d && plat.validPins.contains c && decide (d ≠ c)

/-- The frequency of CONSTRUCT, when it is a positive number (R110, D21). -/
def positiveNumber : Number → Option Rat
  | .nan => none
  | .rat q => if 0 < q then some q else none

/-- `chan_byte(v) = floor(255*v) & 0xFF`, in exact arithmetic (30_encoding R52, D4). -/
def chanByte (v : Normalized) : Byte := BitVec.ofInt 8 (255 * (v : Rat)).floor

/-- `level_of(x) = trunc(31*x)`, equal to the floor on `[0, 1]` (30_encoding R56, D5). -/
def levelOf (x : Normalized) : Level := BitVec.ofInt 5 (31 * (x : Rat)).floor

/-- `norm_of(l) = l / 31` (30_encoding R57, D6). -/
def normOf (l : Level) : Rat := (l.toNat : Rat) / 31

/-- `{0b111, zext_5(BRIGHT)}` (30_encoding R53). -/
def headerByte (l : Level) : Byte := 0b111#3 ++ l

/-- The bits of a byte in sending order, bit 7 first (20_memory R32). -/
def byteBits (b : Byte) : List Bool :=
  [b.getLsbD 7, b.getLsbD 6, b.getLsbD 5, b.getLsbD 4, b.getLsbD 3, b.getLsbD 2, b.getLsbD 1, b.getLsbD 0]

/-- `bits(f)`, the wire bits of a byte list (40_frame_encoder R84). -/
def frameBits (f : List Byte) : List Bool := f.flatMap byteBits

/-- `ceil(n / 16)` for a natural `n` (30_encoding R49). -/
def ceilDiv16 (n : Nat) : Nat := (n + 15) / 16

/-- `P = ceil(N/16) + 4` (30_encoding R49). -/
def padCount (n : Nat) : Nat := ceilDiv16 n + 4

/-- White as an operand, `(1, 1, 1)` (30_encoding R65; log 18). -/
def whiteOperand : ColorOperand := ⟨.rat 1, .rat 1, .rat 1⟩

/-- Black as an operand, `(0, 0, 0)` (30_encoding R65; log 18). -/
def blackOperand : ColorOperand := ⟨.rat 0, .rat 0, .rat 0⟩

end Sys2Proof.Machine
end

