-- ==== Sys2Proof/Machine/Flags.lean ====
section
/-! DEFINITION. The flags of 00_scope R3, `LIFECYCLE`, the transport tag and `HW_ACTIVE`: their numeric codes, the lifecycle
check of the commands, and the status and cause numbers of a response. -/

namespace Sys2Proof.Machine

/-- The numbers of `LIFECYCLE` (10_state R11, R12). -/
def lifecycleCode : Lifecycle → Nat
  | .uninitialized => 0
  | .active => 1
  | .closed => 2

/-- The numbers of the transport tag (10_state R12). -/
def transportTag : Transport → Nat
  | .none => 0
  | .hardwareTimed _ => 1
  | .softwareTimed _ _ => 2

/-- The status number of a response (60_exceptions R151). -/
def statusCode : Response → Nat
  | .ok _ => 0
  | .error (.validation _) => 1
  | .error (.resource _) => 2
  | .error .closed => 3
  | .error .transport => 4
  | .error .illegal => 5

/-- The cause number of a response (60_exceptions R151). -/
def causeCode : Response → Nat
  | .error (.validation .index) => 1
  | .error (.validation .length) => 2
  | .error (.validation .channel) => 3
  | .error (.validation .brightness) => 4
  | .error (.validation .param) => 5
  | .error (.resource .pin) => 1
  | .error (.resource .channelUnavailable) => 2
  | _ => 0

/-- `require_active()` (42_strip_controller R111), before the rest `k` of a command. -/
def requireActive (k : State → Result) (s : State) : Result :=
  match s.lifecycle with
  | .closed => .next (raise .closed s)
  | .uninitialized => .next (raise .illegal s)
  | .active => k s

end Sys2Proof.Machine
end

