-- ==== Sys2Proof/Machine/Encoder.lean ====
section
/-! DEFINITION. The Frame Encoder (40_frame_encoder): ENCODE, and the meanings of the frame elements START, LED and PAD, each of
which writes its bytes at the end of the transient frame buffer (log 3). -/

namespace Sys2Proof.Machine

/-- The START element: four zero bytes (30_encoding R46, 40_frame_encoder R73). -/
def startBytes : List Byte := List.replicate 4 0#8

/-- A LED element: header, blue, green, red (30_encoding R47, 20_memory R31). -/
def ledBytes (l : Level) (blue green red : Byte) : List Byte := [headerByte l, blue, green, red]

/-- `led_block(i)` for a pixel of colour `c` at level `l` (30_encoding R54). -/
def ledBlock (l : Level) (c : Color) : List Byte := ledBytes l (chanByte c.b) (chanByte c.g) (chanByte c.r)

/-- The PAD element: one zero byte (30_encoding R48). -/
def padBytes : List Byte := [0#8]

/-- ENCODE (40_frame_encoder R72): the start marker, one LED block per pixel in ascending order, `P` padding bytes. Its operands meet
the preconditions of R71 by their types: at least one pixel, every channel in [0, 1], a level of five bits. -/
def encodeFrame (pixels : PixelBuffer) (level : Level) : List Byte :=
  startBytes ++ pixels.colors.flatMap (ledBlock level) ++ List.replicate (padCount pixels.colors.length) 0#8

/-- `FRAME := encode(PIX, BRIGHT)` (42_strip_controller R113). -/
def assembleFrame (s : State) : State :=
  { s with frame := encodeFrame s.pix s.bright }

/-- START (30_encoding R46). -/
def execStart (s : State) : Result := .next (appendFrame startBytes s)

/-- LED (30_encoding R47). -/
def execLed (l : Level) (blue green red : Byte) (s : State) : Result := .next (appendFrame (ledBytes l blue green red) s)

/-- PAD (30_encoding R48). -/
def execPad (s : State) : Result := .next (appendFrame padBytes s)

end Sys2Proof.Machine
end

