-- ==== Sys2Proof/Machine/Transport.lean ====
section
/-! DEFINITION. The Transport Strategy (41_transport): the hardware channel's own step, the two forms of TRANSMIT, SELECT,
RELEASE, the suspension of a diagnostic, and the commit that ends a write command. -/

namespace Sys2Proof.Machine

/-- Event `Pin(p, v)` with the level it leaves (10_state R20, R26). -/
def drivePin (p : Pin) (v : Bool) (s : State) : State :=
  match p with
  | .data => { emit (.pin .data v) s with dataLevel := v }
  | .clock => { emit (.pin .clock v) s with clockLevel := v }

/-! ### The hardware channel (R97) -/

/-- Event `WireBit(v)`: a full clock pulse with the data level held across its rising edge, the clock low after it. The channel
writes the pin space (10_state R25), so the levels follow (log 12). -/
def wireBit (v : Bool) (s : State) : State :=
  { emit (.wireBit v) s with dataLevel := v, clockLevel := false }

/-- The channel puts out the next bit of the byte at the head of `HWQ`, bit 7 first; with its last bit the byte leaves the queue
(R97; 10_state R23). It does nothing when the queue is empty. -/
def serveBit (s : State) : State :=
  match s.hwq with
  | [] => s
  | b :: q =>
    wireBit (b.getLsbD (7 - s.headSent.val))
      { s with hwq := if s.headSent = 7 then q else b :: q, headSent := s.headSent + 1 }

/-- The channel puts out `k` bits, or all it has if they are fewer. -/
def serveBits : Nat → State → State
  | 0, s => s
  | k + 1, s => serveBits k (serveBit s)

/-- The bits the channel has not put out yet. -/
def queuedBits (s : State) : List Bool := (frameBits s.hwq).drop s.headSent

/-- Whether the channel has a bit to put out. -/
def hasQueued (s : State) : Bool := !s.hwq.isEmpty

/-- The channel's chance to run: with `HW_ACTIVE = 1` and something queued it puts out as many bits as the environment
draws, none among the choices (R97; log 12). -/
def channelRun (s : State) : State :=
  if s.hwActive && hasQueued s then
    match takeChannelBits s.env with
    | (k, env) => serveBits k { s with env := env }
  else s

/-- The environment chooses how many of the queued bits still reach the wire (R106, D17; log 13). -/
def surviveCut (s : State) : State :=
  if hasQueued s then
    match takeCutBits s.env with
    | (k, env) => serveBits k { s with env := env }
  else s

/-- The channel is deactivated: some of the queued bits still reach the wire, the rest are lost (R106, D17; log 13). -/
def cutQueue (s : State) : State :=
  { surviveCut s with hwq := [], headSent := 0 }

/-! ### TRANSMIT -/

/-- One bit of the software-timed TRANSMIT, the body of the inner loop of R99. -/
def sendBit (k j : Nat) (v : Bool) (s : State) : State :=
  let t := Event.delay (.us s.plat.bitDelayUs.val)
  let s := drivePin .data v { s with ser := some ⟨k, some j, some .setup⟩ }
  let s := emit t (drivePin .clock true { s with ser := some ⟨k, some j, some .high⟩ })
  emit t (drivePin .clock false { s with ser := some ⟨k, some j, some .low⟩ })

/-- The bits of frame byte `k`, from bit `j` down (R99). -/
def sendBits (k : Nat) : Nat → List Bool → State → State
  | _, [], s => s
  | j, v :: vs, s => sendBits k (j - 1) vs (sendBit k j v s)

/-- `transmit_sw` from byte `k` on (R99). -/
def sendSoftware : List Byte → Nat → State → State
  | [], _, s => { s with ser := none }
  | b :: bs, k, s => sendSoftware bs (k + 1) (sendBits k 7 (byteBits b) s)

/-- Whether `HWQ` can take a byte; the byte being shifted out counts (R96, D16; 10_state R23). -/
def hasRoom (s : State) : Bool :=
  match s.plat.hwqDepth with
  | none => true
  | some d => decide (s.hwq.length < d)

/-- Event `HwWrite(b)`: the byte joins the queue (R96); a byte that joins an empty queue has no bit on the wire. -/
def hwWrite (b : Byte) (s : State) : State :=
  { emit (.hwWrite b) s with hwq := s.hwq ++ [b], headSent := if s.hwq.isEmpty then 0 else s.headSent }

/-- `hw_ready`: the queue has room and the environment says ready (R96, U11; log 11). -/
def pollReady (s : State) : Bool × State :=
  match takeHwReady s.env with
  | (ready, env) => (ready && hasRoom s, { s with env := env })

/-- `transmit_hw` from byte `k` on (R96). Where the channel is not ready it stops with `SER = (k, -, -)` alive: the wait goes on
in the next step, and may never end (R98; log 11). -/
def sendHardware : List Byte → Nat → State → State
  | [], _, s => { s with ser := none }
  | b :: bs, k, s =>
    match pollReady (channelRun { s with ser := some ⟨k, none, none⟩ }) with
    | (true, s) => sendHardware bs (k + 1) (hwWrite b s)
    | (false, s) => s

/-- `transmit(FRAME)` (R95). -/
def transmit (s : State) : Result :=
  match s.transport with
  | .none => .fault .noTransport
  | .hardwareTimed _ => .next (sendHardware s.frame 0 s)
  | .softwareTimed _ _ => .next (sendSoftware s.frame 0 s)

/-- The wait of the command in flight goes on where `SER` stands (R96, R98). -/
def transmitOn (s : State) : Result :=
  match s.transport, s.ser with
  | .hardwareTimed _, some p => .next (sendHardware (s.frame.drop p.k) p.k s)
  | _, _ => .fault .lostPosition

/-- After TRANSMIT: the response OK if the whole frame has been handed over, else the command stays in flight (D23). -/
def replyWhenSent (s : State) : Result :=
  if s.ser.isSome then .next { s with inFlight := some .reply }
  else .next (respond (.ok .none) { s with inFlight := none })

/-- `commit()`, then the response OK (42_strip_controller R113). -/
def commit (s : State) : Result := andThen (transmit (assembleFrame s)) replyWhenSent

/-- After the first frame of SHOW_TEST_PATTERN: the hold, the snapshot restored, the second commit (44_diagnostics R145). The
channel may run before the hold as at any time (R97). -/
def restoreWhenSent (snapshot : PixelBuffer) (s : State) : Result :=
  if s.ser.isSome then .next { s with inFlight := some (.restore snapshot) }
  else
    let s := emit (.delay (.hold s.plat.patternHold.val)) (channelRun { s with inFlight := none })
    commit (writePixels snapshot s)

/-- One step of a command in flight: the wait goes on, and when the frame has gone the rest of the command follows. -/
def resumeCommand (c : Cont) (s : State) : Result :=
  match c with
  | .reply => andThen (transmitOn s) replyWhenSent
  | .restore snapshot => andThen (transmitOn s) (restoreWhenSent snapshot)

/-! ### SELECT (R88) -/

/-- The hardware-timed branch of SELECT after a successful initialisation. The pins are outputs (10_state R20, R176; log 14). -/
def claimHardware (variant id : Nat) (freq : Rat) (d c : Nat) (s : State) : State :=
  { setPinOwners .peripheral (emit (.hwClaim id freq d c) s) with
    hwq := [], headSent := 0, hwActive := true, hwVariant := variant
    dataDir := .output, clockDir := .output, dataLevel := false, clockLevel := false }

/-- The software-timed branch of SELECT after both claims succeeded. -/
def claimSoftware (d c : Nat) (s : State) : State :=
  let s := setPinOwners .gpio (emit (.pinClaim c) (emit (.pinClaim d) s))
  drivePin .data false (drivePin .clock false { s with dataDir := .output, clockDir := .output })

/-- SELECT's software-timed path, forced or fallen back to: the draws for both pins, then the claim or nothing (R88, R91). -/
def selectSoftware (d c : Nat) (s : State) : Option Transport × State :=
  match takePinClaim s.env with
  | (pd, env) =>
    match takePinClaim env with
    | (pc, env) =>
      let s := { s with env := env }
      if pd && pc then (some (.softwareTimed d c), claimSoftware d c s) else (none, s)

/-- SELECT (R88): no transport is the case `raise ResourceError(PIN)`. -/
def select (forceSoftware debug : Bool) (id : Nat) (freq : Rat) (d c : Nat) (s : State) : Option Transport × State :=
  if forceSoftware then selectSoftware d c s
  else
    match takeHwInit s.env with
    | (.ok variant, env) => (some (.hardwareTimed id), claimHardware variant id freq d c { s with env := env })
    | (.fail _, env) =>
      let s := { s with env := env }
      selectSoftware d c (if debug then emit .log s else s)

/-! ### RELEASE (R105) and suspension (44_diagnostics R141) -/

/-- The levels of pins that nobody drives (U18; log 21). -/
def undrivePins (s : State) : State :=
  match takeUndrivenLevel s.env with
  | (vd, env) =>
    match takeUndrivenLevel env with
    | (vc, env) => { s with env := env, dataLevel := vd, clockLevel := vc }

/-- RELEASE (R105); the bits still queued as R106 says. -/
def release (s : State) : Result :=
  match s.transport with
  | .none => .fault .noTransport
  | .hardwareTimed _ =>
    .next (undrivePins (setPinOwners .unclaimed
      { cutQueue (emit .hwRelease s) with hwActive := false, transport := .none }))
  | .softwareTimed _ _ => .next (setPinOwners .unclaimed { s with transport := .none })

/-- Whether a diagnostic has a channel to suspend (44_diagnostics R141, R143). -/
def suspends (s : State) : Bool := isHardwareTimed s.transport && s.hwActive

/-- `emit HwSuspend ; HW_ACTIVE <- 0`, where there is an active channel; the bits still queued as R142 says. -/
def suspend (s : State) : State :=
  if suspends s then { cutQueue (emit .hwSuspend s) with hwActive := false } else s

/-- `emit HwResume ; HW_ACTIVE <- 1`, only if the channel was active before (R141). -/
def unsuspend (wasActive : Bool) (s : State) : State :=
  if isHardwareTimed s.transport && wasActive then { emit .hwResume s with hwActive := true } else s

end Sys2Proof.Machine
end

