-- ==== Sys2Proof/Machine/Controller.lean ====
section
/-! DEFINITION. The Strip Controller (42_strip_controller): the meanings of its commands. -/

namespace Sys2Proof.Machine

/-- What CONSTRUCT writes when SELECT has answered a transport (R110). -/
def constructed (cfg : Cfg) (level : Level) (t : Transport) (s : State) : State :=
  { s with cfg := cfg, pix := PixelBuffer.replicate cfg.n black, bright := level, transport := t, lifecycle := .active }

/-- CONSTRUCT, after validation: SELECT, the writes, the first commit if `INIT_FLUSH` (R110). -/
def constructWith (cfg : Cfg) (level : Level) (s : State) : Result :=
  match select cfg.forceSoftware cfg.debug cfg.hwChannelId cfg.hwFreqHz cfg.dataPin cfg.clockPin s with
  | (none, s) => .next (raise (.resource .pin) s)
  | (some t, s) =>
    let s := constructed cfg level t s
    if s.plat.initFlush then commit s else .next (respond (.ok .none) s)

/-- CONSTRUCT (R110): its checks in the order of 60_exceptions R159. -/
def execConstruct (n brightness : Number) (dataPin clockPin : Nat) (forceSoftware debug : Bool) (hwChannelId : Nat)
    (hwFreqHz : Number) (s : State) : Result :=
  if s.lifecycle ≠ .uninitialized then .next (raise .illegal s)
  else
    match pixelCount s.plat n with
    | none => .next (raise (.validation .param) s)
    | some count =>
      match unitNumber brightness with
      | none => .next (raise (.validation .brightness) s)
      | some x =>
        if pinsUsable s.plat dataPin clockPin then
          match positiveNumber hwFreqHz with
          | none => .next (raise (.validation .param) s)
          | some freq =>
            constructWith { n := count, dataPin := dataPin, clockPin := clockPin, forceSoftware := forceSoftware,
                            debug := debug, hwChannelId := hwChannelId, hwFreqHz := freq } (levelOf x) s
        else .next (raise (.validation .param) s)

/-- `set_pixel` (R114). -/
def setPixel (i : Nat) (c : ColorOperand) (s : State) : Result :=
  requireActive (fun s =>
    if i ≥ s.cfg.n then .next (raise (.validation .index) s)
    else
      match validColor c with
      | none => .next (raise (.validation .channel) s)
      | some c =>
        match readPixel s i with
        | none => .fault .noSuchPixel
        | some _ => commit (writePixel i c s)) s

/-- `set_all` (R115): one commit, whatever `N` is. -/
def setAll (c : ColorOperand) (s : State) : Result :=
  requireActive (fun s =>
    match validColor c with
    | none => .next (raise (.validation .channel) s)
    | some c => commit (writePixels (PixelBuffer.replicate s.cfg.n c) s)) s

/-- `get_pixel` (R117). -/
def getPixel (i : Nat) (s : State) : Result :=
  requireActive (fun s =>
    if i ≥ s.cfg.n then .next (raise (.validation .index) s)
    else
      match readPixel s i with
      | none => .fault .noSuchPixel
      | some c => .next (respond (.ok (.color c)) s)) s

/-- SET_PIXEL (R114). -/
def execSetPixel (i : Nat) (c : ColorOperand) (s : State) : Result := setPixel i c s

/-- SET_ALL (R115). -/
def execSetAll (c : ColorOperand) (s : State) : Result := setAll c s

/-- SET_BUFFER (R116). -/
def execSetBuffer (cs : List ColorOperand) (s : State) : Result :=
  requireActive (fun s =>
    if cs.length ≠ s.cfg.n then .next (raise (.validation .length) s)
    else
      match validBuffer cs with
      | none => .next (raise (.validation .channel) s)
      | some cs => commit (writePixels cs s)) s

/-- GET_PIXEL (R117). -/
def execGetPixel (i : Nat) (s : State) : Result := getPixel i s

/-- GET_BUFFER (R118). -/
def execGetBuffer (s : State) : Result :=
  requireActive (fun s => .next (respond (.ok (.colors s.pix.colors)) s)) s

/-- A sum of normalized numbers is at least 0 and at most their count. -/
theorem sum_normalized (vs : List Normalized) :
    0 ≤ (vs.map Subtype.val).sum ∧ (vs.map Subtype.val).sum ≤ vs.length := by
  induction vs with
  | nil => simp
  | cons v vs ih =>
    have h := v.2
    simp only [Set.mem_Icc] at h
    simp only [List.map_cons, List.sum_cons, List.length_cons]
    push_cast
    constructor <;> linarith

/-- The arithmetic mean of normalized numbers, exact: "each mean lies in `[0, 1]`" (R119, D28). -/
def mean (vs : List Normalized) : Normalized :=
  ⟨(vs.map Subtype.val).sum / vs.length,
    div_nonneg (sum_normalized vs).1 (Nat.cast_nonneg _), div_le_one_of_le₀ (sum_normalized vs).2 (Nat.cast_nonneg _)⟩

/-- The componentwise arithmetic mean of a buffer (R119), whose length is `N` (10_state R13). -/
def meanColor (pixels : PixelBuffer) : Color :=
  ⟨mean (pixels.colors.map Color.r), mean (pixels.colors.map Color.g), mean (pixels.colors.map Color.b)⟩

/-- AVERAGE_COLOR (R119). -/
def execAverageColor (s : State) : Result :=
  requireActive (fun s => .next (respond (.ok (.color (meanColor s.pix))) s)) s

/-- SET_BRIGHTNESS (R120). -/
def execSetBrightness (brightness : Number) (s : State) : Result :=
  requireActive (fun s =>
    match unitNumber brightness with
    | none => .next (raise (.validation .brightness) s)
    | some x => commit { s with bright := levelOf x }) s

/-- GET_BRIGHTNESS (R121). -/
def execGetBrightness (s : State) : Result :=
  requireActive (fun s => .next (respond (.ok (.brightness (normOf s.bright))) s)) s

/-- ON, exactly `set_all((1, 1, 1))` (R122). -/
def execTurnOn (s : State) : Result := setAll whiteOperand s

/-- OFF, exactly `set_all((0, 0, 0))` (R123). -/
def execTurnOff (s : State) : Result := setAll blackOperand s

/-- FLUSH (R124). -/
def execFlush (s : State) : Result := requireActive commit s

/-- SHUTDOWN (R125): exempt from `require_active`, idempotent. -/
def execShutdown (s : State) : Result :=
  match s.lifecycle with
  | .uninitialized => .next (raise .illegal s)
  | .closed => .next (respond (.ok .none) s)
  | .active => andThen (release s) (fun s => .next (respond (.ok .none) { s with lifecycle := .closed }))

end Sys2Proof.Machine
end

