-- ==== Sys2Proof/Machine/Handle.lean ====
section
/-! DEFINITION. The Pixel Handle (43_pixel_handle): an addressing form; a handle is the index its owner keeps (R135). -/

namespace Sys2Proof.Machine

/-- HANDLE_GET delegates to `get_pixel` (R136). -/
def execHandleGet (i : Nat) (s : State) : Result := getPixel i s

/-- HANDLE_SET delegates to `set_pixel` (R137). -/
def execHandleSet (i : Nat) (c : ColorOperand) (s : State) : Result := setPixel i c s

end Sys2Proof.Machine
end

