-- ==== Sys2Proof/Machine/Diagnostics.lean ====
section
/-! DEFINITION. The Diagnostics (44_diagnostics): PIN_TOGGLE_TEST, PIN_DRIVE_CHECK and SHOW_TEST_PATTERN. -/

namespace Sys2Proof.Machine

/-- One on/off cycle: clock high, data high, delay, clock low, data low, delay (R141, D24). -/
def toggleCycle (s : State) : State :=
  let t := Event.delay (.ms s.plat.toggleDelayMs.val)
  let s := emit t (drivePin .data true (drivePin .clock true s))
  emit t (drivePin .data false (drivePin .clock false s))

/-- `n` on/off cycles. -/
def toggleCycles : Nat → State → State
  | 0, s => s
  | n + 1, s => toggleCycles n (toggleCycle s)

/-- PIN_TOGGLE_TEST (R141). -/
def execPinToggleTest (s : State) : Result :=
  requireActive (fun s =>
    let saved := s.hwActive
    let s := toggleCycles s.plat.toggleCycles (suspend s)
    let s := unsuspend saved { s with clockLevel := false, dataLevel := false }
    .next (respond (.ok .none) s)) s

/-- The configurations of PIN_DRIVE_CHECK in their order (R143). -/
def checkModes : List PinDir := [.inputFloating, .inputPullUp, .inputPullDown, .output]

/-- The stages of PIN_DRIVE_CHECK: DATA, then CLOCK (R143, D24). -/
def checkStages : List (Pin × PinDir) := checkModes.map (fun m => (.data, m)) ++ checkModes.map (fun m => (.clock, m))

/-- The stages in order: a supported configuration is set and read back, an unsupported one is skipped (R143). -/
def runStages : List (Pin × PinDir) → State → List ((Pin × PinDir) × Bool) × State
  | [], s => ([], s)
  | (p, m) :: rest, s =>
    match takeModeSupported s.env with
    | (false, env) => runStages rest { s with env := env }
    | (true, env) =>
      match takeReadBack env with
      | (v, env) =>
        match runStages rest (setPinDir p m (emit (.pinMode p m) { s with env := env })) with
        | (result, s) => (((p, m), v) :: result, s)

/-- A pin is made an output again, `emit PinMode(p, output)` (R143). -/
def restoreOutput (p : Pin) (s : State) : State := setPinDir p .output (emit (.pinMode p .output) s)

/-- PIN_DRIVE_CHECK (R143). -/
def execPinDriveCheck (s : State) : Result :=
  requireActive (fun s =>
    let saved := s.hwActive
    match runStages checkStages (suspend s) with
    | (result, s) =>
      let s := unsuspend saved (restoreOutput .clock (restoreOutput .data s))
      .next (respond (.ok (.checks result)) s)) s

/-- The colour of pixel `i` in the test pattern: red, green, blue repeating below `m`, black from there on (R145). -/
def patternColor (m i : Nat) : Color :=
  if i < m then (if i % 3 = 0 then ⟨1, 0, 0⟩ else if i % 3 = 1 then ⟨0, 1, 0⟩ else ⟨0, 0, 1⟩) else black

/-- The test pattern on `n` pixels, `m = min(6, N)` of them lit (R145). -/
def testPattern (n : ℕ+) : PixelBuffer := ⟨(List.range n).map (patternColor (min 6 n)), by simp⟩

/-- SHOW_TEST_PATTERN (R145). -/
def execShowTestPattern (s : State) : Result :=
  requireActive (fun s =>
    andThen (transmit (assembleFrame (writePixels (testPattern s.cfg.n) s))) (restoreWhenSent s.pix)) s

end Sys2Proof.Machine
end

