-- ==== Sys2Proof/Machine/Dispatch.lean ====
section
/-! DEFINITION. The dispatch: one arm per instruction, each a direct call of its meaning. -/

namespace Sys2Proof.Machine

def exec (i : Instr) (s : State) : Host.Outcome State Fault Refusal :=
  match i with
  | .construct n x d c fs dbg id f => Sys2Proof.Machine.execConstruct n x d c fs dbg id f s
  | .setPixel i' c => Sys2Proof.Machine.execSetPixel i' c s
  | .setAll c => Sys2Proof.Machine.execSetAll c s
  | .setBuffer cs => Sys2Proof.Machine.execSetBuffer cs s
  | .getPixel i' => Sys2Proof.Machine.execGetPixel i' s
  | .getBuffer => Sys2Proof.Machine.execGetBuffer s
  | .averageColor => Sys2Proof.Machine.execAverageColor s
  | .setBrightness x => Sys2Proof.Machine.execSetBrightness x s
  | .getBrightness => Sys2Proof.Machine.execGetBrightness s
  | .turnOn => Sys2Proof.Machine.execTurnOn s
  | .turnOff => Sys2Proof.Machine.execTurnOff s
  | .flush => Sys2Proof.Machine.execFlush s
  | .shutdown => Sys2Proof.Machine.execShutdown s
  | .handleGet i' => Sys2Proof.Machine.execHandleGet i' s
  | .handleSet i' c => Sys2Proof.Machine.execHandleSet i' c s
  | .pinToggleTest => Sys2Proof.Machine.execPinToggleTest s
  | .pinDriveCheck => Sys2Proof.Machine.execPinDriveCheck s
  | .showTestPattern => Sys2Proof.Machine.execShowTestPattern s
  | .start => Sys2Proof.Machine.execStart s
  | .led l b g r => Sys2Proof.Machine.execLed l b g r s
  | .pad => Sys2Proof.Machine.execPad s

end Sys2Proof.Machine
end

