-- ==== Sys2Proof/Machine/Step.lean ====
section
/-! DEFINITION. One step of the machine, over the operations of the other files. -/

namespace Sys2Proof.Machine

/-- The next frame element ENCODE was given (log 3). -/
def stepElement (w : FrameWord) (s : State) : Result :=
  match decodeFrame w with
  | .ok i => exec i s
  | .error _ => .refused (.notAFrameElement w)

/-- The oldest command at the command port; the channel runs first. -/
def stepCommand (r : Request) (s : State) : Result :=
  match decodeCommand r with
  | .ok i => exec i (channelRun s)
  | .error _ => .next (rejectCommand (channelRun s))

/-- One step. A reset request comes first (70_reset_and_hazards R175: it also ends a hang); then the command in flight goes on
(20_memory R40: one command at a time); then a frame element; then a command; with none of them the controller executes nothing
(R176) and only the channel runs (41_transport R97). -/
def step (s : State) : Host.Outcome State Fault Refusal :=
  if s.resetReq then .next (applyReset s)
  else
    match s.inFlight with
    | some c => resumeCommand c s
    | none =>
      match takeElement s with
      | some (w, s) => stepElement w s
      | none =>
        match takeCommand s with
        | some (r, s) => stepCommand r s
        | none => .next (channelRun s)

/-- The state with an opcode-table word placed where `step` fetches its next instruction (log 5). -/
def State.withFetchWord (s : State) (nbits w : Nat) : State :=
  match tableCode nbits w with
  | some c => placeCode c s
  | none => s

end Sys2Proof.Machine
end

