-- ==== Sys2Proof/Safety.lean ====
section
/-! DEFINITION. The terms claims are stated in: the invariant of every state a step reaches, the wire bits of a trace
(41_transport R103), and, written without the machine's loops, what a commit leaves behind on each transport. -/

namespace Sys2Proof.Machine

/-! ### The invariant (10_state R27 and the legal values of R11 to R23) -/

/-- Who owns the pins under a transport (10_state R20; 41_transport R88, R105). -/
def ownerOf : Transport → PinOwner
  | .none => .unclaimed
  | .hardwareTimed _ => .peripheral
  | .softwareTimed _ _ => .gpio

/-- The handles of the transport are those of the construction parameters (41_transport R88). -/
def handlesOf (cfg : Cfg) : Transport → Prop
  | .none => True
  | .hardwareTimed h => h = cfg.hwChannelId ∧ cfg.forceSoftware = false
  | .softwareTimed d c => d = cfg.dataPin ∧ c = cfg.clockPin

/-- What holds at every boundary between two steps. That `N >= 1`, that a buffer has an entry and that every stored channel is in [0, 1]
(10_state R12, R14, R27) holds by the types of `CFG.N`, `PIX` and a colour. -/
structure Inv (s : State) : Prop where
  /-- R13, R27: the buffer has `N` entries while the block is Active. -/
  pixels : s.lifecycle = .active → s.pix.colors.length = s.cfg.n
  /-- R17: Active implies a transport; Uninitialized implies none, and so does Closed (R105). -/
  transport : s.lifecycle = .active ↔ s.transport ≠ .none
  /-- R18: `HW_ACTIVE` is 1 exactly while the tag is HardwareTimed. -/
  active : s.hwActive = isHardwareTimed s.transport
  /-- R17, R90: the handles, and no hardware channel where software was forced. -/
  handles : handlesOf s.cfg s.transport
  /-- R20: the owner of both pins. -/
  owners : s.dataOwner = ownerOf s.transport ∧ s.clockOwner = ownerOf s.transport
  /-- R20: both pins are outputs while the block holds them. -/
  outputs : s.transport ≠ .none → s.dataDir = .output ∧ s.clockDir = .output
  /-- R27, R101: under the software-timed transport the clock is low. -/
  clockLow : isSoftwareTimed s.transport = true → s.clockLevel = false
  /-- R23: no queue without a hardware channel. -/
  queue : isHardwareTimed s.transport = false → s.hwq = []
  /-- R23: the bytes not yet finished shifting out are no more than `HWQ_DEPTH`. -/
  depth : ∀ d : ℕ+, s.plat.hwqDepth = some d → s.hwq.length ≤ d
  /-- R23, R97: a byte is being shifted out only while the queue holds it. -/
  shifting : s.hwq = [] → s.headSent = 0
  /-- R21: `SER` is alive exactly while a command waits. -/
  waiting : s.inFlight.isSome = s.ser.isSome
  /-- R21, R98: a command waits only for the hardware channel, at a byte of the frame. -/
  position : ∀ p, s.ser = some p →
    isHardwareTimed s.transport = true ∧ p.k < s.frame.length ∧ p.j = none ∧ p.p = none
  /-- 44_diagnostics R145: a snapshot held by a waiting command has `N` entries. -/
  snapshot : ∀ cs : PixelBuffer, s.inFlight = some (.restore cs) → cs.colors.length = s.cfg.n

/-- A command boundary at which `step` takes the next command: no reset, nothing in flight, no frame element. -/
def Idle (s : State) : Prop := s.resetReq = false ∧ s.inFlight = none ∧ s.encq = []

/-! ### Observation of the wire -/

/-- The events of the controller, that is all but the channel's `WireBit` (10_state R26). -/
def isControllerEvent : Event → Bool
  | .wireBit _ => false
  | _ => true

/-- The wire bits of a list of events that starts with the clock and data levels given: the data level at each rising
clock edge, and the bits the hardware channel puts out (41_transport R103; log 19). -/
def wireBitsFrom : Bool → Bool → List Event → List Bool
  | _, _, [] => []
  | clk, _, .pin .data v :: es => wireBitsFrom clk v es
  | clk, dat, .pin .clock v :: es =>
    if clk = false ∧ v = true then dat :: wireBitsFrom v dat es else wireBitsFrom v dat es
  | _, _, .wireBit v :: es => v :: wireBitsFrom false v es
  | clk, dat, .hwClaim _ _ _ _ :: es => wireBitsFrom clk dat es
  | clk, dat, .hwRelease :: es => wireBitsFrom clk dat es
  | clk, dat, .hwSuspend :: es => wireBitsFrom clk dat es
  | clk, dat, .hwResume :: es => wireBitsFrom clk dat es
  | clk, dat, .pinClaim _ :: es => wireBitsFrom clk dat es
  | clk, dat, .hwWrite _ :: es => wireBitsFrom clk dat es
  | clk, dat, .pinMode _ _ :: es => wireBitsFrom clk dat es
  | clk, dat, .delay _ :: es => wireBitsFrom clk dat es
  | clk, dat, .log :: es => wireBitsFrom clk dat es

/-- The five events of one bit of the software-timed TRANSMIT (41_transport R99). -/
def bitEvents (delay : Rat) (v : Bool) : List Event :=
  [.pin .data v, .pin .clock true, .delay (.us delay), .pin .clock false, .delay (.us delay)]

/-- The events of a frame under the software-timed TRANSMIT (R99). -/
def frameEvents (delay : Rat) (f : List Byte) : List Event := (frameBits f).flatMap (bitEvents delay)

/-- The events of one on/off cycle of PIN_TOGGLE_TEST (44_diagnostics R141). -/
def toggleEvents (delay : Rat) : List Event :=
  [.pin .clock true, .pin .data true, .delay (.ms delay), .pin .clock false, .pin .data false, .delay (.ms delay)]

/-! ### What a commit leaves behind -/

/-- The whole effect of a commit on the software-timed transport, from the state `s` that the command's writes left
(42_strip_controller R113, 41_transport R99, R101). -/
def softwareCommitted (s : State) : State :=
  { s with
    frame := encodeFrame s.pix s.bright
    trace := s.trace ++ frameEvents s.plat.bitDelayUs.val (encodeFrame s.pix s.bright)
    dataLevel := false
    clockLevel := false
    ser := none
    inFlight := none
    responses := s.responses ++ [.ok .none] }

/-- `t` comes from `s` by handing the bytes `f` to the hardware channel, in order, while the channel puts out whatever it
does: the controller's events are the `HwWrite`s of `f`, no bit is lost, repeated or reordered, and nothing else of the
state moves but the channel's queue, the pin levels it drives, the environment and `SER` (41_transport R96, R97;
20_memory R41). -/
def HandedOver (s t : State) (f : List Byte) : Prop :=
  ∃ ev, t.trace = s.trace ++ ev ∧
    ev.filter isControllerEvent = f.map Event.hwWrite ∧
    wireBitsFrom s.clockLevel s.dataLevel ev ++ queuedBits t = queuedBits s ++ frameBits f ∧
    t = { s with trace := t.trace, hwq := t.hwq, headSent := t.headSent, dataLevel := t.dataLevel,
                 clockLevel := t.clockLevel, env := t.env, ser := t.ser }

/-- From `s` to `v` the channel has been polled `n` times, and every poll found the environment ready: the scripted answers used are
the first `n`, and each of them is ready (41_transport R96, "wait until hw_ready"; log 10). -/
def PolledReady (n : Nat) (s v : State) : Prop :=
  v.env.hwReady = s.env.hwReady.drop n ∧ ∀ b ∈ s.env.hwReady.take n, b = true

/-- A hardware-timed TRANSMIT of the bytes `f` from `s` has ended in `u`: all of them are handed over, in order, the environment having
been ready for each, and `SER` is not alive (41_transport R96). -/
def SentAll (s u : State) (f : List Byte) : Prop :=
  HandedOver s u f ∧ u.ser = none ∧ PolledReady f.length s u

/-- A poll of `hw_ready` in `v` answered no and left `u`: the environment said not ready, or the queue was full (41_transport R96,
D16); only the draw is used up. -/
def PolledNotReady (v u : State) : Prop :=
  u = { v with env := (takeHwReady v.env).2 } ∧
  ((takeHwReady v.env).1 = false ∨ ∃ d : ℕ+, v.plat.hwqDepth = some d ∧ (d : Nat) ≤ v.hwq.length)

/-- A hardware-timed TRANSMIT of the bytes `f` from `s`, the first of which has offset `k` in the frame, waits in `u`: `j` of them
are handed over, in order, the environment having been ready for each, `SER` stands at the next, and in the state `v` in which the
channel was polled for that one it was not ready (41_transport R96, R98). -/
def WaitsAt (s u : State) (f : List Byte) (k j : Nat) : Prop :=
  j < f.length ∧ HandedOver s u (f.take j) ∧ u.ser = some ⟨k + j, none, none⟩ ∧
  ∃ v, HandedOver s v (f.take j) ∧ v.ser = u.ser ∧ PolledReady j s v ∧ PolledNotReady v u

/-- The environment lets the channel take the next `n` bytes within `c` chances of the channel to run: it says ready at each poll,
and where the queue is bounded the channel puts out at least a byte's worth of bits at each chance (R9, 41_transport R96, R97). -/
def Accepts (n c : Nat) (s : State) : Prop :=
  (∃ rest, s.env.hwReady = List.replicate n true ++ rest) ∧
  ∀ d : ℕ+, s.plat.hwqDepth = some d → s.hwActive = true ∧ s.hwq.length ≤ d ∧
    ∃ ks rest, s.env.channelBits = ks ++ rest ∧ c ≤ ks.length ∧ ∀ k ∈ ks, 8 ≤ k

/-- A commit on the hardware-timed transport that completed, from the state `s` that the command's writes left: the whole frame is
handed over and the response is OK (42_strip_controller R113, 41_transport R96). -/
def HardwareSent (s t : State) : Prop :=
  ∃ u, SentAll { s with frame := encodeFrame s.pix s.bright } u (encodeFrame s.pix s.bright) ∧
    t = { u with inFlight := none, responses := s.responses ++ [.ok .none] }

/-- What a commit leaves behind on the hardware-timed transport, from the state `s` that the command's writes left: it has
completed, or it waits at a byte the channel was not ready for, with the command in flight and no response
(42_strip_controller R113, 41_transport R96, R98; log 11). -/
def HardwareCommitted (s t : State) : Prop :=
  HardwareSent s t ∨
  ∃ k u, WaitsAt { s with frame := encodeFrame s.pix s.bright } u (encodeFrame s.pix s.bright) 0 k ∧
    t = { u with inFlight := some .reply }

/-- Between the two frames of SHOW_TEST_PATTERN on the hardware-timed transport, from `u` to `v`: the event of the hold, before which
the channel may put out queued bits and is not polled (44_diagnostics R145, 41_transport R97; log 12). -/
def HeldPattern (u v : State) : Prop :=
  ∃ w, HandedOver { u with inFlight := none } w [] ∧ w.ser = u.ser ∧ w.env.hwReady = u.env.hwReady ∧
    v = { w with trace := w.trace ++ [.delay (.hold u.plat.patternHold.val)] }

/-- The stages of PIN_DRIVE_CHECK in their order (44_diagnostics R143; DATA before CLOCK, D24). -/
def driveStages : List (Pin × PinDir) :=
  [(.data, .inputFloating), (.data, .inputPullUp), (.data, .inputPullDown), (.data, .output),
   (.clock, .inputFloating), (.clock, .inputPullUp), (.clock, .inputPullDown), (.clock, .output)]

/-- Those of the stages that are marked supported. -/
def supportedStages (supported : List Bool) : List (Pin × PinDir) :=
  ((driveStages.zip supported).filter Prod.snd).map Prod.fst

/-- The result of the stages `st` of PIN_DRIVE_CHECK and the environment after them, as the environment's answers decide: a stage
it supports is listed with the level it answers, a stage it does not support is left out and no level is drawn for it
(44_diagnostics R143; U6, U7). -/
def checkedBy : List (Pin × PinDir) → Env → List ((Pin × PinDir) × Bool) × Env
  | [], e => ([], e)
  | stage :: st, e =>
    if (takeModeSupported e).1 then
      ((stage, (takeReadBack (takeModeSupported e).2).1) :: (checkedBy st (takeReadBack (takeModeSupported e).2).2).1,
        (checkedBy st (takeReadBack (takeModeSupported e).2).2).2)
    else checkedBy st (takeModeSupported e).2

/-- `s` with one more response and nothing else changed. -/
def answered (s : State) (r : Response) : State := { s with responses := s.responses ++ [r] }

/-! ### Operands the spec calls valid -/

/-- A colour as an operand. -/
def colorOperand (c : Color) : ColorOperand := ⟨.rat c.r, .rat c.g, .rat c.b⟩

/-- A number operand in [0, 1] (42_strip_controller R112, R120). -/
def isUnit (x : Number) : Prop := ∃ q, x = .rat q ∧ 0 ≤ q ∧ q ≤ 1

/-- A pixel count CONSTRUCT accepts: an integer with `1 <= n <= N_MAX` (42_strip_controller R110, D21). -/
def isCount (plat : Platform) (x : Number) : Prop :=
  ∃ n : Nat, x = .rat n ∧ 1 ≤ n ∧ ∀ m, plat.nMax = some m → n ≤ m

/-- Two pins CONSTRUCT accepts (R110, D21). -/
def arePins (plat : Platform) (d c : Nat) : Prop := d ∈ plat.validPins ∧ c ∈ plat.validPins ∧ d ≠ c

/-- The construction operands that pass every check of R110. -/
structure Constructible (plat : Platform) (n : ℕ+) (x : Rat) (d c : Nat) (f : Rat) : Prop where
  count : isCount plat (.rat n)
  brightness : 0 ≤ x ∧ x ≤ 1
  pins : arePins plat d c
  frequency : 0 < f

/-- What every successful CONSTRUCT leaves, whatever the transport (42_strip_controller R110, 70_reset_and_hazards R176). -/
def constructedFrom (s : State) (cfg : Cfg) (x : Rat) (t : Transport) : State :=
  { s with
    lifecycle := .active
    cfg := cfg
    pix := PixelBuffer.replicate cfg.n ⟨0, 0, 0⟩
    bright := BitVec.ofNat 5 (31 * x).floor.toNat
    transport := t
    dataLevel := false
    clockLevel := false
    dataDir := .output
    clockDir := .output }

/-! ### The commands, by what they do -/

/-- The frame elements are no commands of the port (10_state R25). -/
def isCommand : Instr → Bool
  | .start => false
  | .led _ _ _ _ => false
  | .pad => false
  | .construct _ _ _ _ _ _ _ _ => true
  | .setPixel _ _ => true
  | .setAll _ => true
  | .setBuffer _ => true
  | .getPixel _ => true
  | .getBuffer => true
  | .averageColor => true
  | .setBrightness _ => true
  | .getBrightness => true
  | .turnOn => true
  | .turnOff => true
  | .flush => true
  | .shutdown => true
  | .handleGet _ => true
  | .handleSet _ _ => true
  | .pinToggleTest => true
  | .pinDriveCheck => true
  | .showTestPattern => true

/-- The commands that only read (20_memory R38). -/
def isRead : Instr → Bool
  | .getPixel _ => true
  | .getBuffer => true
  | .averageColor => true
  | .getBrightness => true
  | .handleGet _ => true
  | _ => false

/-- CONSTRUCT. -/
def isConstruct : Instr → Bool
  | .construct _ _ _ _ _ _ _ _ => true
  | _ => false

/-- The public setters of the pixel buffer (10_state R13) and CONSTRUCT. -/
def writesPixels : Instr → Bool
  | .construct _ _ _ _ _ _ _ _ => true
  | .setPixel _ _ => true
  | .setAll _ => true
  | .setBuffer _ => true
  | .turnOn => true
  | .turnOff => true
  | .handleSet _ _ => true
  | .showTestPattern => true
  | _ => false

/-- The writers of `BRIGHT` (10_state R16). -/
def writesBright : Instr → Bool
  | .construct _ _ _ _ _ _ _ _ => true
  | .setBrightness _ => true
  | _ => false

/-- The state a valid write command leaves before its commit: its own write and nothing else (42_strip_controller R114, R115,
R116, R120, R122, R123, R124; 43_pixel_handle R137). `none` where the operands are refused or the command commits nothing. -/
def written (i : Instr) (s : State) : Option State :=
  match i with
  | .setPixel k c => if k < s.cfg.n then (validColor c).map (fun c => { s with pix := s.pix.set k c }) else none
  | .handleSet k c => if k < s.cfg.n then (validColor c).map (fun c => { s with pix := s.pix.set k c }) else none
  | .setAll c => (validColor c).map (fun c => { s with pix := PixelBuffer.replicate s.cfg.n c })
  | .setBuffer cs =>
    if cs.length = s.cfg.n then (validBuffer cs).map (fun cs => { s with pix := cs }) else none
  | .setBrightness x => (unitNumber x).map (fun x => { s with bright := levelOf x })
  | .turnOn => some { s with pix := PixelBuffer.replicate s.cfg.n ⟨1, 1, 1⟩ }
  | .turnOff => some { s with pix := PixelBuffer.replicate s.cfg.n ⟨0, 0, 0⟩ }
  | .flush => some s
  | _ => none

/-- Between two commands, and while one waits, `FRAME` is empty or encodes the present `PIX` and `BRIGHT` (10_state R27,
20_memory R43). -/
def FreshFrame (s : State) : Prop :=
  s.frame = [] ∨ (s.lifecycle ≠ .uninitialized ∧ s.frame = encodeFrame s.pix s.bright)

/-- The bytes handed to the hardware channel in a list of events. -/
def writtenBytes : List Event → List Byte
  | [] => []
  | .hwWrite b :: es => b :: writtenBytes es
  | _ :: es => writtenBytes es

/-- The frame elements of a frame, in the order of 30_encoding R45. -/
def frameProgram (pixels : PixelBuffer) (level : Level) : List Instr :=
  [.start] ++ pixels.colors.map (fun c => .led level (chanByte c.b) (chanByte c.g) (chanByte c.r))
    ++ List.replicate (padCount pixels.colors.length) .pad

/-- The meanings of a list of instructions, one after the other. -/
def execAll : List Instr → State → Result
  | [], s => .next s
  | i :: is, s => andThen (exec i s) (execAll is)

end Sys2Proof.Machine
end

