-- ==== Sys2Proof/Certificates/Slice0/Obligations.lean ====
section
/-! DEFINITION. The statements for the provers. Each docstring names the rules of spec/ it formalises; a clause that rests on a
decision of the spec (D<n>) or of this model (log <n>) says so. -/

open Sys2Proof Sys2Proof.Machine

/-! ### Encodings -/

/-- Some opcodes of 30_encoding R59 (numbers are decision D2), and the formats of R46 to R48, decode to their instructions. -/
def Obligations.SomeWordsDecode : Prop :=
  decodeCommand ⟨0b00000001#8, [.natural 5, .color ⟨.rat 1, .nan, .rat 0⟩]⟩ = .ok (.setPixel 5 ⟨.rat 1, .nan, .rat 0⟩) ∧
  decodeCommand ⟨0b00000111#8, [.number (.rat (1 / 2))]⟩ = .ok (.setBrightness (.rat (1 / 2))) ∧
  decodeCommand ⟨0b00001100#8, []⟩ = .ok .shutdown ∧
  decodeCommand ⟨0b00001101#8, [.natural 2]⟩ = .ok (.handleGet 2) ∧
  decodeCommand ⟨0b00010001#8, []⟩ = .ok .pinDriveCheck ∧
  decodeFrame (.word 0b111_01111_10111111_00111111_01111111#32) = .ok (.led 0b01111#5 0xBF#8 0x3F#8 0x7F#8) ∧
  decodeFrame (.word 0#32) = .ok .start ∧
  decodeFrame (.byte 0#8) = .ok .pad

/-- Decode and encode agree: every instruction, with every operand, is read back from its code (30_encoding R46 to R48, R59;
typed operands, log 1). -/
def Obligations.DecodeOfEncode : Prop :=
  ∀ i : Instr, decode (encode i) = .ok i

/-- Every code has at most one meaning: what decodes to an instruction is the code of that instruction (R59, R46 to R48). -/
def Obligations.EncodeOfDecode : Prop :=
  ∀ (c : Code) (i : Instr), decode c = .ok i → encode i = c

/-- The decoder accepts exactly the well-formed codes, and the reserved opcodes are `0x0F` and `0x13` to `0xFF`, no others (R59, R61,
R62; D2, log 2). -/
def Obligations.DecodeAcceptsWellFormed : Prop :=
  (∀ c : Code, (∃ i, decode c = .ok i) ↔ c.wellFormed = true) ∧
  (∀ op : Byte, signature op = none ↔ (op = 0x0F#8 ∨ 0x13 ≤ op.toNat))

/-! ### One step -/

/-- A step runs the decoded command: the command leaves the port, the hardware channel has its chance to run (41_transport R97),
then the command is executed. -/
def Obligations.StepRunsCommand : Prop :=
  ∀ (s : State) (r : Request) (rest : List Request) (i : Instr),
    Idle s → s.port = r :: rest → decodeCommand r = .ok i →
    step s = exec i (channelRun { s with port := rest })

/-- A step runs the decoded frame element (log 3). -/
def Obligations.StepRunsElement : Prop :=
  ∀ (s : State) (w : FrameWord) (rest : List FrameWord) (i : Instr),
    s.resetReq = false → s.inFlight = none → s.encq = w :: rest → decodeFrame w = .ok i →
    step s = exec i { s with encq := rest }

/-- A reserved opcode, and operands that are not those of the opcode's row, are answered with IllegalCommand and have no
other effect; the only thing that may move besides is the hardware channel (30_encoding R61, D22; operands: log 2). -/
def Obligations.UndecodableCommandIsIllegal : Prop :=
  ∀ (s : State) (r : Request) (rest : List Request),
    Idle s → s.port = r :: rest → r.wellFormed = false →
    step s = .next (answered (channelRun { s with port := rest }) (.error .illegal))

/-- With nothing to do the controller executes nothing, and under the hardware-timed transport the channel goes on by itself: no
bit is lost, repeated or reordered, no controller event is emitted; and when the environment lets it put out `k` bits, exactly the
first `k` queued bits reach the wire (all of them if they are fewer), in order, and the bytes that are finished leave `HWQ`
(41_transport R97, R104; 10_state R23; 70_reset_and_hazards R176; that it works bit by bit, log 12). -/
def Obligations.IdleStepOnlyRunsChannel : Prop :=
  ∀ s : State, Idle s → s.port = [] →
    ∃ t, step s = .next t ∧ HandedOver s t [] ∧ t.ser = s.ser ∧ (s.hwActive = false → t = s) ∧
      ∀ k rest, s.hwActive = true → s.hwq ≠ [] → s.env.channelBits = k :: rest →
        t.trace = s.trace ++ ((queuedBits s).take k).map .wireBit ∧ queuedBits t = (queuedBits s).drop k ∧
        t.hwq = s.hwq.drop ((s.headSent + k) / 8) ∧ t.dataLevel = ((queuedBits s).take k).getLastD s.dataLevel ∧
        t.clockLevel = (if k = 0 then s.clockLevel else false) ∧ t.env = { s.env with channelBits := rest }

/-- A stuck channel: while the environment says not ready, the command in flight keeps waiting at its byte; it gets no response,
no later command is taken, no byte is handed over (41_transport R98, 60_exceptions R163). That such a hang is a chain of next
states with the command in flight is the model's choice (log 11, DESIGN CHOICE). -/
def Obligations.NotReadyKeepsWaiting : Prop :=
  ∀ (s : State) (p : SerPos) (c : Cont) (rest : List Bool),
    Inv s → s.resetReq = false → s.inFlight = some c → s.ser = some p → s.env.hwReady = false :: rest →
    ∃ t, step s = .next t ∧ HandedOver s t [] ∧ t.ser = some p ∧ t.inFlight = some c ∧
      t.responses = s.responses ∧ t.port = s.port ∧ t.pix = s.pix

/-- The wait can end: with a channel that is ready from now on, whether its queue is bounded or not, the rest of the frame is handed
over in one step; then a waiting write command answers OK, and a waiting SHOW_TEST_PATTERN holds, restores its snapshot and commits
it, which completes if the channel goes on being ready (41_transport R96, 44_diagnostics R145; the draws are the environment's,
log 10). That all this happens in one step of a command kept in flight is the model's choice (log 11, DESIGN CHOICE). -/
def Obligations.ReadyEndsTheWait : Prop :=
  ∀ (s : State) (p : SerPos), Inv s → s.resetReq = false → s.ser = some p →
    Accepts (s.frame.length - p.k) (s.frame.length - p.k) s →
    (s.inFlight = some .reply →
      ∃ u, SentAll s u (s.frame.drop p.k) ∧
        step s = .next { u with inFlight := none, responses := s.responses ++ [.ok .none] }) ∧
    (∀ cs, s.inFlight = some (.restore cs) →
      ∃ u v t, SentAll s u (s.frame.drop p.k) ∧ HeldPattern u v ∧ step s = .next t ∧ HardwareCommitted { v with pix := cs } t ∧
        (Accepts (s.frame.length - p.k + (encodeFrame cs s.bright).length)
            (s.frame.length - p.k + 1 + (encodeFrame cs s.bright).length) s → HardwareSent { v with pix := cs } t))

/-- Reset, also during a hang: the values of 70_reset_and_hazards R175 and R176 (D26). That of `PIX`, `FRAME` and `HWQ`, which do not
exist then, the state holds one black pixel and two empty lists is the model's choice (log 8, DESIGN CHOICE), and so is what lies
outside the block and stays (log 17). -/
def Obligations.ResetRequestResets : Prop :=
  ∀ s : State, s.resetReq = true →
    ∃ t, step s = .next t ∧ t.lifecycle = .uninitialized ∧ t.transport = .none ∧ t.hwActive = false ∧
      t.dataOwner = .unclaimed ∧ t.clockOwner = .unclaimed ∧ t.pix.colors = [⟨0, 0, 0⟩] ∧ t.frame = [] ∧ t.hwq = [] ∧ t.ser = none ∧
      t.trace = [] ∧ t.inFlight = none ∧ t.port = s.port ∧ t.plat = s.plat

/-- After reset: the values 70_reset_and_hazards R175 and R176 give (D26). R176 says that `PIX` and `HWQ` do not exist and `FRAME` is
none; that the state holds one black pixel and two empty lists is the model's choice (log 8, DESIGN CHOICE). -/
def Obligations.ResetValues : Prop :=
  State.reset.lifecycle = .uninitialized ∧ State.reset.transport = .none ∧ State.reset.hwActive = false ∧
  State.reset.dataOwner = .unclaimed ∧ State.reset.clockOwner = .unclaimed ∧ State.reset.ser = none ∧
  State.reset.pix.colors = [⟨0, 0, 0⟩] ∧ State.reset.frame = [] ∧ State.reset.hwq = [] ∧ State.reset.trace = []

/-- The invariant holds after reset. -/
def Obligations.ResetMeetsTheInvariant : Prop := Inv State.reset

/-- Every step keeps the invariant: the buffer has `N` entries, `TRANSPORT`, `HW_ACTIVE`, the pin owners and directions agree, the
clock is low under the software-timed transport, `SER` is alive exactly while a command waits (10_state R11 to R23, R27). That a
channel lies in [0, 1], a level has five bits and `N >= 1` holds in every state by type. -/
def Obligations.StepKeepsTheInvariant : Prop :=
  ∀ s t : State, Inv s → step s = .next t → Inv t

/-- No ordinary data ends a run: in every state that meets the invariant, with no frame element placed from outside (`encq` empty,
log 3), a step answers a next state, whatever stands at the command port (60_exceptions R157: an error is not sticky; R163: a hang
is no fault, and here it is a next state, log 11). The model's own faults noTransport, noSuchPixel and lostPosition are
those the invariant rules out (log 16). -/
def Obligations.StepNeverStops : Prop :=
  ∀ s : State, Inv s → s.encq = [] → ∃ t, step s = .next t

/-- Without a reset `LIFECYCLE` only moves Uninitialized, Active, Closed; `CFG` is written only on the way into Active; the
transport is chosen on the way into Active, dropped on the way into Closed and otherwise never changes; the platform's
parameters never change (10_state R11, R12, R17; 70_reset_and_hazards R184). -/
def Obligations.LifecycleAndTransportNeverGoBack : Prop :=
  ∀ s t : State, s.resetReq = false → step s = .next t →
    t.plat = s.plat ∧
    ((t.lifecycle = s.lifecycle ∧ t.cfg = s.cfg ∧ t.transport = s.transport) ∨
     (s.lifecycle = .uninitialized ∧ t.lifecycle = .active) ∨
     (s.lifecycle = .active ∧ t.lifecycle = .closed ∧ t.cfg = s.cfg ∧ t.transport = .none))

/-- The frame is never stale: every step keeps "`FRAME` is empty or encodes the present `PIX` and `BRIGHT`", in a block that is given
frames by its commands only (10_state R27, 20_memory R43; `FRAME` is kept between commands, log 15). -/
def Obligations.FrameIsNeverStale : Prop :=
  ∀ s t : State, Inv s → FreshFrame s → s.encq = [] → step s = .next t → FreshFrame t ∧ t.encq = []

/-- Under the hardware-timed transport, in every step that does not suspend or release the channel, the wire gets the queued bits
in order: no bit is lost, repeated or reordered, and the controller drives no pin itself (20_memory R41, 41_transport R92, R96,
R97; D15, D16). -/
def Obligations.ChannelKeepsTheOrder : Prop :=
  ∀ s t : State, Inv s → isHardwareTimed s.transport = true → s.resetReq = false → t.transport = s.transport →
    step s = .next t →
    ∃ ev, t.trace = s.trace ++ ev ∧
      (Event.hwSuspend ∉ ev →
        wireBitsFrom s.clockLevel s.dataLevel ev ++ queuedBits t = queuedBits s ++ frameBits (writtenBytes ev) ∧
        ∀ p v, Event.pin p v ∉ ev)

/-! ### The Frame Encoder -/

/-- START, LED and PAD write their bytes at the end of `FRAME` and nothing else: four zero bytes; header `0xE0 | level`, blue, green,
red; one zero byte (30_encoding R46 to R48, R53; as instructions: log 3). -/
def Obligations.FrameElementsAppend : Prop :=
  ∀ (s : State) (l : Level) (b g r : Byte),
    exec .start s = .next { s with frame := s.frame ++ [0x00#8, 0x00#8, 0x00#8, 0x00#8] } ∧
    exec (.led l b g r) s = .next { s with frame := s.frame ++ [0xE0#8 ||| l.setWidth 8, b, g, r] } ∧
    exec .pad s = .next { s with frame := s.frame ++ [0x00#8] }

/-- The elements of 30_encoding R45, in their order, assemble exactly the frame ENCODE gives (40_frame_encoder R72). -/
def Obligations.ElementsAssembleTheFrame : Prop :=
  ∀ (s : State) (pixels : PixelBuffer) (l : Level), s.frame = [] →
    execAll (frameProgram pixels l) s = .next { s with frame := encodeFrame pixels l }

/-- The frame length invariant, `4 + 4*N + ceil(N/16) + 4`, where `ceil(N/16)` is the least integer not below `N/16`; the smallest frame
is 13 bytes, with one pixel; neither pixel values nor the level matter (R78). -/
def Obligations.FrameLength : Prop :=
  ∀ (pixels : PixelBuffer) (l : Level),
    ∃ q, (∀ m, q ≤ m ↔ pixels.colors.length ≤ 16 * m) ∧
      (encodeFrame pixels l).length = 4 + 4 * pixels.colors.length + q + 4 ∧
      (encodeFrame pixels l).length = 8 + 4 * pixels.colors.length + q ∧ 13 ≤ (encodeFrame pixels l).length ∧
      (pixels.colors.length = 1 → (encodeFrame pixels l).length = 13)

/-- The layout of a frame: start marker, then for pixel `i` the header, blue, green and red bytes at `4 + 4*i` on, then
`ceil(N/16) + 4` zeros and nothing more (20_memory R36; 40_frame_encoder R73 to R75). -/
def Obligations.FrameLayout : Prop :=
  ∀ (pixels : PixelBuffer) (l : Level),
    (∀ k, k < 4 → (encodeFrame pixels l)[k]? = some 0x00#8) ∧
    (∀ i c, pixels.colors[i]? = some c →
      (encodeFrame pixels l)[4 + 4 * i]? = some (0xE0#8 ||| l.setWidth 8) ∧
      (encodeFrame pixels l)[5 + 4 * i]? = some (chanByte c.b) ∧
      (encodeFrame pixels l)[6 + 4 * i]? = some (chanByte c.g) ∧
      (encodeFrame pixels l)[7 + 4 * i]? = some (chanByte c.r)) ∧
    (∃ q, (∀ m, q ≤ m ↔ pixels.colors.length ≤ 16 * m) ∧
      (∀ k, k < q + 4 → (encodeFrame pixels l)[4 + 4 * pixels.colors.length + k]? = some 0x00#8) ∧
      (encodeFrame pixels l)[4 + 4 * pixels.colors.length + (q + 4)]? = none)

/-- Reading a frame back: a frame and the number of pixels determine the level and every colour byte (30_encoding R51). -/
def Obligations.FrameDeterminesItsFields : Prop :=
  ∀ (p q : PixelBuffer) (l m : Level), p.colors.length = q.colors.length → encodeFrame p l = encodeFrame q m →
    l = m ∧ p.colors.map (fun c => (chanByte c.r, chanByte c.g, chanByte c.b))
      = q.colors.map (fun c => (chanByte c.r, chanByte c.g, chanByte c.b))

/-- `chan_byte`: it is `floor(255*v)`; `k` exactly on `[k/255, (k+1)/255)`, 255 exactly at 1; monotone (30_encoding R52,
40_frame_encoder R80; exact arithmetic, D4, log 6). -/
def Obligations.ChanByteLaws : Prop :=
  (∀ v : Normalized, ((chanByte v).toNat : Int) = (255 * (v : Rat)).floor) ∧
  (∀ (v : Normalized) (k : Nat), k < 255 →
    ((chanByte v).toNat = k ↔ (k : Rat) / 255 ≤ v ∧ (v : Rat) < ((k : Rat) + 1) / 255)) ∧
  (∀ v : Normalized, (chanByte v).toNat = 255 ↔ v = 1) ∧
  (∀ u v : Normalized, (u : Rat) ≤ v → (chanByte u).toNat ≤ (chanByte v).toNat)

/-- `level_of` and `norm_of`: the level is `trunc(31*x)`, 31 exactly at 1, and comes back as `level/31` with `0 <= x - level/31 <
1/31`; every level is reached (30_encoding R56, R57; the factor is D5, the returned value D6). -/
def Obligations.LevelLaws : Prop :=
  (∀ x : Normalized, ((levelOf x).toNat : Int) = (31 * (x : Rat)).floor) ∧
  (∀ x : Normalized, (levelOf x).toNat = 31 ↔ x = 1) ∧
  (∀ x : Normalized, 0 ≤ x - normOf (levelOf x) ∧ x - normOf (levelOf x) < 1 / 31) ∧
  (∀ l : Level, ∃ x : Normalized, (x : Rat) = normOf l ∧ levelOf x = l)

/-! ### The transports -/

/-- The software-timed TRANSMIT of the frame in `FRAME`, whatever its bytes: for each bit data pin, clock high, delay, clock low,
delay, most significant bit first, 40 events a byte; nothing else changes but the pin levels and `SER`, which is not alive
afterwards (41_transport R99). -/
def Obligations.SoftwareTransmitEvents : Prop :=
  ∀ (s : State) (d c : Nat), s.transport = .softwareTimed d c → s.frame ≠ [] →
    transmit s = .next { s with
      trace := s.trace ++ frameEvents s.plat.bitDelayUs.val s.frame
      dataLevel := (frameBits s.frame).getLastD false
      clockLevel := false
      ser := none } ∧
    (frameEvents s.plat.bitDelayUs.val s.frame).length = 40 * s.frame.length

/-- Bit-exactness on the software-timed transport: from a low clock, TRANSMIT adds exactly `bits(f)` to the wire bits
(41_transport R104; wire bits R103, log 19). -/
def Obligations.SoftwareWireBits : Prop :=
  ∀ (s t : State), isSoftwareTimed s.transport = true → s.clockLevel = false → transmit s = .next t →
    ∃ ev, t.trace = s.trace ++ ev ∧ wireBitsFrom s.clockLevel s.dataLevel ev = frameBits s.frame ∧ t.clockLevel = false

/-- The hardware-timed TRANSMIT hands over the frame: the `HwWrite`s are the bytes in order, the channel puts out queued bits in
order and loses none. It hands over the whole frame, every poll of `hw_ready` having found the environment ready, or a front of it,
and waits at the next byte, for which the poll answered no: the environment said not ready or the queue was full. Where the
environment accepts every byte it hands over the whole frame; where it accepts `j` bytes and then says not ready, it waits at
exactly byte `j` (41_transport R96, R97, R98, R104; D15, D16; a wait as a next state, log 11; the channel's chances to run, log 12). -/
def Obligations.HardwareTransmitHandsOver : Prop :=
  ∀ (s : State) (h : Nat), s.transport = .hardwareTimed h →
    ∃ t, transmit s = .next t ∧ (SentAll s t s.frame ∨ ∃ k, WaitsAt s t s.frame 0 k) ∧
      (Accepts s.frame.length s.frame.length s → SentAll s t s.frame) ∧
      (∀ j rest, s.env.hwReady = List.replicate j true ++ false :: rest → j < s.frame.length → Accepts j j s →
        WaitsAt s t s.frame 0 j)

/-! ### CONSTRUCT and SHUTDOWN -/

/-- CONSTRUCT with the hardware channel initialised: `HardwareTimed`, `HW_ACTIVE` 1, an empty queue, the one event `HwClaim`
(42_strip_controller R110, 41_transport R88; buffer D12, levels D14, directions R176 and log 14); with `INIT_FLUSH` (D13) the first
commit follows, and it completes where the environment accepts every byte. -/
def Obligations.ConstructHardwareTimed : Prop :=
  ∀ (s : State) (n : ℕ+) (x : Rat) (d c : Nat) (dbg : Bool) (id : Nat) (f : Rat) (v : Nat) (rest : List HwInit),
    s.lifecycle = .uninitialized → Constructible s.plat n x d c f → s.env.hwInit = .ok v :: rest →
    ∃ u, u = { constructedFrom s ⟨n, d, c, false, dbg, id, f⟩ x (.hardwareTimed id) with
        hwActive := true, hwVariant := v, hwq := [], headSent := 0, dataOwner := .peripheral, clockOwner := .peripheral,
        trace := s.trace ++ [.hwClaim id f d c], env := { s.env with hwInit := rest } } ∧
      (s.plat.initFlush = false →
        exec (.construct (.rat n) (.rat x) d c false dbg id (.rat f)) s = .next (answered u (.ok .none))) ∧
      (s.plat.initFlush = true →
        ∃ t, exec (.construct (.rat n) (.rat x) d c false dbg id (.rat f)) s = .next t ∧ HardwareCommitted u t ∧
          (Accepts (encodeFrame u.pix u.bright).length (encodeFrame u.pix u.bright).length u → HardwareSent u t))

/-- CONSTRUCT with the software-timed transport forced and both pins claimable: the hardware path is never tried, no draw of
`hw_init_outcome`, no `HwClaim` (42_strip_controller R110, 41_transport R88, R90); with `INIT_FLUSH` one frame. -/
def Obligations.ConstructForcedSoftware : Prop :=
  ∀ (s : State) (n : ℕ+) (x : Rat) (d c : Nat) (dbg : Bool) (id : Nat) (f : Rat) (rest : List Bool),
    s.lifecycle = .uninitialized → Constructible s.plat n x d c f → s.env.pinClaim = true :: true :: rest →
    ∃ u, u = { constructedFrom s ⟨n, d, c, true, dbg, id, f⟩ x (.softwareTimed d c) with
        dataOwner := .gpio, clockOwner := .gpio,
        trace := s.trace ++ [.pinClaim d, .pinClaim c, .pin .clock false, .pin .data false],
        env := { s.env with pinClaim := rest } } ∧
      exec (.construct (.rat n) (.rat x) d c true dbg id (.rat f)) s
        = .next (if s.plat.initFlush then softwareCommitted u else answered u (.ok .none))

/-- CONSTRUCT whose hardware initialisation fails falls back to the software-timed transport, with one `Log` if the debug flag is set
and without any trace of the failure otherwise (42_strip_controller R110, 41_transport R87, R88, R89, R92; the black buffer D12, the
low levels D14, with `INIT_FLUSH` one frame D13: decisions of the spec, log 24). -/
def Obligations.ConstructFallsBack : Prop :=
  ∀ (s : State) (n : ℕ+) (x : Rat) (d c : Nat) (dbg : Bool) (id : Nat) (f : Rat) (why : Nat) (restH : List HwInit)
    (rest : List Bool),
    s.lifecycle = .uninitialized → Constructible s.plat n x d c f → s.env.hwInit = .fail why :: restH →
    s.env.pinClaim = true :: true :: rest →
    ∃ u, u = { constructedFrom s ⟨n, d, c, false, dbg, id, f⟩ x (.softwareTimed d c) with
        dataOwner := .gpio, clockOwner := .gpio,
        trace := s.trace ++ (if dbg then [.log] else []) ++
          [.pinClaim d, .pinClaim c, .pin .clock false, .pin .data false],
        env := { s.env with hwInit := restH, pinClaim := rest } } ∧
      exec (.construct (.rat n) (.rat x) d c false dbg id (.rat f)) s
        = .next (if s.plat.initFlush then softwareCommitted u else answered u (.ok .none))

/-- CONSTRUCT that gets no transport fails with ResourceError(PIN): nothing of the block is written. Where the software-timed
transport is forced nothing but the pins is drawn and there is no event; else the only event is the `Log` of a failed hardware
initialisation with the debug flag set (41_transport R90, R91, 60_exceptions R153, R156). -/
def Obligations.ConstructWithoutPinsFails : Prop :=
  ∀ (s : State) (n : ℕ+) (x : Rat) (d c : Nat) (dbg : Bool) (id : Nat) (f : Rat) (pd pc : Bool) (rest : List Bool),
    s.lifecycle = .uninitialized → Constructible s.plat n x d c f →
    s.env.pinClaim = pd :: pc :: rest → (pd && pc) = false →
    exec (.construct (.rat n) (.rat x) d c true dbg id (.rat f)) s
      = .next (answered { s with env := { s.env with pinClaim := rest } } (.error (.resource .pin))) ∧
    (∀ why restH, s.env.hwInit = .fail why :: restH →
      exec (.construct (.rat n) (.rat x) d c false dbg id (.rat f)) s
        = .next (answered { s with env := { s.env with hwInit := restH, pinClaim := rest },
                                   trace := s.trace ++ (if dbg then [.log] else []) } (.error (.resource .pin))))

/-- CONSTRUCT with good operands ends in a row of SELECT's table, whatever the environment answers, scripted or not: the hardware
channel where it is tried and `hw_init_outcome` is ok; else, forced or after a failure (with one `Log` if the debug flag is set), the
software-timed transport where both pins are claimed, and ResourceError(PIN) with nothing written where one is not. The first commit
follows where `INIT_FLUSH` is set (42_strip_controller R110, 41_transport R87 to R91; D12, D13, D14, log 10, log 14). -/
def Obligations.ConstructFollowsSelect : Prop :=
  ∀ (s : State) (n : ℕ+) (x : Rat) (d c : Nat) (fs dbg : Bool) (id : Nat) (f : Rat),
    s.lifecycle = .uninitialized → Constructible s.plat n x d c f →
    (∀ v, fs = false → (takeHwInit s.env).1 = .ok v →
      ∃ u t, u = { constructedFrom s ⟨n, d, c, fs, dbg, id, f⟩ x (.hardwareTimed id) with
          hwActive := true, hwVariant := v, hwq := [], headSent := 0, dataOwner := .peripheral, clockOwner := .peripheral,
          trace := s.trace ++ [.hwClaim id f d c], env := (takeHwInit s.env).2 } ∧
        exec (.construct (.rat n) (.rat x) d c fs dbg id (.rat f)) s = .next t ∧
        (if s.plat.initFlush then HardwareCommitted u t else t = answered u (.ok .none))) ∧
    (∀ e lg, (fs = true ∧ e = s.env ∧ lg = []) ∨
        (fs = false ∧ (∃ why, takeHwInit s.env = (.fail why, e)) ∧ lg = if dbg then [.log] else []) →
      ((takePinClaim e).1 && (takePinClaim (takePinClaim e).2).1) = true →
      ∃ u, u = { constructedFrom s ⟨n, d, c, fs, dbg, id, f⟩ x (.softwareTimed d c) with
          dataOwner := .gpio, clockOwner := .gpio,
          trace := s.trace ++ lg ++ [.pinClaim d, .pinClaim c, .pin .clock false, .pin .data false],
          env := (takePinClaim (takePinClaim e).2).2 } ∧
        exec (.construct (.rat n) (.rat x) d c fs dbg id (.rat f)) s
          = .next (if s.plat.initFlush then softwareCommitted u else answered u (.ok .none))) ∧
    (∀ e lg, (fs = true ∧ e = s.env ∧ lg = []) ∨
        (fs = false ∧ (∃ why, takeHwInit s.env = (.fail why, e)) ∧ lg = if dbg then [.log] else []) →
      ((takePinClaim e).1 && (takePinClaim (takePinClaim e).2).1) = false →
      exec (.construct (.rat n) (.rat x) d c fs dbg id (.rat f)) s
        = .next (answered { s with env := (takePinClaim (takePinClaim e).2).2, trace := s.trace ++ lg }
            (.error (.resource .pin))))

/-- The checks of CONSTRUCT in their order, `n`, brightness, pins, frequency, each with its cause and nothing written
(42_strip_controller R110, 60_exceptions R159; D9, D21). -/
def Obligations.ConstructRefusesBadOperands : Prop :=
  ∀ (s : State) (n x f : Number) (d c id : Nat) (fs dbg : Bool), s.lifecycle = .uninitialized →
    (¬ isCount s.plat n → exec (.construct n x d c fs dbg id f) s = .next (answered s (.error (.validation .param)))) ∧
    (isCount s.plat n → ¬ isUnit x →
      exec (.construct n x d c fs dbg id f) s = .next (answered s (.error (.validation .brightness)))) ∧
    (isCount s.plat n → isUnit x → ¬ arePins s.plat d c →
      exec (.construct n x d c fs dbg id f) s = .next (answered s (.error (.validation .param)))) ∧
    (isCount s.plat n → isUnit x → arePins s.plat d c → (∀ q, 0 < q → f ≠ .rat q) →
      exec (.construct n x d c fs dbg id f) s = .next (answered s (.error (.validation .param))))

/-- SHUTDOWN on the software-timed transport: the pins are unclaimed and keep their last-driven state, no event, no frame; `PIX`,
`BRIGHT` and `CFG` keep their values (42_strip_controller R125, 41_transport R105). -/
def Obligations.ShutdownSoftware : Prop :=
  ∀ (s : State) (d c : Nat), s.lifecycle = .active → s.transport = .softwareTimed d c →
    exec .shutdown s = .next (answered { s with lifecycle := .closed, transport := .none, dataOwner := .unclaimed,
                                                clockOwner := .unclaimed } (.ok .none))

/-- SHUTDOWN on the hardware-timed transport: `HwRelease`, `HW_ACTIVE` 0, the pins unclaimed; after it a front of the bits still
queued reaches the wire and nothing more (42_strip_controller R125, 41_transport R105, R106; D17, log 13; the pin levels are left
open, U18, log 21). -/
def Obligations.ShutdownHardware : Prop :=
  ∀ (s : State) (h : Nat), s.lifecycle = .active → s.transport = .hardwareTimed h →
    ∃ bits t, exec .shutdown s = .next t ∧ bits <+: queuedBits s ∧
      t = answered { s with lifecycle := .closed, transport := .none, hwActive := false, dataOwner := .unclaimed,
                            clockOwner := .unclaimed, hwq := [], headSent := 0,
                            trace := s.trace ++ .hwRelease :: bits.map .wireBit, dataLevel := t.dataLevel,
                            clockLevel := t.clockLevel, env := t.env } (.ok .none)

/-- SHUTDOWN is idempotent: on a closed block it answers OK and nothing else changes (42_strip_controller R125). -/
def Obligations.ShutdownIsIdempotent : Prop :=
  ∀ t : State, t.lifecycle = .closed → exec .shutdown t = .next (answered t (.ok .none))

/-! ### Writing -/

/-- SET_PIXEL, and HANDLE_SET which is nothing else, on the software-timed transport: entry `i` takes the colour, every other entry
keeps its value, one frame is sent (42_strip_controller R114, 43_pixel_handle R137). -/
def Obligations.SetPixelSoftware : Prop :=
  ∀ (s : State) (i d c : Nat) (col : Color), Inv s → s.lifecycle = .active → s.transport = .softwareTimed d c →
    i < s.cfg.n →
    exec (.setPixel i (colorOperand col)) s = .next (softwareCommitted { s with pix := s.pix.set i col }) ∧
    exec (.handleSet i (colorOperand col)) s = .next (softwareCommitted { s with pix := s.pix.set i col })

/-- SET_ALL on the software-timed transport, ON as its white and OFF as its black: every entry takes the colour, one frame
(42_strip_controller R115, R122, R123; white and black R65, log 18). -/
def Obligations.SetAllSoftware : Prop :=
  ∀ (s : State) (d c : Nat) (col : Color), s.lifecycle = .active → s.transport = .softwareTimed d c →
    exec (.setAll (colorOperand col)) s = .next (softwareCommitted { s with pix := PixelBuffer.replicate s.cfg.n col }) ∧
    exec .turnOn s = .next (softwareCommitted { s with pix := PixelBuffer.replicate s.cfg.n ⟨1, 1, 1⟩ }) ∧
    exec .turnOff s = .next (softwareCommitted { s with pix := PixelBuffer.replicate s.cfg.n ⟨0, 0, 0⟩ })

/-- SET_BUFFER on the software-timed transport: the whole buffer is replaced, one frame (42_strip_controller R116). -/
def Obligations.SetBufferSoftware : Prop :=
  ∀ (s : State) (d c : Nat) (cols : PixelBuffer), s.lifecycle = .active → s.transport = .softwareTimed d c →
    cols.colors.length = s.cfg.n →
    exec (.setBuffer (cols.colors.map colorOperand)) s = .next (softwareCommitted { s with pix := cols })

/-- SET_BRIGHTNESS and FLUSH on the software-timed transport: the level `trunc(31*x)` is written and one frame sent, the pixels are
untouched; FLUSH writes nothing and sends one frame (42_strip_controller R120, R124; D5, D29). -/
def Obligations.SetBrightnessAndFlushSoftware : Prop :=
  ∀ (s : State) (d c : Nat) (x : Rat), s.lifecycle = .active → s.transport = .softwareTimed d c → 0 ≤ x → x ≤ 1 →
    exec (.setBrightness (.rat x)) s
      = .next (softwareCommitted { s with bright := BitVec.ofNat 5 (31 * x).floor.toNat }) ∧
    exec .flush s = .next (softwareCommitted s)

/-- Every write command on the hardware-timed transport (SET_PIXEL, SET_ALL, SET_BUFFER, SET_BRIGHTNESS, ON, OFF, FLUSH,
HANDLE_SET): with valid operands it writes what `written` says and hands over one frame, answering OK when the last byte is
accepted, or waits at a byte the channel was not ready for; where the environment accepts every byte it hands over the whole frame
and answers OK in that step (42_strip_controller R113 to R124; 41_transport R96, R98; D16; a wait as a next state, log 11). In
`written`, the level is `trunc(31*x)` by D5, FLUSH writes nothing by D29, and white and black are those of log 18. -/
def Obligations.WritesHardware : Prop :=
  ∀ (s u : State) (h : Nat) (i : Instr), Inv s → s.lifecycle = .active → s.transport = .hardwareTimed h →
    written i s = some u →
    ∃ t, exec i s = .next t ∧ HardwareCommitted u t ∧
      (Accepts (encodeFrame u.pix u.bright).length (encodeFrame u.pix u.bright).length u → HardwareSent u t)

/-- The refusals of the writers: index before channel, length before channel, a brightness outside [0, 1] or not a number; nothing
is written, no frame, no event (42_strip_controller R112, R114 to R116, R120; 20_memory R37; 60_exceptions R156, R159; D7, D9). -/
def Obligations.WritersRefuse : Prop :=
  ∀ (s : State) (i : Nat) (op : ColorOperand) (ops : List ColorOperand) (x : Number), s.lifecycle = .active →
    (¬ isUnit x → exec (.setBrightness x) s = .next (answered s (.error (.validation .brightness)))) ∧
    (s.cfg.n ≤ i →
      exec (.setPixel i op) s = .next (answered s (.error (.validation .index))) ∧
      exec (.handleSet i op) s = .next (answered s (.error (.validation .index)))) ∧
    (i < s.cfg.n → (∀ c : Color, op ≠ colorOperand c) →
      exec (.setPixel i op) s = .next (answered s (.error (.validation .channel))) ∧
      exec (.handleSet i op) s = .next (answered s (.error (.validation .channel)))) ∧
    ((∀ c : Color, op ≠ colorOperand c) →
      exec (.setAll op) s = .next (answered s (.error (.validation .channel)))) ∧
    (ops.length ≠ s.cfg.n → exec (.setBuffer ops) s = .next (answered s (.error (.validation .length)))) ∧
    (ops.length = s.cfg.n → op ∈ ops → (∀ c : Color, op ≠ colorOperand c) →
      exec (.setBuffer ops) s = .next (answered s (.error (.validation .channel))))

/-! ### Reading -/

/-- GET_PIXEL, and HANDLE_GET which is nothing else, answer the stored colour, and refuse an index that is not below `N`; nothing
is written (42_strip_controller R117, 43_pixel_handle R136; D8). -/
def Obligations.GetPixelAnswers : Prop :=
  ∀ (s : State) (i : Nat), Inv s → s.lifecycle = .active →
    (i < s.cfg.n → ∃ c, s.pix.colors[i]? = some c ∧
      exec (.getPixel i) s = .next (answered s (.ok (.color c))) ∧
      exec (.handleGet i) s = .next (answered s (.ok (.color c)))) ∧
    (s.cfg.n ≤ i →
      exec (.getPixel i) s = .next (answered s (.error (.validation .index))) ∧
      exec (.handleGet i) s = .next (answered s (.error (.validation .index))))

/-- GET_BUFFER answers the list of all `N` entries and GET_BRIGHTNESS the level over 31; nothing is written
(42_strip_controller R118, R121; D6). -/
def Obligations.GetBufferAndBrightnessAnswer : Prop :=
  ∀ s : State, Inv s → s.lifecycle = .active →
    s.pix.colors.length = s.cfg.n ∧ exec .getBuffer s = .next (answered s (.ok (.colors s.pix.colors))) ∧
    exec .getBrightness s = .next (answered s (.ok (.brightness ((s.bright.toNat : Rat) / 31))))

/-- AVERAGE_COLOR answers the componentwise mean, exactly; it is a colour (each channel in [0, 1] by type), and with one pixel it
is that pixel
(42_strip_controller R119; D28). -/
def Obligations.AverageColorAnswers : Prop :=
  ∀ s : State, Inv s → s.lifecycle = .active →
    ∃ m : Color, exec .averageColor s = .next (answered s (.ok (.color m))) ∧
      (m.r : Rat) * s.cfg.n = (s.pix.colors.map (fun c => (c.r : Rat))).sum ∧
      (m.g : Rat) * s.cfg.n = (s.pix.colors.map (fun c => (c.g : Rat))).sum ∧
      (m.b : Rat) * s.cfg.n = (s.pix.colors.map (fun c => (c.b : Rat))).sum ∧ (s.cfg.n = 1 → s.pix.colors = [m])

/-- Reads are pure: whatever the state, a read changes nothing but the responses (20_memory R38). -/
def Obligations.ReadsArePure : Prop :=
  ∀ (i : Instr) (s t : State), isRead i = true → exec i s = .next t → t = { s with responses := t.responses }

/-- "For all indices i in [0,N): `set_pixel(i, c); get_pixel(i) == c`", exactly, on the software-timed transport, and every other
index reads as before (42_strip_controller R114, R117). -/
def Obligations.SetThenGet : Prop :=
  ∀ (s : State) (i j d c : Nat) (col : Color), Inv s → s.lifecycle = .active → s.transport = .softwareTimed d c →
    i < s.cfg.n → j < s.cfg.n →
    ∃ t u v, exec (.setPixel i (colorOperand col)) s = .next t ∧ exec (.getPixel j) t = .next u ∧
      u.responses = t.responses ++ [.ok (.color v)] ∧ (j = i → v = col) ∧ (j ≠ i → s.pix.colors[j]? = some v)

/-- The brightness round trip: after `set_brightness(x)`, `get_brightness()` is at most `x` and less than 1/31 below it, on the
software-timed transport (42_strip_controller R120, R121; D5, D6). -/
def Obligations.BrightnessRoundTrip : Prop :=
  ∀ (s : State) (d c : Nat) (x : Rat), s.lifecycle = .active → s.transport = .softwareTimed d c → 0 ≤ x → x ≤ 1 →
    ∃ t u b, exec (.setBrightness (.rat x)) s = .next t ∧ exec .getBrightness t = .next u ∧
      u.responses = t.responses ++ [.ok (.brightness b)] ∧ 0 ≤ x - b ∧ x - b < 1 / 31

/-! ### Errors and the lifecycle, over all commands -/

/-- The lifecycle guards: on a closed block every command but CONSTRUCT and SHUTDOWN is ClosedError; before construction every
command but CONSTRUCT is IllegalCommand; CONSTRUCT outside Uninitialized is IllegalCommand; nothing else happens, whatever the
operands (42_strip_controller R110, R111, R126; D10, D11). -/
def Obligations.LifecycleGuards : Prop :=
  ∀ (i : Instr) (s : State), isCommand i = true →
    (s.lifecycle = .closed → isConstruct i = false → i ≠ .shutdown →
      exec i s = .next (answered s (.error .closed))) ∧
    (s.lifecycle = .uninitialized → isConstruct i = false → exec i s = .next (answered s (.error .illegal))) ∧
    (s.lifecycle ≠ .uninitialized → isConstruct i = true → exec i s = .next (answered s (.error .illegal)))

/-- An error writes nothing: when a command's response is an error, the state is the one before it, but for the response, the
environment's answers and, in a CONSTRUCT that gets no transport, at most one `Log`; no frame is sent (60_exceptions R156, R157;
20_memory R37). That the `Log` comes only with the debug flag set is ConstructWithoutPinsFails. -/
def Obligations.ErrorsWriteNothing : Prop :=
  ∀ (i : Instr) (s t : State) (e : Error), exec i s = .next t → t.responses = s.responses ++ [.error e] →
    t = answered { s with trace := t.trace, env := t.env } (.error e) ∧
    (t.trace = s.trace ∨ (isConstruct i = true ∧ e = .resource .pin ∧ t.trace = s.trace ++ [.log]))

/-- A command returns exactly one response, or waits for the hardware channel and has returned none (30_encoding R60; 41_transport
R98); a response never carries TransportError or the internal cause of ResourceError (60_exceptions R151, R155). -/
def Obligations.OneResponsePerCommand : Prop :=
  ∀ (i : Instr) (s t : State), isCommand i = true → exec i s = .next t →
    (∃ r, t.responses = s.responses ++ [r] ∧ r ≠ .error .transport ∧ r ≠ .error (.resource .channelUnavailable)) ∨
    (t.responses = s.responses ∧ t.inFlight ≠ none ∧ isHardwareTimed t.transport = true)

/-- Only the public setters and CONSTRUCT change `PIX`, only CONSTRUCT and SET_BRIGHTNESS change `BRIGHT`, and no command but CONSTRUCT
and SHUTDOWN changes `CFG`, `LIFECYCLE`, `TRANSPORT`, `HW_ACTIVE` or the pin owners (10_state R28, 42_strip_controller R128,
44_diagnostics R140). -/
def Obligations.OnlySettersWrite : Prop :=
  ∀ (i : Instr) (s t : State), exec i s = .next t →
    (writesPixels i = false → t.pix = s.pix) ∧ (writesBright i = false → t.bright = s.bright) ∧
    (isConstruct i = false → t.cfg = s.cfg ∧ t.hwVariant = s.hwVariant ∧
      (i ≠ .shutdown → t.lifecycle = s.lifecycle ∧ t.transport = s.transport ∧ t.hwActive = s.hwActive ∧
        t.dataOwner = s.dataOwner ∧ t.clockOwner = s.clockOwner))

/-! ### Diagnostics -/

/-- PIN_TOGGLE_TEST without an active channel: `TOGGLE_CYCLES` cycles of clock high, data high, delay, clock low, data low, delay, the
pins low afterwards, and a channel that was inactive is not activated (44_diagnostics R141; D24). -/
def Obligations.PinToggleWithoutChannel : Prop :=
  ∀ s : State, s.lifecycle = .active → suspends s = false →
    exec .pinToggleTest s = .next (answered { s with
      trace := s.trace ++ (List.replicate s.plat.toggleCycles (toggleEvents s.plat.toggleDelayMs.val)).flatten
      dataLevel := false
      clockLevel := false } (.ok .none))

/-- PIN_TOGGLE_TEST with an active channel: the same between `HwSuspend` and `HwResume`; a front of the queued bits goes out at the
suspension, the rest is lost, and `HW_ACTIVE` is 1 again afterwards (44_diagnostics R141, R142; D17, D24, log 13). -/
def Obligations.PinToggleWithChannel : Prop :=
  ∀ s : State, s.lifecycle = .active → suspends s = true →
    ∃ bits t, exec .pinToggleTest s = .next t ∧ bits <+: queuedBits s ∧
      t = answered { s with
        trace := s.trace ++ .hwSuspend :: bits.map .wireBit
          ++ (List.replicate s.plat.toggleCycles (toggleEvents s.plat.toggleDelayMs.val)).flatten ++ [.hwResume]
        hwActive := true
        hwq := []
        headSent := 0
        dataLevel := false
        clockLevel := false
        env := t.env } (.ok .none)

/-- PIN_DRIVE_CHECK without an active channel: the stages the environment supports, in their order, DATA then CLOCK, each with its
event and the level read back in the result; both pins outputs afterwards; no level is written. Where the environment's answers are
scripted, the result pairs the supported stages with the scripted levels (44_diagnostics R143; U6, U7, D24, log 10). -/
def Obligations.PinDriveCheckWithoutChannel : Prop :=
  ∀ s : State, s.lifecycle = .active → suspends s = false →
    exec .pinDriveCheck s = .next (answered { s with
      trace := s.trace ++ (checkedBy driveStages s.env).1.map (fun e => .pinMode e.1.1 e.1.2)
        ++ [.pinMode .data .output, .pinMode .clock .output]
      dataDir := .output
      clockDir := .output
      env := (checkedBy driveStages s.env).2 } (.ok (.checks (checkedBy driveStages s.env).1))) ∧
    ∀ supported levels restS restL : List Bool, s.env.modeSupported = supported ++ restS → supported.length = 8 →
      s.env.readBack = levels ++ restL → levels.length = supported.count true →
      checkedBy driveStages s.env = ((supportedStages supported).zip levels,
        { s.env with modeSupported := restS, readBack := restL })

/-- PIN_DRIVE_CHECK with an active channel: the same between `HwSuspend` and `HwResume`; a front of the queued bits goes out at the
suspension, the rest is lost; how many go out is drawn first, if any are queued. The levels are those the last of these bits leaves,
and the command itself writes neither (44_diagnostics R143, R142;
90_conflicts C11; D17, D24, log 10, log 12, log 13). -/
def Obligations.PinDriveCheckWithChannel : Prop :=
  ∀ s : State, s.lifecycle = .active → suspends s = true →
    ∃ (bits : List Bool) (e : Env), bits <+: queuedBits s ∧
      e = (if s.hwq = [] then s.env else (takeCutBits s.env).2) ∧
      exec .pinDriveCheck s = .next (answered { s with
        trace := s.trace ++ .hwSuspend :: bits.map .wireBit
          ++ (checkedBy driveStages e).1.map (fun e => .pinMode e.1.1 e.1.2)
          ++ [.pinMode .data .output, .pinMode .clock .output, .hwResume]
        hwActive := true
        hwq := []
        headSent := 0
        dataDir := .output
        clockDir := .output
        dataLevel := bits.getLastD s.dataLevel
        clockLevel := if bits = [] then s.clockLevel else false
        env := (checkedBy driveStages e).2 } (.ok (.checks (checkedBy driveStages e).1))) ∧
      ∀ supported levels restS restL : List Bool, s.env.modeSupported = supported ++ restS → supported.length = 8 →
        s.env.readBack = levels ++ restL → levels.length = supported.count true →
        checkedBy driveStages e = ((supportedStages supported).zip levels,
          { e with modeSupported := restS, readBack := restL })

/-- SHOW_TEST_PATTERN on the software-timed transport: the frame of the pattern (red, green, blue repeating on the first `min(6, N)`
pixels, the rest black), the hold, the frame of the old buffer; `PIX` is as before and everything else too, but the pins are low
(44_diagnostics R145; D25). -/
def Obligations.TestPatternSoftware : Prop :=
  ∀ (s : State) (d c : Nat), Inv s → s.lifecycle = .active → s.transport = .softwareTimed d c →
    ∃ p : PixelBuffer, p.colors.length = s.cfg.n ∧
      (∀ i : Nat, i < s.cfg.n → p.colors[i]? = some (if 6 ≤ i then ⟨0, 0, 0⟩ else if i % 3 = 0 then ⟨1, 0, 0⟩
        else if i % 3 = 1 then ⟨0, 1, 0⟩ else ⟨0, 0, 1⟩)) ∧
      exec .showTestPattern s = .next (answered { s with
        frame := encodeFrame s.pix s.bright
        trace := s.trace ++ frameEvents s.plat.bitDelayUs.val (encodeFrame p s.bright)
          ++ .delay (.hold s.plat.patternHold.val) :: frameEvents s.plat.bitDelayUs.val (encodeFrame s.pix s.bright)
        dataLevel := false
        clockLevel := false
        ser := none
        inFlight := none } (.ok .none))

/-- SHOW_TEST_PATTERN on the hardware-timed transport: the pattern (red, green, blue repeating on the first `min(6, N)` pixels, the
rest black) is written and its frame handed over, or the command waits in that frame with the old buffer held to be restored; when
the frame has gone, the hold, the old buffer restored, and its frame handed over or waited in. Where the environment accepts every
byte of both frames the command answers OK in that step (44_diagnostics R145, 41_transport R96, R98; D25; a wait as a next state,
log 11; the channel's chances to run, log 12). -/
def Obligations.TestPatternHardware : Prop :=
  ∀ (s : State) (h : Nat), s.lifecycle = .active → s.transport = .hardwareTimed h →
    ∃ (p : PixelBuffer) (t : State), p.colors.length = s.cfg.n ∧
      (∀ i : Nat, i < s.cfg.n → p.colors[i]? = some (if 6 ≤ i then ⟨0, 0, 0⟩ else if i % 3 = 0 then ⟨1, 0, 0⟩
        else if i % 3 = 1 then ⟨0, 1, 0⟩ else ⟨0, 0, 1⟩)) ∧
      exec .showTestPattern s = .next t ∧
      ((∃ k u, WaitsAt { s with pix := p, frame := encodeFrame p s.bright } u (encodeFrame p s.bright) 0 k ∧
          t = { u with inFlight := some (.restore s.pix) }) ∨
        (∃ u v, SentAll { s with pix := p, frame := encodeFrame p s.bright } u (encodeFrame p s.bright) ∧ HeldPattern u v ∧
          HardwareCommitted { v with pix := s.pix } t)) ∧
      (Accepts ((encodeFrame p s.bright).length + (encodeFrame s.pix s.bright).length)
          ((encodeFrame p s.bright).length + 1 + (encodeFrame s.pix s.bright).length) s →
        ∃ u v, SentAll { s with pix := p, frame := encodeFrame p s.bright } u (encodeFrame p s.bright) ∧ HeldPattern u v ∧
          HardwareSent { v with pix := s.pix } t)

/-- A waiting SHOW_TEST_PATTERN never loses its snapshot: after any step without a reset the snapshot is still held, or `PIX` is the
snapshot; and where the channel takes the rest of the first frame, `PIX` is the snapshot after that step and it is no longer held
(44_diagnostics R145: "restores the original snapshot exactly"; that the command waits across steps with the snapshot in `inFlight`
is the model's choice, log 11, DESIGN CHOICE). -/
def Obligations.SnapshotIsRestored : Prop :=
  ∀ (s t : State) (cs : PixelBuffer), s.resetReq = false → s.inFlight = some (.restore cs) → step s = .next t →
    (t.inFlight = some (.restore cs) ∨ t.pix = cs) ∧
    (∀ p, s.ser = some p → Accepts (s.frame.length - p.k) (s.frame.length - p.k) s →
      t.pix = cs ∧ t.inFlight ≠ some (.restore cs))
end

