-- ==== Sys2Proof/Laws/State.lean ====
section
/-! SUPPORT. What each named update does to each field of the state, one lemma per field and update. -/

namespace Sys2Proof.Machine

/-! ### The operations of a pixel buffer -/

@[simp] theorem PixelBuffer.replicate_colors (n : ℕ+) (c : Color) :
    (PixelBuffer.replicate n c).colors = List.replicate n c := rfl
@[simp] theorem PixelBuffer.set_colors (p : PixelBuffer) (i : Nat) (c : Color) : (p.set i c).colors = p.colors.set i c := rfl
@[simp] theorem testPattern_colors (n : ℕ+) :
    (testPattern n).colors = (List.range n).map (patternColor (min 6 n)) := rfl

/-- A buffer is its list of colours. -/
theorem PixelBuffer.ofList_colors (p : PixelBuffer) : PixelBuffer.ofList p.colors = some p := by
  obtain ⟨_ | _, h⟩ := p
  · exact absurd rfl h
  · rfl

/-- A list that is a buffer is its colours. -/
theorem PixelBuffer.colors_of_ofList {cs : List Color} {p : PixelBuffer} (h : PixelBuffer.ofList cs = some p) :
    p.colors = cs := by
  cases cs with
  | nil => cases h
  | cons c cs => cases h; rfl

/-! ### `respond` -/

@[simp] theorem respond_lifecycle (r : Response) (s : State) : (respond r s).lifecycle = s.lifecycle := rfl
@[simp] theorem respond_cfg (r : Response) (s : State) : (respond r s).cfg = s.cfg := rfl
@[simp] theorem respond_pix (r : Response) (s : State) : (respond r s).pix = s.pix := rfl
@[simp] theorem respond_bright (r : Response) (s : State) : (respond r s).bright = s.bright := rfl
@[simp] theorem respond_transport (r : Response) (s : State) : (respond r s).transport = s.transport := rfl
@[simp] theorem respond_hwActive (r : Response) (s : State) : (respond r s).hwActive = s.hwActive := rfl
@[simp] theorem respond_hwVariant (r : Response) (s : State) : (respond r s).hwVariant = s.hwVariant := rfl
@[simp] theorem respond_dataLevel (r : Response) (s : State) : (respond r s).dataLevel = s.dataLevel := rfl
@[simp] theorem respond_clockLevel (r : Response) (s : State) : (respond r s).clockLevel = s.clockLevel := rfl
@[simp] theorem respond_dataDir (r : Response) (s : State) : (respond r s).dataDir = s.dataDir := rfl
@[simp] theorem respond_clockDir (r : Response) (s : State) : (respond r s).clockDir = s.clockDir := rfl
@[simp] theorem respond_dataOwner (r : Response) (s : State) : (respond r s).dataOwner = s.dataOwner := rfl
@[simp] theorem respond_clockOwner (r : Response) (s : State) : (respond r s).clockOwner = s.clockOwner := rfl
@[simp] theorem respond_ser (r : Response) (s : State) : (respond r s).ser = s.ser := rfl
@[simp] theorem respond_frame (r : Response) (s : State) : (respond r s).frame = s.frame := rfl
@[simp] theorem respond_hwq (r : Response) (s : State) : (respond r s).hwq = s.hwq := rfl
@[simp] theorem respond_headSent (r : Response) (s : State) : (respond r s).headSent = s.headSent := rfl
@[simp] theorem respond_trace (r : Response) (s : State) : (respond r s).trace = s.trace := rfl
@[simp] theorem respond_responses (r : Response) (s : State) : (respond r s).responses = s.responses ++ [r] := rfl
@[simp] theorem respond_inFlight (r : Response) (s : State) : (respond r s).inFlight = s.inFlight := rfl
@[simp] theorem respond_encq (r : Response) (s : State) : (respond r s).encq = s.encq := rfl
@[simp] theorem respond_port (r : Response) (s : State) : (respond r s).port = s.port := rfl
@[simp] theorem respond_resetReq (r : Response) (s : State) : (respond r s).resetReq = s.resetReq := rfl
@[simp] theorem respond_plat (r : Response) (s : State) : (respond r s).plat = s.plat := rfl
@[simp] theorem respond_env (r : Response) (s : State) : (respond r s).env = s.env := rfl

/-! ### `raise` -/

@[simp] theorem raise_lifecycle (e : Error) (s : State) : (raise e s).lifecycle = s.lifecycle := rfl
@[simp] theorem raise_cfg (e : Error) (s : State) : (raise e s).cfg = s.cfg := rfl
@[simp] theorem raise_pix (e : Error) (s : State) : (raise e s).pix = s.pix := rfl
@[simp] theorem raise_bright (e : Error) (s : State) : (raise e s).bright = s.bright := rfl
@[simp] theorem raise_transport (e : Error) (s : State) : (raise e s).transport = s.transport := rfl
@[simp] theorem raise_hwActive (e : Error) (s : State) : (raise e s).hwActive = s.hwActive := rfl
@[simp] theorem raise_hwVariant (e : Error) (s : State) : (raise e s).hwVariant = s.hwVariant := rfl
@[simp] theorem raise_dataLevel (e : Error) (s : State) : (raise e s).dataLevel = s.dataLevel := rfl
@[simp] theorem raise_clockLevel (e : Error) (s : State) : (raise e s).clockLevel = s.clockLevel := rfl
@[simp] theorem raise_dataDir (e : Error) (s : State) : (raise e s).dataDir = s.dataDir := rfl
@[simp] theorem raise_clockDir (e : Error) (s : State) : (raise e s).clockDir = s.clockDir := rfl
@[simp] theorem raise_dataOwner (e : Error) (s : State) : (raise e s).dataOwner = s.dataOwner := rfl
@[simp] theorem raise_clockOwner (e : Error) (s : State) : (raise e s).clockOwner = s.clockOwner := rfl
@[simp] theorem raise_ser (e : Error) (s : State) : (raise e s).ser = s.ser := rfl
@[simp] theorem raise_frame (e : Error) (s : State) : (raise e s).frame = s.frame := rfl
@[simp] theorem raise_hwq (e : Error) (s : State) : (raise e s).hwq = s.hwq := rfl
@[simp] theorem raise_headSent (e : Error) (s : State) : (raise e s).headSent = s.headSent := rfl
@[simp] theorem raise_trace (e : Error) (s : State) : (raise e s).trace = s.trace := rfl
@[simp] theorem raise_responses (e : Error) (s : State) : (raise e s).responses = s.responses ++ [.error e] := rfl
@[simp] theorem raise_inFlight (e : Error) (s : State) : (raise e s).inFlight = s.inFlight := rfl
@[simp] theorem raise_encq (e : Error) (s : State) : (raise e s).encq = s.encq := rfl
@[simp] theorem raise_port (e : Error) (s : State) : (raise e s).port = s.port := rfl
@[simp] theorem raise_resetReq (e : Error) (s : State) : (raise e s).resetReq = s.resetReq := rfl
@[simp] theorem raise_plat (e : Error) (s : State) : (raise e s).plat = s.plat := rfl
@[simp] theorem raise_env (e : Error) (s : State) : (raise e s).env = s.env := rfl

/-! ### `emit` -/

@[simp] theorem emit_lifecycle (e : Event) (s : State) : (emit e s).lifecycle = s.lifecycle := rfl
@[simp] theorem emit_cfg (e : Event) (s : State) : (emit e s).cfg = s.cfg := rfl
@[simp] theorem emit_pix (e : Event) (s : State) : (emit e s).pix = s.pix := rfl
@[simp] theorem emit_bright (e : Event) (s : State) : (emit e s).bright = s.bright := rfl
@[simp] theorem emit_transport (e : Event) (s : State) : (emit e s).transport = s.transport := rfl
@[simp] theorem emit_hwActive (e : Event) (s : State) : (emit e s).hwActive = s.hwActive := rfl
@[simp] theorem emit_hwVariant (e : Event) (s : State) : (emit e s).hwVariant = s.hwVariant := rfl
@[simp] theorem emit_dataLevel (e : Event) (s : State) : (emit e s).dataLevel = s.dataLevel := rfl
@[simp] theorem emit_clockLevel (e : Event) (s : State) : (emit e s).clockLevel = s.clockLevel := rfl
@[simp] theorem emit_dataDir (e : Event) (s : State) : (emit e s).dataDir = s.dataDir := rfl
@[simp] theorem emit_clockDir (e : Event) (s : State) : (emit e s).clockDir = s.clockDir := rfl
@[simp] theorem emit_dataOwner (e : Event) (s : State) : (emit e s).dataOwner = s.dataOwner := rfl
@[simp] theorem emit_clockOwner (e : Event) (s : State) : (emit e s).clockOwner = s.clockOwner := rfl
@[simp] theorem emit_ser (e : Event) (s : State) : (emit e s).ser = s.ser := rfl
@[simp] theorem emit_frame (e : Event) (s : State) : (emit e s).frame = s.frame := rfl
@[simp] theorem emit_hwq (e : Event) (s : State) : (emit e s).hwq = s.hwq := rfl
@[simp] theorem emit_headSent (e : Event) (s : State) : (emit e s).headSent = s.headSent := rfl
@[simp] theorem emit_trace (e : Event) (s : State) : (emit e s).trace = s.trace ++ [e] := rfl
@[simp] theorem emit_responses (e : Event) (s : State) : (emit e s).responses = s.responses := rfl
@[simp] theorem emit_inFlight (e : Event) (s : State) : (emit e s).inFlight = s.inFlight := rfl
@[simp] theorem emit_encq (e : Event) (s : State) : (emit e s).encq = s.encq := rfl
@[simp] theorem emit_port (e : Event) (s : State) : (emit e s).port = s.port := rfl
@[simp] theorem emit_resetReq (e : Event) (s : State) : (emit e s).resetReq = s.resetReq := rfl
@[simp] theorem emit_plat (e : Event) (s : State) : (emit e s).plat = s.plat := rfl
@[simp] theorem emit_env (e : Event) (s : State) : (emit e s).env = s.env := rfl

/-! ### `writePixel` -/

@[simp] theorem writePixel_lifecycle (i : Nat) (c : Color) (s : State) : (writePixel i c s).lifecycle = s.lifecycle := rfl
@[simp] theorem writePixel_cfg (i : Nat) (c : Color) (s : State) : (writePixel i c s).cfg = s.cfg := rfl
@[simp] theorem writePixel_pix (i : Nat) (c : Color) (s : State) : (writePixel i c s).pix = s.pix.set i c := rfl
@[simp] theorem writePixel_bright (i : Nat) (c : Color) (s : State) : (writePixel i c s).bright = s.bright := rfl
@[simp] theorem writePixel_transport (i : Nat) (c : Color) (s : State) : (writePixel i c s).transport = s.transport := rfl
@[simp] theorem writePixel_hwActive (i : Nat) (c : Color) (s : State) : (writePixel i c s).hwActive = s.hwActive := rfl
@[simp] theorem writePixel_hwVariant (i : Nat) (c : Color) (s : State) : (writePixel i c s).hwVariant = s.hwVariant := rfl
@[simp] theorem writePixel_dataLevel (i : Nat) (c : Color) (s : State) : (writePixel i c s).dataLevel = s.dataLevel := rfl
@[simp] theorem writePixel_clockLevel (i : Nat) (c : Color) (s : State) : (writePixel i c s).clockLevel = s.clockLevel := rfl
@[simp] theorem writePixel_dataDir (i : Nat) (c : Color) (s : State) : (writePixel i c s).dataDir = s.dataDir := rfl
@[simp] theorem writePixel_clockDir (i : Nat) (c : Color) (s : State) : (writePixel i c s).clockDir = s.clockDir := rfl
@[simp] theorem writePixel_dataOwner (i : Nat) (c : Color) (s : State) : (writePixel i c s).dataOwner = s.dataOwner := rfl
@[simp] theorem writePixel_clockOwner (i : Nat) (c : Color) (s : State) : (writePixel i c s).clockOwner = s.clockOwner := rfl
@[simp] theorem writePixel_ser (i : Nat) (c : Color) (s : State) : (writePixel i c s).ser = s.ser := rfl
@[simp] theorem writePixel_frame (i : Nat) (c : Color) (s : State) : (writePixel i c s).frame = s.frame := rfl
@[simp] theorem writePixel_hwq (i : Nat) (c : Color) (s : State) : (writePixel i c s).hwq = s.hwq := rfl
@[simp] theorem writePixel_headSent (i : Nat) (c : Color) (s : State) : (writePixel i c s).headSent = s.headSent := rfl
@[simp] theorem writePixel_trace (i : Nat) (c : Color) (s : State) : (writePixel i c s).trace = s.trace := rfl
@[simp] theorem writePixel_responses (i : Nat) (c : Color) (s : State) : (writePixel i c s).responses = s.responses := rfl
@[simp] theorem writePixel_inFlight (i : Nat) (c : Color) (s : State) : (writePixel i c s).inFlight = s.inFlight := rfl
@[simp] theorem writePixel_encq (i : Nat) (c : Color) (s : State) : (writePixel i c s).encq = s.encq := rfl
@[simp] theorem writePixel_port (i : Nat) (c : Color) (s : State) : (writePixel i c s).port = s.port := rfl
@[simp] theorem writePixel_resetReq (i : Nat) (c : Color) (s : State) : (writePixel i c s).resetReq = s.resetReq := rfl
@[simp] theorem writePixel_plat (i : Nat) (c : Color) (s : State) : (writePixel i c s).plat = s.plat := rfl
@[simp] theorem writePixel_env (i : Nat) (c : Color) (s : State) : (writePixel i c s).env = s.env := rfl

/-! ### `writePixels` -/

@[simp] theorem writePixels_lifecycle (cs : PixelBuffer) (s : State) : (writePixels cs s).lifecycle = s.lifecycle := rfl
@[simp] theorem writePixels_cfg (cs : PixelBuffer) (s : State) : (writePixels cs s).cfg = s.cfg := rfl
@[simp] theorem writePixels_pix (cs : PixelBuffer) (s : State) : (writePixels cs s).pix = cs := rfl
@[simp] theorem writePixels_bright (cs : PixelBuffer) (s : State) : (writePixels cs s).bright = s.bright := rfl
@[simp] theorem writePixels_transport (cs : PixelBuffer) (s : State) : (writePixels cs s).transport = s.transport := rfl
@[simp] theorem writePixels_hwActive (cs : PixelBuffer) (s : State) : (writePixels cs s).hwActive = s.hwActive := rfl
@[simp] theorem writePixels_hwVariant (cs : PixelBuffer) (s : State) : (writePixels cs s).hwVariant = s.hwVariant := rfl
@[simp] theorem writePixels_dataLevel (cs : PixelBuffer) (s : State) : (writePixels cs s).dataLevel = s.dataLevel := rfl
@[simp] theorem writePixels_clockLevel (cs : PixelBuffer) (s : State) : (writePixels cs s).clockLevel = s.clockLevel := rfl
@[simp] theorem writePixels_dataDir (cs : PixelBuffer) (s : State) : (writePixels cs s).dataDir = s.dataDir := rfl
@[simp] theorem writePixels_clockDir (cs : PixelBuffer) (s : State) : (writePixels cs s).clockDir = s.clockDir := rfl
@[simp] theorem writePixels_dataOwner (cs : PixelBuffer) (s : State) : (writePixels cs s).dataOwner = s.dataOwner := rfl
@[simp] theorem writePixels_clockOwner (cs : PixelBuffer) (s : State) : (writePixels cs s).clockOwner = s.clockOwner := rfl
@[simp] theorem writePixels_ser (cs : PixelBuffer) (s : State) : (writePixels cs s).ser = s.ser := rfl
@[simp] theorem writePixels_frame (cs : PixelBuffer) (s : State) : (writePixels cs s).frame = s.frame := rfl
@[simp] theorem writePixels_hwq (cs : PixelBuffer) (s : State) : (writePixels cs s).hwq = s.hwq := rfl
@[simp] theorem writePixels_headSent (cs : PixelBuffer) (s : State) : (writePixels cs s).headSent = s.headSent := rfl
@[simp] theorem writePixels_trace (cs : PixelBuffer) (s : State) : (writePixels cs s).trace = s.trace := rfl
@[simp] theorem writePixels_responses (cs : PixelBuffer) (s : State) : (writePixels cs s).responses = s.responses := rfl
@[simp] theorem writePixels_inFlight (cs : PixelBuffer) (s : State) : (writePixels cs s).inFlight = s.inFlight := rfl
@[simp] theorem writePixels_encq (cs : PixelBuffer) (s : State) : (writePixels cs s).encq = s.encq := rfl
@[simp] theorem writePixels_port (cs : PixelBuffer) (s : State) : (writePixels cs s).port = s.port := rfl
@[simp] theorem writePixels_resetReq (cs : PixelBuffer) (s : State) : (writePixels cs s).resetReq = s.resetReq := rfl
@[simp] theorem writePixels_plat (cs : PixelBuffer) (s : State) : (writePixels cs s).plat = s.plat := rfl
@[simp] theorem writePixels_env (cs : PixelBuffer) (s : State) : (writePixels cs s).env = s.env := rfl

/-! ### `appendFrame` -/

@[simp] theorem appendFrame_lifecycle (bs : List Byte) (s : State) : (appendFrame bs s).lifecycle = s.lifecycle := rfl
@[simp] theorem appendFrame_cfg (bs : List Byte) (s : State) : (appendFrame bs s).cfg = s.cfg := rfl
@[simp] theorem appendFrame_pix (bs : List Byte) (s : State) : (appendFrame bs s).pix = s.pix := rfl
@[simp] theorem appendFrame_bright (bs : List Byte) (s : State) : (appendFrame bs s).bright = s.bright := rfl
@[simp] theorem appendFrame_transport (bs : List Byte) (s : State) : (appendFrame bs s).transport = s.transport := rfl
@[simp] theorem appendFrame_hwActive (bs : List Byte) (s : State) : (appendFrame bs s).hwActive = s.hwActive := rfl
@[simp] theorem appendFrame_hwVariant (bs : List Byte) (s : State) : (appendFrame bs s).hwVariant = s.hwVariant := rfl
@[simp] theorem appendFrame_dataLevel (bs : List Byte) (s : State) : (appendFrame bs s).dataLevel = s.dataLevel := rfl
@[simp] theorem appendFrame_clockLevel (bs : List Byte) (s : State) : (appendFrame bs s).clockLevel = s.clockLevel := rfl
@[simp] theorem appendFrame_dataDir (bs : List Byte) (s : State) : (appendFrame bs s).dataDir = s.dataDir := rfl
@[simp] theorem appendFrame_clockDir (bs : List Byte) (s : State) : (appendFrame bs s).clockDir = s.clockDir := rfl
@[simp] theorem appendFrame_dataOwner (bs : List Byte) (s : State) : (appendFrame bs s).dataOwner = s.dataOwner := rfl
@[simp] theorem appendFrame_clockOwner (bs : List Byte) (s : State) : (appendFrame bs s).clockOwner = s.clockOwner := rfl
@[simp] theorem appendFrame_ser (bs : List Byte) (s : State) : (appendFrame bs s).ser = s.ser := rfl
@[simp] theorem appendFrame_frame (bs : List Byte) (s : State) : (appendFrame bs s).frame = s.frame ++ bs := rfl
@[simp] theorem appendFrame_hwq (bs : List Byte) (s : State) : (appendFrame bs s).hwq = s.hwq := rfl
@[simp] theorem appendFrame_headSent (bs : List Byte) (s : State) : (appendFrame bs s).headSent = s.headSent := rfl
@[simp] theorem appendFrame_trace (bs : List Byte) (s : State) : (appendFrame bs s).trace = s.trace := rfl
@[simp] theorem appendFrame_responses (bs : List Byte) (s : State) : (appendFrame bs s).responses = s.responses := rfl
@[simp] theorem appendFrame_inFlight (bs : List Byte) (s : State) : (appendFrame bs s).inFlight = s.inFlight := rfl
@[simp] theorem appendFrame_encq (bs : List Byte) (s : State) : (appendFrame bs s).encq = s.encq := rfl
@[simp] theorem appendFrame_port (bs : List Byte) (s : State) : (appendFrame bs s).port = s.port := rfl
@[simp] theorem appendFrame_resetReq (bs : List Byte) (s : State) : (appendFrame bs s).resetReq = s.resetReq := rfl
@[simp] theorem appendFrame_plat (bs : List Byte) (s : State) : (appendFrame bs s).plat = s.plat := rfl
@[simp] theorem appendFrame_env (bs : List Byte) (s : State) : (appendFrame bs s).env = s.env := rfl

/-! ### `assembleFrame` -/

@[simp] theorem assembleFrame_lifecycle (s : State) : (assembleFrame s).lifecycle = s.lifecycle := rfl
@[simp] theorem assembleFrame_cfg (s : State) : (assembleFrame s).cfg = s.cfg := rfl
@[simp] theorem assembleFrame_pix (s : State) : (assembleFrame s).pix = s.pix := rfl
@[simp] theorem assembleFrame_bright (s : State) : (assembleFrame s).bright = s.bright := rfl
@[simp] theorem assembleFrame_transport (s : State) : (assembleFrame s).transport = s.transport := rfl
@[simp] theorem assembleFrame_hwActive (s : State) : (assembleFrame s).hwActive = s.hwActive := rfl
@[simp] theorem assembleFrame_hwVariant (s : State) : (assembleFrame s).hwVariant = s.hwVariant := rfl
@[simp] theorem assembleFrame_dataLevel (s : State) : (assembleFrame s).dataLevel = s.dataLevel := rfl
@[simp] theorem assembleFrame_clockLevel (s : State) : (assembleFrame s).clockLevel = s.clockLevel := rfl
@[simp] theorem assembleFrame_dataDir (s : State) : (assembleFrame s).dataDir = s.dataDir := rfl
@[simp] theorem assembleFrame_clockDir (s : State) : (assembleFrame s).clockDir = s.clockDir := rfl
@[simp] theorem assembleFrame_dataOwner (s : State) : (assembleFrame s).dataOwner = s.dataOwner := rfl
@[simp] theorem assembleFrame_clockOwner (s : State) : (assembleFrame s).clockOwner = s.clockOwner := rfl
@[simp] theorem assembleFrame_ser (s : State) : (assembleFrame s).ser = s.ser := rfl
@[simp] theorem assembleFrame_frame (s : State) : (assembleFrame s).frame = encodeFrame s.pix s.bright := rfl
@[simp] theorem assembleFrame_hwq (s : State) : (assembleFrame s).hwq = s.hwq := rfl
@[simp] theorem assembleFrame_headSent (s : State) : (assembleFrame s).headSent = s.headSent := rfl
@[simp] theorem assembleFrame_trace (s : State) : (assembleFrame s).trace = s.trace := rfl
@[simp] theorem assembleFrame_responses (s : State) : (assembleFrame s).responses = s.responses := rfl
@[simp] theorem assembleFrame_inFlight (s : State) : (assembleFrame s).inFlight = s.inFlight := rfl
@[simp] theorem assembleFrame_encq (s : State) : (assembleFrame s).encq = s.encq := rfl
@[simp] theorem assembleFrame_port (s : State) : (assembleFrame s).port = s.port := rfl
@[simp] theorem assembleFrame_resetReq (s : State) : (assembleFrame s).resetReq = s.resetReq := rfl
@[simp] theorem assembleFrame_plat (s : State) : (assembleFrame s).plat = s.plat := rfl
@[simp] theorem assembleFrame_env (s : State) : (assembleFrame s).env = s.env := rfl

/-! ### `setPinOwners` -/

@[simp] theorem setPinOwners_lifecycle (o : PinOwner) (s : State) : (setPinOwners o s).lifecycle = s.lifecycle := rfl
@[simp] theorem setPinOwners_cfg (o : PinOwner) (s : State) : (setPinOwners o s).cfg = s.cfg := rfl
@[simp] theorem setPinOwners_pix (o : PinOwner) (s : State) : (setPinOwners o s).pix = s.pix := rfl
@[simp] theorem setPinOwners_bright (o : PinOwner) (s : State) : (setPinOwners o s).bright = s.bright := rfl
@[simp] theorem setPinOwners_transport (o : PinOwner) (s : State) : (setPinOwners o s).transport = s.transport := rfl
@[simp] theorem setPinOwners_hwActive (o : PinOwner) (s : State) : (setPinOwners o s).hwActive = s.hwActive := rfl
@[simp] theorem setPinOwners_hwVariant (o : PinOwner) (s : State) : (setPinOwners o s).hwVariant = s.hwVariant := rfl
@[simp] theorem setPinOwners_dataLevel (o : PinOwner) (s : State) : (setPinOwners o s).dataLevel = s.dataLevel := rfl
@[simp] theorem setPinOwners_clockLevel (o : PinOwner) (s : State) : (setPinOwners o s).clockLevel = s.clockLevel := rfl
@[simp] theorem setPinOwners_dataDir (o : PinOwner) (s : State) : (setPinOwners o s).dataDir = s.dataDir := rfl
@[simp] theorem setPinOwners_clockDir (o : PinOwner) (s : State) : (setPinOwners o s).clockDir = s.clockDir := rfl
@[simp] theorem setPinOwners_dataOwner (o : PinOwner) (s : State) : (setPinOwners o s).dataOwner = o := rfl
@[simp] theorem setPinOwners_clockOwner (o : PinOwner) (s : State) : (setPinOwners o s).clockOwner = o := rfl
@[simp] theorem setPinOwners_ser (o : PinOwner) (s : State) : (setPinOwners o s).ser = s.ser := rfl
@[simp] theorem setPinOwners_frame (o : PinOwner) (s : State) : (setPinOwners o s).frame = s.frame := rfl
@[simp] theorem setPinOwners_hwq (o : PinOwner) (s : State) : (setPinOwners o s).hwq = s.hwq := rfl
@[simp] theorem setPinOwners_headSent (o : PinOwner) (s : State) : (setPinOwners o s).headSent = s.headSent := rfl
@[simp] theorem setPinOwners_trace (o : PinOwner) (s : State) : (setPinOwners o s).trace = s.trace := rfl
@[simp] theorem setPinOwners_responses (o : PinOwner) (s : State) : (setPinOwners o s).responses = s.responses := rfl
@[simp] theorem setPinOwners_inFlight (o : PinOwner) (s : State) : (setPinOwners o s).inFlight = s.inFlight := rfl
@[simp] theorem setPinOwners_encq (o : PinOwner) (s : State) : (setPinOwners o s).encq = s.encq := rfl
@[simp] theorem setPinOwners_port (o : PinOwner) (s : State) : (setPinOwners o s).port = s.port := rfl
@[simp] theorem setPinOwners_resetReq (o : PinOwner) (s : State) : (setPinOwners o s).resetReq = s.resetReq := rfl
@[simp] theorem setPinOwners_plat (o : PinOwner) (s : State) : (setPinOwners o s).plat = s.plat := rfl
@[simp] theorem setPinOwners_env (o : PinOwner) (s : State) : (setPinOwners o s).env = s.env := rfl

/-! ### `wireBit` -/

@[simp] theorem wireBit_lifecycle (v : Bool) (s : State) : (wireBit v s).lifecycle = s.lifecycle := rfl
@[simp] theorem wireBit_cfg (v : Bool) (s : State) : (wireBit v s).cfg = s.cfg := rfl
@[simp] theorem wireBit_pix (v : Bool) (s : State) : (wireBit v s).pix = s.pix := rfl
@[simp] theorem wireBit_bright (v : Bool) (s : State) : (wireBit v s).bright = s.bright := rfl
@[simp] theorem wireBit_transport (v : Bool) (s : State) : (wireBit v s).transport = s.transport := rfl
@[simp] theorem wireBit_hwActive (v : Bool) (s : State) : (wireBit v s).hwActive = s.hwActive := rfl
@[simp] theorem wireBit_hwVariant (v : Bool) (s : State) : (wireBit v s).hwVariant = s.hwVariant := rfl
@[simp] theorem wireBit_dataLevel (v : Bool) (s : State) : (wireBit v s).dataLevel = v := rfl
@[simp] theorem wireBit_clockLevel (v : Bool) (s : State) : (wireBit v s).clockLevel = false := rfl
@[simp] theorem wireBit_dataDir (v : Bool) (s : State) : (wireBit v s).dataDir = s.dataDir := rfl
@[simp] theorem wireBit_clockDir (v : Bool) (s : State) : (wireBit v s).clockDir = s.clockDir := rfl
@[simp] theorem wireBit_dataOwner (v : Bool) (s : State) : (wireBit v s).dataOwner = s.dataOwner := rfl
@[simp] theorem wireBit_clockOwner (v : Bool) (s : State) : (wireBit v s).clockOwner = s.clockOwner := rfl
@[simp] theorem wireBit_ser (v : Bool) (s : State) : (wireBit v s).ser = s.ser := rfl
@[simp] theorem wireBit_frame (v : Bool) (s : State) : (wireBit v s).frame = s.frame := rfl
@[simp] theorem wireBit_hwq (v : Bool) (s : State) : (wireBit v s).hwq = s.hwq := rfl
@[simp] theorem wireBit_headSent (v : Bool) (s : State) : (wireBit v s).headSent = s.headSent := rfl
@[simp] theorem wireBit_trace (v : Bool) (s : State) : (wireBit v s).trace = s.trace ++ [.wireBit v] := rfl
@[simp] theorem wireBit_responses (v : Bool) (s : State) : (wireBit v s).responses = s.responses := rfl
@[simp] theorem wireBit_inFlight (v : Bool) (s : State) : (wireBit v s).inFlight = s.inFlight := rfl
@[simp] theorem wireBit_encq (v : Bool) (s : State) : (wireBit v s).encq = s.encq := rfl
@[simp] theorem wireBit_port (v : Bool) (s : State) : (wireBit v s).port = s.port := rfl
@[simp] theorem wireBit_resetReq (v : Bool) (s : State) : (wireBit v s).resetReq = s.resetReq := rfl
@[simp] theorem wireBit_plat (v : Bool) (s : State) : (wireBit v s).plat = s.plat := rfl
@[simp] theorem wireBit_env (v : Bool) (s : State) : (wireBit v s).env = s.env := rfl

/-! ### `hwWrite` -/

@[simp] theorem hwWrite_lifecycle (b : Byte) (s : State) : (hwWrite b s).lifecycle = s.lifecycle := rfl
@[simp] theorem hwWrite_cfg (b : Byte) (s : State) : (hwWrite b s).cfg = s.cfg := rfl
@[simp] theorem hwWrite_pix (b : Byte) (s : State) : (hwWrite b s).pix = s.pix := rfl
@[simp] theorem hwWrite_bright (b : Byte) (s : State) : (hwWrite b s).bright = s.bright := rfl
@[simp] theorem hwWrite_transport (b : Byte) (s : State) : (hwWrite b s).transport = s.transport := rfl
@[simp] theorem hwWrite_hwActive (b : Byte) (s : State) : (hwWrite b s).hwActive = s.hwActive := rfl
@[simp] theorem hwWrite_hwVariant (b : Byte) (s : State) : (hwWrite b s).hwVariant = s.hwVariant := rfl
@[simp] theorem hwWrite_dataLevel (b : Byte) (s : State) : (hwWrite b s).dataLevel = s.dataLevel := rfl
@[simp] theorem hwWrite_clockLevel (b : Byte) (s : State) : (hwWrite b s).clockLevel = s.clockLevel := rfl
@[simp] theorem hwWrite_dataDir (b : Byte) (s : State) : (hwWrite b s).dataDir = s.dataDir := rfl
@[simp] theorem hwWrite_clockDir (b : Byte) (s : State) : (hwWrite b s).clockDir = s.clockDir := rfl
@[simp] theorem hwWrite_dataOwner (b : Byte) (s : State) : (hwWrite b s).dataOwner = s.dataOwner := rfl
@[simp] theorem hwWrite_clockOwner (b : Byte) (s : State) : (hwWrite b s).clockOwner = s.clockOwner := rfl
@[simp] theorem hwWrite_ser (b : Byte) (s : State) : (hwWrite b s).ser = s.ser := rfl
@[simp] theorem hwWrite_frame (b : Byte) (s : State) : (hwWrite b s).frame = s.frame := rfl
@[simp] theorem hwWrite_hwq (b : Byte) (s : State) : (hwWrite b s).hwq = s.hwq ++ [b] := rfl
@[simp] theorem hwWrite_headSent (b : Byte) (s : State) : (hwWrite b s).headSent = if s.hwq.isEmpty then 0 else s.headSent := rfl
@[simp] theorem hwWrite_trace (b : Byte) (s : State) : (hwWrite b s).trace = s.trace ++ [.hwWrite b] := rfl
@[simp] theorem hwWrite_responses (b : Byte) (s : State) : (hwWrite b s).responses = s.responses := rfl
@[simp] theorem hwWrite_inFlight (b : Byte) (s : State) : (hwWrite b s).inFlight = s.inFlight := rfl
@[simp] theorem hwWrite_encq (b : Byte) (s : State) : (hwWrite b s).encq = s.encq := rfl
@[simp] theorem hwWrite_port (b : Byte) (s : State) : (hwWrite b s).port = s.port := rfl
@[simp] theorem hwWrite_resetReq (b : Byte) (s : State) : (hwWrite b s).resetReq = s.resetReq := rfl
@[simp] theorem hwWrite_plat (b : Byte) (s : State) : (hwWrite b s).plat = s.plat := rfl
@[simp] theorem hwWrite_env (b : Byte) (s : State) : (hwWrite b s).env = s.env := rfl

end Sys2Proof.Machine
end

