-- ==== Sys2Proof/Laws/Channel.lean ====
section
/-! SUPPORT. What the hardware channel and the hardware-timed TRANSMIT can do, said once (41_transport R96, R97, R106). -/

namespace Sys2Proof.Machine

theorem byteBits_length (b : Byte) : (byteBits b).length = 8 := rfl

theorem frameBits_append (f g : List Byte) : frameBits (f ++ g) = frameBits f ++ frameBits g := by
  simp [frameBits]

theorem frameBits_cons (b : Byte) (f : List Byte) : frameBits (b :: f) = byteBits b ++ frameBits f := rfl

theorem frameBits_length (f : List Byte) : (frameBits f).length = 8 * f.length := by
  induction f with
  | nil => rfl
  | cons b f ih => rw [frameBits_cons, List.length_append, byteBits_length, ih, List.length_cons]; omega

/-- The next bit of a byte of which `k` bits are out, and the bits after it. -/
theorem byteBits_drop (b : Byte) (k : Fin 8) (h : k ≠ 7) :
    (byteBits b).drop k = b.getLsbD (7 - k.val) :: (byteBits b).drop (k + 1).val := by
  revert h
  fin_cases k <;> simp [byteBits]

/-- The queued bits of a queue that is not empty: the rest of its head, and the bytes behind. -/
theorem queuedBits_cons {s : State} {b : Byte} {q : List Byte} (h : s.hwq = b :: q) :
    queuedBits s = (byteBits b).drop s.headSent ++ frameBits q := by
  have : s.headSent.val - (byteBits b).length = 0 := by rw [byteBits_length]; omega
  rw [queuedBits, h, frameBits_cons, List.drop_append, this, List.drop_zero]

theorem queuedBits_empty {s : State} (h : s.hwq = []) : queuedBits s = [] := by
  simp [queuedBits, h, frameBits]

/-- No bit is queued exactly when the queue is empty (10_state R23). -/
theorem queuedBits_eq_nil {s : State} : queuedBits s = [] ↔ s.hwq = [] := by
  rw [queuedBits, List.drop_eq_nil_iff, frameBits_length]
  constructor
  · intro h
    exact List.length_eq_zero_iff.mp (by omega)
  · intro h
    simp [h]

/-- `t` is `s` after the channel alone has acted: it has put out `bits`, the front of what was queued, and the levels are those the
last of them leaves. -/
def ChannelRan (s t : State) (bits : List Bool) : Prop :=
  t = { s with trace := s.trace ++ bits.map .wireBit, hwq := t.hwq, headSent := t.headSent,
               dataLevel := bits.getLast?.getD s.dataLevel, clockLevel := s.clockLevel && bits.isEmpty, env := t.env } ∧
  bits ++ queuedBits t = queuedBits s ∧ ((s.hwq = [] → s.headSent = 0) → t.hwq = [] → t.headSent = 0) ∧
  t.hwq.length ≤ s.hwq.length

theorem ChannelRan.refl (s : State) : ChannelRan s s [] := by
  simp [ChannelRan]

theorem ChannelRan.env (s : State) (e : Env) : ChannelRan s { s with env := e } [] := by
  simp [ChannelRan, queuedBits]

theorem ChannelRan.comp {s t u : State} {as bs : List Bool} (h : ChannelRan s t as) (g : ChannelRan t u bs) :
    ChannelRan s u (as ++ bs) := by
  obtain ⟨h1, h2, h3, h4⟩ := h
  obtain ⟨g1, g2, g3, g4⟩ := g
  refine ⟨?_, by rw [List.append_assoc, g2, h2], fun x => g3 (h3 x), by omega⟩
  have e1 : (as ++ bs).getLast?.getD s.dataLevel = bs.getLast?.getD (as.getLast?.getD s.dataLevel) := by
    rw [List.getLast?_append]
    cases bs.getLast? <;> simp
  have e2 : (s.clockLevel && (as ++ bs).isEmpty) = ((s.clockLevel && as.isEmpty) && bs.isEmpty) := by
    cases as <;> simp
  rw [g1, h1, e1, e2]
  simp

/-- A low clock stays low while the channel runs. -/
theorem ChannelRan.low {s t : State} {bits : List Bool} (h : ChannelRan s t bits) (hc : s.clockLevel = false) :
    t.clockLevel = false := by
  rw [h.1]
  simp [hc]

/-- One bit of the channel. -/
theorem serveBit_ran (s : State) : ChannelRan s (serveBit s) ((queuedBits s).take 1) := by
  unfold serveBit
  split
  case h_1 h => rw [queuedBits_empty h]; exact ChannelRan.refl s
  case h_2 b q h =>
    rw [queuedBits_cons h]
    by_cases h7 : s.headSent = 7
    · have hq : queuedBits (wireBit (b.getLsbD (7 - s.headSent.val))
          { s with hwq := if s.headSent = 7 then q else b :: q, headSent := s.headSent + 1 }) = frameBits q := by
        simp [queuedBits, wireBit, emit, h7]
      have hb : (byteBits b).drop s.headSent ++ frameBits q = b.getLsbD (7 - s.headSent.val) :: frameBits q := by
        rw [h7]; rfl
      refine ⟨?_, ?_, ?_, ?_⟩
      · simp [hb, wireBit, emit]
      · rw [hq, hb, queuedBits_cons h, hb]; rfl
      · simp [h7]
      · simp [h7, h]
    · have hb := byteBits_drop b s.headSent h7
      have hq : queuedBits (wireBit (b.getLsbD (7 - s.headSent.val))
          { s with hwq := if s.headSent = 7 then q else b :: q, headSent := s.headSent + 1 })
          = (byteBits b).drop (s.headSent + 1).val ++ frameBits q := by
        rw [queuedBits_cons (b := b) (q := q) (by simp [h7])]
        rfl
      refine ⟨?_, ?_, ?_, ?_⟩
      · simp [hb, wireBit, emit]
      · rw [hq, queuedBits_cons h, hb]; simp
      · simp [h7]
      · simp [h7, h]

/-- `k` bits of the channel: the first `k` queued bits, all of them if they are fewer. -/
theorem serveBits_ran (k : Nat) (s : State) : ChannelRan s (serveBits k s) ((queuedBits s).take k) := by
  induction k generalizing s with
  | zero => exact ChannelRan.refl s
  | succ k ih =>
    have h := serveBit_ran s
    have hd : queuedBits (serveBit s) = (queuedBits s).drop 1 := by
      have e := h.2.1
      nth_rw 2 [← List.take_append_drop 1 (queuedBits s)] at e
      exact List.append_cancel_left e
    have g := h.comp (ih (serveBit s))
    rw [hd, ← List.take_add, Nat.add_comm] at g
    exact g

/-- The bytes still queued after `k` bits: those not finished. -/
theorem serveBits_hwq (k : Nat) (s : State) : (serveBits k s).hwq = s.hwq.drop ((s.headSent + k) / 8) := by
  induction k generalizing s with
  | zero =>
    rw [show (s.headSent.val + 0) / 8 = 0 by omega]
    rfl
  | succ k ih =>
    rw [serveBits, ih]
    unfold serveBit
    split
    case h_1 h => simp [h]
    case h_2 b q h =>
      by_cases h7 : s.headSent = 7
      · simp only [wireBit_hwq, wireBit_headSent, h7, if_true, h]
        rw [show ((7 : Fin 8) + 1).val = 0 from rfl, show ((7 : Fin 8).val + (k + 1)) / 8 = (0 + k) / 8 + 1 by
          show (7 + (k + 1)) / 8 = _; omega, List.drop_succ_cons]
      · have h1 : (s.headSent + 1).val = s.headSent.val + 1 := by
          rw [Fin.val_add_one_of_lt]
          exact lt_of_le_of_ne (Fin.le_last _) h7
        simp only [wireBit_hwq, wireBit_headSent, h7, if_false, h]
        rw [h1, Nat.add_assoc, Nat.add_comm 1 k]

theorem serveBits_env (k : Nat) (s : State) : (serveBits k s).env = s.env := by
  induction k generalizing s with
  | zero => rfl
  | succ k ih =>
    rw [serveBits, ih]
    unfold serveBit
    split <;> rfl

/-- Whatever the channel does when it may run. -/
theorem channelRun_ran (s : State) : ∃ bits, ChannelRan s (channelRun s) bits := by
  unfold channelRun
  split
  · exact ⟨_, (ChannelRan.env s _).comp (serveBits_ran _ _)⟩
  · exact ⟨[], ChannelRan.refl s⟩

theorem channelRun_inactive {s : State} (h : s.hwActive = false) : channelRun s = s := by
  simp [channelRun, h]

theorem channelRun_empty {s : State} (h : s.hwq = []) : channelRun s = s := by
  simp [channelRun, hasQueued, h]

theorem hasQueued_false {s : State} (h : hasQueued s = false) : s.hwq = [] := by
  simpa [hasQueued] using h

/-- The channel is deactivated: a front of the queued bits goes out, the queue is empty afterwards. -/
theorem cutQueue_ran (s : State) :
    ∃ bits t, ChannelRan s t bits ∧ cutQueue s = { t with hwq := [], headSent := 0 } ∧
      t.env = if s.hwq = [] then s.env else (takeCutBits s.env).2 := by
  unfold cutQueue surviveCut
  split
  · next h =>
    refine ⟨_, _, (ChannelRan.env s _).comp (serveBits_ran (takeCutBits s.env).1 _), rfl, ?_⟩
    rw [serveBits_env, if_neg (by simpa [hasQueued] using h)]
    rfl
  · next h => exact ⟨[], s, ChannelRan.refl s, rfl, by rw [if_pos (hasQueued_false (by simpa using h))]⟩

theorem wireBitsFrom_wireBits (bits : List Bool) (clk dat : Bool) : wireBitsFrom clk dat (bits.map .wireBit) = bits := by
  induction bits generalizing clk dat with
  | nil => rfl
  | cons v bits ih => simp [wireBitsFrom, ih]

theorem wireBitsFrom_wireBits_append (bits : List Bool) (clk dat : Bool) (es : List Event) :
    ∃ c d, wireBitsFrom clk dat (bits.map .wireBit ++ es) = bits ++ wireBitsFrom c d es := by
  induction bits generalizing clk dat with
  | nil => exact ⟨clk, dat, rfl⟩
  | cons v bits ih =>
    obtain ⟨c, d, h⟩ := ih false v
    exact ⟨c, d, by simp [wireBitsFrom, h]⟩

/-- Events of the hardware-timed transport: bytes handed over and bits put out. -/
def isHardwareEvent : Event → Bool
  | .hwWrite _ => true
  | .wireBit _ => true
  | _ => false

theorem wireBitsFrom_hardware (es : List Event) (h : ∀ e ∈ es, isHardwareEvent e = true) (c d c' d' : Bool) :
    wireBitsFrom c d es = wireBitsFrom c' d' es := by
  induction es generalizing c d c' d' with
  | nil => rfl
  | cons e es ih =>
    have ht : ∀ e ∈ es, isHardwareEvent e = true := fun x hx => h x (List.mem_cons_of_mem _ hx)
    have he := h e (List.mem_cons_self ..)
    cases e <;> simp [isHardwareEvent] at he <;> simp [wireBitsFrom]
    · exact ih ht ..

theorem wireBitsFrom_hardware_append (es fs : List Event) (h : ∀ e ∈ es, isHardwareEvent e = true)
    (hf : ∀ e ∈ fs, isHardwareEvent e = true) (c d : Bool) :
    wireBitsFrom c d (es ++ fs) = wireBitsFrom c d es ++ wireBitsFrom c d fs := by
  induction es generalizing c d with
  | nil => rfl
  | cons e es ih =>
    have ht : ∀ e ∈ es, isHardwareEvent e = true := fun x hx => h x (List.mem_cons_of_mem _ hx)
    have he := h e (List.mem_cons_self ..)
    cases e <;> simp [isHardwareEvent] at he <;> simp [wireBitsFrom, ih ht]
    · exact wireBitsFrom_hardware fs hf ..

/-- `HandedOver` with what the invariant needs of the channel's registers. -/
structure Handed (s t : State) (f : List Byte) : Prop where
  moved : ∃ ev, (∀ e ∈ ev, isHardwareEvent e = true) ∧ t.trace = s.trace ++ ev ∧
    ev.filter isControllerEvent = f.map Event.hwWrite ∧
    wireBitsFrom false false ev ++ queuedBits t = queuedBits s ++ frameBits f
  frame : t = { s with trace := t.trace, hwq := t.hwq, headSent := t.headSent, dataLevel := t.dataLevel,
                       clockLevel := t.clockLevel, env := t.env, ser := t.ser }
  shifting : (s.hwq = [] → s.headSent = 0) → t.hwq = [] → t.headSent = 0
  depth : ∀ d : ℕ+, s.plat.hwqDepth = some d → s.hwq.length ≤ d → t.hwq.length ≤ d

theorem Handed.handedOver {s t : State} {f : List Byte} (h : Handed s t f) : HandedOver s t f := by
  obtain ⟨ev, he, ht, hc, hw⟩ := h.moved
  exact ⟨ev, ht, hc, by rw [wireBitsFrom_hardware ev he _ _ false false]; exact hw, h.frame⟩

theorem Handed.refl (s : State) (p : Option SerPos) : Handed s { s with ser := p } [] where
  moved := ⟨[], by simp [wireBitsFrom, frameBits, queuedBits]⟩
  frame := rfl
  shifting := id
  depth _ _ h := h

theorem ChannelRan.handed {s t : State} {bits : List Bool} (h : ChannelRan s t bits) : Handed s t [] where
  moved := by
    refine ⟨bits.map .wireBit, ?_, ?_, ?_, ?_⟩
    · intro e he
      obtain ⟨v, -, rfl⟩ := List.mem_map.mp he
      rfl
    · rw [h.1]
    · rw [List.filter_eq_nil_iff.mpr]
      · rfl
      · intro e he
        obtain ⟨v, -, rfl⟩ := List.mem_map.mp he
        simp [isControllerEvent]
    · rw [wireBitsFrom_wireBits, h.2.1]; simp [frameBits]
  frame := by rw [h.1]
  shifting := h.2.2.1
  depth _ _ hd := Nat.le_trans h.2.2.2 hd

theorem Handed.comp {s t u : State} {f g : List Byte} (h : Handed s t f) (k : Handed t u g) : Handed s u (f ++ g) where
  moved := by
    obtain ⟨ev, he, ht, hc, hw⟩ := h.moved
    obtain ⟨ev', he', ht', hc', hw'⟩ := k.moved
    refine ⟨ev ++ ev', ?_, ?_, ?_, ?_⟩
    · intro e hm
      rcases List.mem_append.mp hm with hm | hm
      · exact he e hm
      · exact he' e hm
    · rw [ht', ht, List.append_assoc]
    · rw [List.filter_append, hc, hc', List.map_append]
    · rw [wireBitsFrom_hardware_append ev ev' he he', List.append_assoc, hw', ← List.append_assoc, hw, frameBits_append,
        List.append_assoc]
  frame := by rw [k.frame, h.frame]
  shifting x := k.shifting (h.shifting x)
  depth d hd hq := k.depth d (by rw [h.frame]; exact hd) (h.depth d hd hq)

theorem queuedBits_hwWrite (b : Byte) (s : State) : queuedBits (hwWrite b s) = queuedBits s ++ byteBits b := by
  cases h : s.hwq with
  | nil => rw [queuedBits_empty h, queuedBits_cons (b := b) (q := []) (by simp [h])]; simp [h, frameBits]
  | cons c q =>
    rw [queuedBits_cons h, queuedBits_cons (b := c) (q := q ++ [b]) (by simp [h])]
    simp [h, frameBits]

theorem Handed.write {s : State} (b : Byte) (h : hasRoom s = true) : Handed s (hwWrite b s) [b] where
  moved := ⟨[.hwWrite b], by
    simp [isHardwareEvent, isControllerEvent, wireBitsFrom, queuedBits_hwWrite, frameBits]⟩
  frame := rfl
  shifting _ h := by simp at h
  depth d hd _ := by
    simp [hasRoom, hd] at h
    simp; omega

/-- The queue has no room exactly when it is as deep as `HWQ_DEPTH`. -/
theorem hasRoom_false {s : State} : hasRoom s = false ↔ ∃ d : ℕ+, s.plat.hwqDepth = some d ∧ (d : Nat) ≤ s.hwq.length := by
  unfold hasRoom
  cases s.plat.hwqDepth <;> simp

/-- The channel's chance to run draws nothing but the number of bits. -/
theorem channelRun_hwReady (s : State) : (channelRun s).env.hwReady = s.env.hwReady := by
  unfold channelRun
  split
  · simp only [takeChannelBits, drawFrom, serveBits_env]
  · rfl

/-- A poll uses up one scripted answer, and answers what it says. -/
theorem takeHwReady_script (e : Env) :
    (takeHwReady e).2.hwReady = e.hwReady.drop 1 ∧ ∀ b ∈ e.hwReady.take 1, b = (takeHwReady e).1 := by
  cases h : e.hwReady <;> simp [takeHwReady, drawFrom, h]

/-- The poll changes the environment only, and it answers ready only where the environment does and the queue has room. -/
theorem pollReady_cases (s : State) :
    (pollReady s = (true, { s with env := (takeHwReady s.env).2 }) ∧ (takeHwReady s.env).1 = true ∧ hasRoom s = true) ∨
    (∃ u, pollReady s = (false, u) ∧ PolledNotReady s u) := by
  have h : pollReady s = ((takeHwReady s.env).1 && hasRoom s, { s with env := (takeHwReady s.env).2 }) := rfl
  cases hb : (takeHwReady s.env).1 && hasRoom s
  · refine .inr ⟨_, by rw [h, hb], rfl, ?_⟩
    rw [Bool.and_eq_false_iff] at hb
    exact hb.imp_right hasRoom_false.mp
  · exact .inl ⟨by rw [h, hb], by simpa using hb⟩

theorem PolledReady.zero {s v : State} (h : v.env.hwReady = s.env.hwReady) : PolledReady 0 s v := by
  simp [PolledReady, h]

theorem PolledReady.comp {n m : Nat} {s t u : State} (h : PolledReady n s t) (g : PolledReady m t u) :
    PolledReady (n + m) s u := by
  refine ⟨by rw [g.1, h.1, List.drop_drop], fun b hb => ?_⟩
  rw [List.take_add, List.mem_append, ← h.1] at hb
  exact hb.elim (h.2 b) (g.2 b)

/-- What a TRANSMIT that ended is, with what the invariant needs of the channel's registers. -/
def SentHanded (s u : State) (f : List Byte) : Prop :=
  Handed s u f ∧ u.ser = none ∧ PolledReady f.length s u

theorem SentHanded.sentAll {s u : State} {f : List Byte} (h : SentHanded s u f) : SentAll s u f :=
  ⟨h.1.handedOver, h.2⟩

/-- What a waiting TRANSMIT is, with what the invariant needs of the channel's registers. -/
def WaitsHanded (s u : State) (f : List Byte) (k j : Nat) : Prop :=
  j < f.length ∧ Handed s u (f.take j) ∧ u.ser = some ⟨k + j, none, none⟩ ∧
  ∃ v, Handed s v (f.take j) ∧ v.ser = u.ser ∧ PolledReady j s v ∧ PolledNotReady v u

theorem WaitsHanded.waitsAt {s u : State} {f : List Byte} {k j : Nat} (h : WaitsHanded s u f k j) : WaitsAt s u f k j := by
  obtain ⟨h1, h2, h3, v, h4, h5⟩ := h
  exact ⟨h1, h2.handedOver, h3, v, h4.handedOver, h5⟩

/-- The hardware-timed TRANSMIT from byte `k` on: it hands over all the bytes left and `SER` is not alive afterwards, or it waits at
one of them. -/
theorem sendHardware_handed (bs : List Byte) (k : Nat) (s : State) :
    SentHanded s (sendHardware bs k s) bs ∨ ∃ j, WaitsHanded s (sendHardware bs k s) bs k j := by
  induction bs generalizing k s with
  | nil => exact .inl ⟨Handed.refl s none, rfl, PolledReady.zero rfl⟩
  | cons b bs ih =>
    obtain ⟨bits, hr⟩ := channelRun_ran { s with ser := some ⟨k, none, none⟩ }
    have hpoll := channelRun_hwReady { s with ser := some ⟨k, none, none⟩ }
    generalize hc : channelRun { s with ser := some ⟨k, none, none⟩ } = c at hr hpoll
    have h1 : Handed s c [] := by simpa using (Handed.refl s (some ⟨k, none, none⟩)).comp hr.handed
    have hser : c.ser = some ⟨k, none, none⟩ := by rw [hr.1]
    have hp0 : PolledReady 0 s c := PolledReady.zero hpoll
    rcases pollReady_cases c with ⟨hp, hyes, hroom⟩ | ⟨u, hp, hn⟩
    · generalize hv : hwWrite b { c with env := (takeHwReady c.env).2 } = v
      have heq : sendHardware (b :: bs) k s = sendHardware bs (k + 1) v := by simp only [sendHardware, hc, hp, hv]
      have h2 : Handed s v [b] := by
        rw [← hv]
        simpa using h1.comp ((ChannelRan.env c (takeHwReady c.env).2).handed.comp
          (Handed.write b (s := { c with env := (takeHwReady c.env).2 }) hroom))
      have hp1 : PolledReady 1 s v := by
        have g : PolledReady 1 c v := by
          rw [← hv]
          exact ⟨(takeHwReady_script c.env).1, fun x hx => ((takeHwReady_script c.env).2 x hx).trans hyes⟩
        simpa using hp0.comp g
      rw [heq]
      rcases ih (k + 1) v with ⟨h3, h4, h5⟩ | ⟨j, hj, h3, h4, w, h5, h6, h7, h8⟩
      · exact .inl ⟨h2.comp h3, h4, by rw [List.length_cons, Nat.add_comm]; exact hp1.comp h5⟩
      · exact .inr ⟨j + 1, by simpa using hj, h2.comp h3, by rw [h4]; simp; omega, w, h2.comp h5, h6,
          by rw [Nat.add_comm]; exact hp1.comp h7, h8⟩
    · have heq : sendHardware (b :: bs) k s = u := by simp only [sendHardware, hc, hp]
      have hu : Handed s u [] := by
        rw [hn.1]
        simpa using h1.comp (ChannelRan.env c _).handed
      rw [heq]
      exact .inr ⟨0, by simp, hu, by rw [hn.1]; exact hser, c, h1, by rw [hn.1], hp0, hn⟩

/-- The same by the number of bytes handed over. -/
theorem sendHardware_front (bs : List Byte) (k : Nat) (s : State) :
    ∃ j, j ≤ bs.length ∧ Handed s (sendHardware bs k s) (bs.take j) ∧
      ((j = bs.length ∧ (sendHardware bs k s).ser = none) ∨
       (j < bs.length ∧ (sendHardware bs k s).ser = some ⟨k + j, none, none⟩)) := by
  rcases sendHardware_handed bs k s with ⟨h1, h2, -⟩ | ⟨j, h1, h2, h3, -⟩
  · exact ⟨bs.length, Nat.le_refl _, by rwa [List.take_length], .inl ⟨rfl, h2⟩⟩
  · exact ⟨j, by omega, h2, .inr ⟨h1, h3⟩⟩

/-- Fewer polls and fewer chances are accepted where more are. -/
theorem Accepts.mono {n c n' c' : Nat} {s : State} (h : Accepts n c s) (hn : n' ≤ n) (hc : c' ≤ c) : Accepts n' c' s := by
  obtain ⟨⟨rest, hr⟩, hd⟩ := h
  refine ⟨⟨List.replicate (n - n') true ++ rest, ?_⟩, fun d h => ?_⟩
  · rw [← List.append_assoc, List.replicate_append_replicate, Nat.add_sub_cancel' hn, hr]
  · obtain ⟨h1, h2, ks, r, h3, h4, h5⟩ := hd d h
    exact ⟨h1, h2, ks, r, h3, by omega, h5⟩

/-- Only the queue, the environment, the parameters and `HW_ACTIVE` decide what is accepted. -/
theorem Accepts.congr {n c : Nat} {s t : State} (h : Accepts n c s) (hq : t.hwq = s.hwq) (he : t.env = s.env)
    (hp : t.plat = s.plat) (ha : t.hwActive = s.hwActive) : Accepts n c t := by
  unfold Accepts
  rw [hq, he, hp, ha]
  exact h

/-- After its chance to run the channel of an accepting environment has room. -/
theorem Accepts.channelRun {n c : Nat} {s : State} (h : Accepts n (c + 1) s) :
    Accepts n c (channelRun s) ∧ hasRoom (channelRun s) = true := by
  obtain ⟨bits, hran⟩ := channelRun_ran s
  have hp : (Machine.channelRun s).plat = s.plat := by rw [hran.1]
  have ha : (Machine.channelRun s).hwActive = s.hwActive := by rw [hran.1]
  have key : ∀ d : ℕ+, s.plat.hwqDepth = some d → (Machine.channelRun s).hwq.length < d ∧
      ∃ ks rest, (Machine.channelRun s).env.channelBits = ks ++ rest ∧ c ≤ ks.length ∧ ∀ k ∈ ks, 8 ≤ k := by
    intro d hd
    obtain ⟨h1, h2, ks, r, h3, h4, h5⟩ := h.2 d hd
    have hpos := d.pos
    by_cases hq : s.hwq = []
    · rw [channelRun_empty hq]
      exact ⟨by simp [hq], ks, r, h3, by omega, h5⟩
    · cases ks with
      | nil => simp at h4
      | cons k ks =>
        have hk : 8 ≤ k := h5 k (by simp)
        have heq : Machine.channelRun s = serveBits k { s with env := { s.env with channelBits := ks ++ r } } := by
          unfold Machine.channelRun
          rw [if_pos (by simp [h1, hasQueued, hq])]
          simp only [takeChannelBits, drawFrom, h3, List.cons_append]
        refine ⟨?_, ks, r, by rw [heq, serveBits_env], by simpa using h4, fun x hx => h5 x (by simp [hx])⟩
        rw [heq, serveBits_hwq, List.length_drop]
        have : 0 < s.hwq.length := List.length_pos_iff.mpr hq
        simp only
        omega
  refine ⟨⟨?_, fun d hd => ?_⟩, ?_⟩
  · rw [channelRun_hwReady]; exact h.1
  · rw [hp] at hd
    obtain ⟨k1, k2⟩ := key d hd
    exact ⟨by rw [ha]; exact (h.2 d hd).1, by omega, k2⟩
  · rw [← Bool.not_eq_false, hasRoom_false]
    rintro ⟨d, hd, hl⟩
    rw [hp] at hd
    have := (key d hd).1
    omega

/-- A channel of an accepting environment takes the bytes `as`; what follows them is sent from the state `v` that this leaves. -/
theorem sendHardware_append (as bs : List Byte) (k n c : Nat) (s : State) (h : Accepts (as.length + n) (as.length + c) s) :
    ∃ v, sendHardware (as ++ bs) k s = sendHardware bs (k + as.length) v ∧ Accepts n c v ∧
      v.env.hwReady = s.env.hwReady.drop as.length := by
  induction as generalizing k s with
  | nil => exact ⟨s, rfl, by simpa using h, rfl⟩
  | cons b as ih =>
    have h0 : Accepts (as.length + n + 1) (as.length + c + 1) { s with ser := some ⟨k, none, none⟩ } :=
      (h.congr rfl rfl rfl rfl).mono (by rw [List.length_cons]; omega) (by rw [List.length_cons]; omega)
    have hpoll := channelRun_hwReady { s with ser := some ⟨k, none, none⟩ }
    obtain ⟨h1, hroom⟩ := h0.channelRun
    generalize hc : Machine.channelRun { s with ser := some ⟨k, none, none⟩ } = w at h1 hroom hpoll
    obtain ⟨⟨rest, hr⟩, hd⟩ := h1
    rw [List.replicate_succ, List.cons_append] at hr
    have heq : sendHardware (b :: as ++ bs) k s = sendHardware (as ++ bs) (k + 1)
        (hwWrite b { w with env := { w.env with hwReady := List.replicate (as.length + n) true ++ rest } }) := by
      simp only [List.cons_append, sendHardware, hc, pollReady, takeHwReady, drawFrom, hr, hroom, Bool.and_true]
    obtain ⟨v, hv, ha, hq⟩ := ih (k + 1)
      (hwWrite b { w with env := { w.env with hwReady := List.replicate (as.length + n) true ++ rest } })
      ⟨⟨rest, rfl⟩, fun d hd' => by
        obtain ⟨k1, -, k3⟩ := hd d hd'
        have hl : ¬ (d : Nat) ≤ w.hwq.length := fun x => by
          rw [(hasRoom_false (s := w)).mpr ⟨d, hd', x⟩] at hroom
          cases hroom
        exact ⟨k1, by simp; omega, k3⟩⟩
    refine ⟨v, by rw [heq, hv, List.length_cons, Nat.add_assoc, Nat.add_comm 1], ha, ?_⟩
    rw [hq, show s.env.hwReady = true :: (List.replicate (as.length + n) true ++ rest) from hpoll.symm.trans hr]
    rfl

/-- A channel of an accepting environment takes every byte. -/
theorem sendHardware_accepts (bs : List Byte) (k n c : Nat) (s : State) (h : Accepts (bs.length + n) (bs.length + c) s) :
    (sendHardware bs k s).ser = none ∧ Accepts n c (sendHardware bs k s) := by
  obtain ⟨v, hv, ha, -⟩ := sendHardware_append bs [] k n c s h
  rw [List.append_nil] at hv
  rw [hv]
  exact ⟨rfl, ha.congr rfl rfl rfl rfl⟩

/-- A channel that is not ready for the next byte takes none. -/
theorem sendHardware_notReady (b : Byte) (bs : List Byte) (k : Nat) (s : State) (rest : List Bool)
    (hr : s.env.hwReady = false :: rest) :
    Handed s (sendHardware (b :: bs) k s) [] ∧ (sendHardware (b :: bs) k s).ser = some ⟨k, none, none⟩ := by
  obtain ⟨bits, hran⟩ := channelRun_ran { s with ser := some ⟨k, none, none⟩ }
  have h1 : (channelRun { s with ser := some ⟨k, none, none⟩ }).env.hwReady = false :: rest := by
    rw [channelRun_hwReady]; exact hr
  have h2 : (channelRun { s with ser := some ⟨k, none, none⟩ }).ser = some ⟨k, none, none⟩ := by rw [hran.1]
  simp only [sendHardware, pollReady, takeHwReady, drawFrom, h1, Bool.false_and]
  exact ⟨by simpa using (Handed.refl s (some ⟨k, none, none⟩)).comp (hran.handed.comp (ChannelRan.env _ _).handed), h2⟩

/-- The wait for `hw_ready` (41_transport R96): where the channel takes the first `j` bytes and the environment then says not ready,
TRANSMIT waits at byte `j`. -/
theorem sendHardware_stops (bs : List Byte) (k j : Nat) (s : State) (rest : List Bool) (hj : j < bs.length) (ha : Accepts j j s)
    (hr : s.env.hwReady = List.replicate j true ++ false :: rest) : WaitsHanded s (sendHardware bs k s) bs k j := by
  have hl : (bs.take j).length = j := by rw [List.length_take]; omega
  obtain ⟨v, hv, -, hq⟩ := sendHardware_append (bs.take j) (bs.drop j) k 0 0 s (by rw [hl]; exact ha)
  rw [List.take_append_drop, hl] at hv
  obtain ⟨b, bs', hb⟩ := List.exists_cons_of_ne_nil (List.drop_eq_nil_iff.not.mpr (Nat.not_le.mpr hj))
  have hser : (sendHardware bs k s).ser = some ⟨k + j, none, none⟩ := by
    rw [hv, hb]
    refine (sendHardware_notReady b bs' (k + j) v rest ?_).2
    rw [hq, hl, hr]
    simp
  rcases sendHardware_handed bs k s with ⟨-, h, -⟩ | ⟨i, hi⟩
  · rw [hser] at h; cases h
  · have h := hi.2.2.1
    rw [hser] at h
    have : j = i := by simpa using h
    rw [this]
    exact hi

end Sys2Proof.Machine
end

