-- ==== Sys2Proof/Laws/Commit.lean ====
section
/-! SUPPORT. What the software-timed TRANSMIT, the commit, SELECT, RELEASE and the loops of the diagnostics do, said once
(41_transport R88, R99, R105; 42_strip_controller R113; 44_diagnostics R141, R143). -/

namespace Sys2Proof.Machine

theorem sendBit_eq (k j : Nat) (v : Bool) (s : State) :
    sendBit k j v s = { s with ser := some ⟨k, some j, some .low⟩, dataLevel := v, clockLevel := false,
                               trace := s.trace ++ bitEvents s.plat.bitDelayUs.val v } := by
  simp [sendBit, drivePin, emit, bitEvents]

theorem sendBits_eq (k j : Nat) (vs : List Bool) (s : State) :
    sendBits k j vs s = { s with ser := (sendBits k j vs s).ser, dataLevel := vs.getLast?.getD s.dataLevel,
                                 clockLevel := s.clockLevel && vs.isEmpty,
                                 trace := s.trace ++ vs.flatMap (bitEvents s.plat.bitDelayUs.val) } := by
  induction vs generalizing j s with
  | nil => simp [sendBits]
  | cons v vs ih =>
    rw [sendBits, ih, sendBit_eq]
    simp [List.getLast?_cons]

/-- The whole software-timed TRANSMIT of a byte list. -/
theorem sendSoftware_eq (bs : List Byte) (k : Nat) (s : State) :
    sendSoftware bs k s = { s with ser := none, dataLevel := (frameBits bs).getLast?.getD s.dataLevel,
                                   clockLevel := s.clockLevel && bs.isEmpty,
                                   trace := s.trace ++ frameEvents s.plat.bitDelayUs.val bs } := by
  induction bs generalizing k s with
  | nil => simp [sendSoftware, frameBits, frameEvents]
  | cons b bs ih =>
    rw [sendSoftware, ih, sendBits_eq]
    have hb : (byteBits b).getLast? = some (b.getLsbD 0) := rfl
    have hn : (byteBits b).isEmpty = false := rfl
    simp only [frameEvents, frameBits_cons, List.getLast?_append, List.flatMap_append, List.append_assoc, hb, hn]
    cases (frameBits bs).getLast? <;> simp

/-- A frame ends in a padding byte, so its last bit is 0 (41_transport R101). -/
theorem encodeFrame_lastBit (pixels : PixelBuffer) (l : Level) (d : Bool) :
    (frameBits (encodeFrame pixels l)).getLast?.getD d = false := by
  have h : encodeFrame pixels l
      = (startBytes ++ pixels.colors.flatMap (ledBlock l) ++ List.replicate (ceilDiv16 pixels.colors.length + 3) 0#8) ++ [0#8] := by
    rw [encodeFrame, padCount, List.append_assoc _ _ [0#8], ← List.replicate_succ']
  rw [h, frameBits_append, List.getLast?_append]
  rfl

theorem encodeFrame_ne_nil (pixels : PixelBuffer) (l : Level) : encodeFrame pixels l ≠ [] := by
  simp [encodeFrame, startBytes]

/-- TRANSMIT on the software-timed transport. -/
theorem transmit_software {s : State} {d c : Nat} (h : s.transport = .softwareTimed d c) :
    transmit (assembleFrame s) = .next { s with
      frame := encodeFrame s.pix s.bright, ser := none, dataLevel := false, clockLevel := false,
      trace := s.trace ++ frameEvents s.plat.bitDelayUs.val (encodeFrame s.pix s.bright) } := by
  have hd := encodeFrame_lastBit s.pix s.bright s.dataLevel
  have hn := encodeFrame_ne_nil s.pix s.bright
  simp [transmit, h, sendSoftware_eq, hd, hn, assembleFrame]

/-- The commit on the software-timed transport. -/
theorem commit_software {s : State} {d c : Nat} (h : s.transport = .softwareTimed d c) :
    commit s = .next (softwareCommitted s) := by
  rw [commit, transmit_software h]
  rfl

/-- What `HardwareCommitted` says by the number of bytes handed over, with what the invariant needs of the channel's registers. -/
def CommittedByChannel (s t : State) : Prop :=
  ∃ k u, k ≤ (encodeFrame s.pix s.bright).length ∧
    Handed { s with frame := encodeFrame s.pix s.bright } u ((encodeFrame s.pix s.bright).take k) ∧
    ((k = (encodeFrame s.pix s.bright).length ∧ u.ser = none ∧
        t = { u with inFlight := none, responses := s.responses ++ [.ok .none] }) ∨
     (k < (encodeFrame s.pix s.bright).length ∧ u.ser = some ⟨k, none, none⟩ ∧
        t = { u with inFlight := some .reply }))

/-- TRANSMIT on the hardware-timed transport. -/
theorem transmit_hardware {s : State} {h : Nat} (ht : s.transport = .hardwareTimed h) :
    ∃ u, transmit (assembleFrame s) = .next u ∧
      (SentHanded { s with frame := encodeFrame s.pix s.bright } u (encodeFrame s.pix s.bright) ∨
       ∃ k, WaitsHanded { s with frame := encodeFrame s.pix s.bright } u (encodeFrame s.pix s.bright) 0 k) ∧
      (∀ n c, Accepts ((encodeFrame s.pix s.bright).length + n) ((encodeFrame s.pix s.bright).length + c) s →
        u.ser = none ∧ Accepts n c u) := by
  refine ⟨sendHardware (encodeFrame s.pix s.bright) 0 (assembleFrame s), by simp [transmit, ht],
    sendHardware_handed _ 0 (assembleFrame s), fun n c ha => ?_⟩
  exact sendHardware_accepts _ 0 n c _ (ha.congr rfl rfl rfl rfl)

/-- The same by the number of bytes handed over. -/
theorem transmit_front {s : State} {h : Nat} (ht : s.transport = .hardwareTimed h) :
    ∃ k u, transmit (assembleFrame s) = .next u ∧ k ≤ (encodeFrame s.pix s.bright).length ∧
      Handed { s with frame := encodeFrame s.pix s.bright } u ((encodeFrame s.pix s.bright).take k) ∧
      ((k = (encodeFrame s.pix s.bright).length ∧ u.ser = none) ∨
       (k < (encodeFrame s.pix s.bright).length ∧ u.ser = some ⟨k, none, none⟩)) := by
  obtain ⟨j, hj, hh, hs⟩ := sendHardware_front (encodeFrame s.pix s.bright) 0 (assembleFrame s)
  exact ⟨j, _, by simp [transmit, ht], hj, hh, by simpa using hs⟩

theorem replyWhenSent_waits {s : State} {p : SerPos} (h : s.ser = some p) :
    replyWhenSent s = .next { s with inFlight := some .reply } := by
  unfold replyWhenSent
  rw [if_pos (by rw [h]; rfl)]

theorem replyWhenSent_sent {s : State} (h : s.ser = none) :
    replyWhenSent s = .next { s with inFlight := none, responses := s.responses ++ [.ok .none] } := by
  unfold replyWhenSent
  rw [if_neg (by rw [h]; simp)]
  rfl

/-- The commit on the hardware-timed transport. -/
theorem commit_hardware {s : State} {h : Nat} (ht : s.transport = .hardwareTimed h) :
    ∃ t, commit s = .next t ∧ HardwareCommitted s t ∧
      (Accepts (encodeFrame s.pix s.bright).length (encodeFrame s.pix s.bright).length s → HardwareSent s t) := by
  obtain ⟨u, hu, hs, ha⟩ := transmit_hardware ht
  rcases hs with h1 | ⟨k, h1⟩
  · have hsent : HardwareSent s { u with inFlight := none, responses := s.responses ++ [.ok .none] } :=
      ⟨u, h1.sentAll, rfl⟩
    refine ⟨_, ?_, .inl hsent, fun _ => hsent⟩
    simp only [commit, hu, andThen, replyWhenSent_sent h1.2.1]
    rw [show u.responses = s.responses by rw [h1.1.frame]]
  · refine ⟨{ u with inFlight := some .reply }, by simp only [commit, hu, andThen, replyWhenSent_waits h1.2.2.1],
      .inr ⟨k, u, h1.waitsAt, rfl⟩, fun hacc => ?_⟩
    have h2 := (ha 0 0 (by simpa using hacc)).1
    rw [h1.2.2.1] at h2
    cases h2

theorem commit_byChannel {s t : State} {h : Nat} (ht : s.transport = .hardwareTimed h) (hc : commit s = .next t) :
    CommittedByChannel s t := by
  obtain ⟨k, u, hu, hk, hh, hs⟩ := transmit_front ht
  have hr : u.responses = s.responses := by rw [hh.frame]
  rcases hs with ⟨hk', hser⟩ | ⟨hk', hser⟩
  · simp only [commit, hu, andThen, replyWhenSent_sent hser, hr] at hc
    exact ⟨k, u, hk, hh, .inl ⟨hk', hser, (Host.Outcome.next.inj hc).symm⟩⟩
  · simp only [commit, hu, andThen, replyWhenSent_waits hser] at hc
    exact ⟨k, u, hk, hh, .inr ⟨hk', hser, (Host.Outcome.next.inj hc).symm⟩⟩

/-- The commit, whatever the transport. -/
theorem commit_cases {s : State} {r : Result} (h : commit s = r) :
    (s.transport = .none ∧ r = .fault .noTransport) ∨
    (∃ d c, s.transport = .softwareTimed d c ∧ r = .next (softwareCommitted s)) ∨
    (∃ i t, s.transport = .hardwareTimed i ∧ r = .next t ∧ CommittedByChannel s t) := by
  cases ht : s.transport with
  | none => exact .inl ⟨rfl, by rw [← h]; simp [commit, transmit, ht, andThen]⟩
  | softwareTimed d c => exact .inr (.inl ⟨d, c, rfl, by rw [← h, commit_software ht]⟩)
  | hardwareTimed i =>
    obtain ⟨t, h1, -⟩ := commit_hardware ht
    exact .inr (.inr ⟨i, t, rfl, by rw [← h, h1], commit_byChannel ht h1⟩)

/-- What the lifecycle check answers. -/
theorem requireActive_cases (k : State → Result) (s : State) :
    (s.lifecycle = .active ∧ requireActive k s = k s) ∨
    (s.lifecycle = .closed ∧ requireActive k s = .next (raise .closed s)) ∨
    (s.lifecycle = .uninitialized ∧ requireActive k s = .next (raise .illegal s)) := by
  cases h : s.lifecycle <;> simp [requireActive, h]

@[simp] theorem requireActive_active {s : State} (k : State → Result) (h : s.lifecycle = .active) :
    requireActive k s = k s := by
  simp [requireActive, h]

/-- SELECT: every row of the decision tree of 41_transport section 2. Only the environment and, on a failed hardware
initialisation with the debug flag, one `Log` come before the claim. -/
theorem select_cases (fs dbg : Bool) (id : Nat) (f : Rat) (d c : Nat) (s : State) :
    (∃ v e, fs = false ∧ select fs dbg id f d c s
        = (some (.hardwareTimed id), claimHardware v id f d c { s with env := e })) ∨
    (∃ e, select fs dbg id f d c s = (some (.softwareTimed d c), claimSoftware d c { s with env := e })) ∨
    (∃ e, fs = false ∧ dbg = true ∧ select fs dbg id f d c s
        = (some (.softwareTimed d c), claimSoftware d c { s with env := e, trace := s.trace ++ [.log] })) ∨
    (∃ e, select fs dbg id f d c s = (none, { s with env := e })) ∨
    (∃ e, fs = false ∧ dbg = true ∧ select fs dbg id f d c s = (none, { s with env := e, trace := s.trace ++ [.log] })) := by
  have soft : ∀ u : State, (∃ e, selectSoftware d c u = (some (.softwareTimed d c), claimSoftware d c { u with env := e })) ∨
      (∃ e, selectSoftware d c u = (none, { u with env := e })) := by
    intro u
    cases hb : (takePinClaim u.env).1 && (takePinClaim (takePinClaim u.env).2).1
    · exact .inr ⟨(takePinClaim (takePinClaim u.env).2).2, by simp only [selectSoftware, hb]; rfl⟩
    · exact .inl ⟨(takePinClaim (takePinClaim u.env).2).2, by simp only [selectSoftware, hb]; rfl⟩
  cases fs with
  | true =>
    rcases soft s with ⟨e, h⟩ | ⟨e, h⟩
    · exact .inr (.inl ⟨e, by simpa [select] using h⟩)
    · exact .inr (.inr (.inr (.inl ⟨e, by simpa [select] using h⟩)))
  | false =>
    cases hi : takeHwInit s.env with
    | mk o e =>
      cases o with
      | ok v => exact .inl ⟨v, e, rfl, by simp [select, hi]⟩
      | fail r =>
        cases dbg with
        | false =>
          rcases soft { s with env := e } with ⟨e', h⟩ | ⟨e', h⟩
          · exact .inr (.inl ⟨e', by simpa [select, hi] using h⟩)
          · exact .inr (.inr (.inr (.inl ⟨e', by simpa [select, hi] using h⟩)))
        | true =>
          rcases soft (emit .log { s with env := e }) with ⟨e', h⟩ | ⟨e', h⟩
          · exact .inr (.inr (.inl ⟨e', rfl, rfl, by simpa [select, hi, emit] using h⟩))
          · exact .inr (.inr (.inr (.inr ⟨e', rfl, rfl, by simpa [select, hi, emit] using h⟩)))

/-- The software-timed claim. -/
theorem claimSoftware_eq (d c : Nat) (s : State) :
    claimSoftware d c s = { s with
      trace := s.trace ++ [.pinClaim d, .pinClaim c, .pin .clock false, .pin .data false],
      dataOwner := .gpio, clockOwner := .gpio, dataDir := .output, clockDir := .output,
      dataLevel := false, clockLevel := false } := by
  simp [claimSoftware, drivePin, emit, setPinOwners]

/-- The suspension of a diagnostic, where there is no active channel. -/
theorem suspend_inactive {s : State} (h : suspends s = false) : suspend s = s := by
  simp [suspend, h]

/-- The cycles of PIN_TOGGLE_TEST. -/
theorem toggleCycles_eq (n : Nat) (s : State) :
    toggleCycles n s = { s with
      trace := s.trace ++ (List.replicate n (toggleEvents s.plat.toggleDelayMs.val)).flatten,
      dataLevel := if n = 0 then s.dataLevel else false, clockLevel := if n = 0 then s.clockLevel else false } := by
  induction n generalizing s with
  | zero => simp [toggleCycles]
  | succ n ih =>
    rw [toggleCycles, ih]
    simp [toggleCycle, drivePin, emit, toggleEvents, List.replicate_succ]

/-- The stages of PIN_DRIVE_CHECK: the results are those the environment decides, each has its `PinMode`, and nothing else changes but
the pin directions. -/
theorem runStages_eq (st : List (Pin × PinDir)) (s : State) :
    (runStages st s).1 = (checkedBy st s.env).1 ∧
    (runStages st s).2 = { s with
        trace := s.trace ++ (checkedBy st s.env).1.map (fun e => Event.pinMode e.1.1 e.1.2)
        dataDir := (runStages st s).2.dataDir
        clockDir := (runStages st s).2.clockDir
        env := (checkedBy st s.env).2 } := by
  induction st generalizing s with
  | nil => simp [runStages, checkedBy]
  | cons pm st ih =>
    obtain ⟨p, m⟩ := pm
    cases hs : takeModeSupported s.env with
    | mk b e =>
      cases b with
      | false =>
        obtain ⟨h1, h2⟩ := ih { s with env := e }
        have heq : runStages ((p, m) :: st) s = runStages st { s with env := e } := by simp [runStages, hs]
        have hch : checkedBy ((p, m) :: st) s.env = checkedBy st e := by simp [checkedBy, hs]
        rw [heq, hch]
        exact ⟨h1, h2⟩
      | true =>
        obtain ⟨h1, h2⟩ := ih (setPinDir p m (emit (.pinMode p m) { s with env := (takeReadBack e).2 }))
        have he : (setPinDir p m (emit (.pinMode p m) { s with env := (takeReadBack e).2 })).env = (takeReadBack e).2 := by
          cases p <;> rfl
        rw [he] at h1 h2
        have heq : runStages ((p, m) :: st) s =
            (((p, m), (takeReadBack e).1) ::
              (runStages st (setPinDir p m (emit (.pinMode p m) { s with env := (takeReadBack e).2 }))).1,
              (runStages st (setPinDir p m (emit (.pinMode p m) { s with env := (takeReadBack e).2 }))).2) := by
          simp [runStages, hs]
        have hch : checkedBy ((p, m) :: st) s.env
            = (((p, m), (takeReadBack e).1) :: (checkedBy st (takeReadBack e).2).1, (checkedBy st (takeReadBack e).2).2) := by
          simp [checkedBy, hs]
        rw [heq, hch]
        refine ⟨by rw [h1], ?_⟩
        rw [h2]
        cases p <;> simp [setPinDir, emit]

/-- Where the answers are scripted: the stages marked supported, with the scripted levels. -/
theorem checkedBy_scripted (st : List (Pin × PinDir)) (supported levels restS restL : List Bool) (e : Env)
    (hs : e.modeSupported = supported ++ restS) (hn : supported.length = st.length)
    (hl : e.readBack = levels ++ restL) (hc : levels.length = supported.count true) :
    checkedBy st e = ((((st.zip supported).filter Prod.snd).map Prod.fst).zip levels,
      { e with modeSupported := restS, readBack := restL }) := by
  induction st generalizing supported levels e with
  | nil =>
    obtain rfl : supported = [] := List.length_eq_zero_iff.mp hn
    obtain rfl : levels = [] := List.length_eq_zero_iff.mp (by simpa using hc)
    simp only [List.nil_append] at hs hl
    simp [checkedBy, ← hs, ← hl]
  | cons a st ih =>
    cases supported with
    | nil => simp at hn
    | cons b supported =>
      have hd : takeModeSupported e = (b, { e with modeSupported := supported ++ restS }) := by
        simp [takeModeSupported, drawFrom, hs]
      cases b with
      | false =>
        have h := ih supported levels { e with modeSupported := supported ++ restS } rfl (by simpa using hn) hl (by simpa using hc)
        simp [checkedBy, hd, h]
      | true =>
        cases levels with
        | nil => simp at hc
        | cons l levels =>
          have hr : takeReadBack { e with modeSupported := supported ++ restS }
              = (l, { e with modeSupported := supported ++ restS, readBack := levels ++ restL }) := by
            simp [takeReadBack, drawFrom, hl]
          have h := ih supported levels { e with modeSupported := supported ++ restS, readBack := levels ++ restL } rfl
            (by simpa using hn) rfl (by simpa using hc)
          simp [checkedBy, hd, hr, h]

end Sys2Proof.Machine
end

