-- ==== Sys2Proof/Laws/Encoding.lean ====
section
/-! SUPPORT. Small facts about the LED word and the opcodes (30_encoding R47, R59). -/

namespace Sys2Proof

/-- The bits of a LED word: red, green, blue, level and prefix from bit 0 up (R47). -/
theorem ledWord_bit (l : Level) (b g r : Byte) (i : Nat) :
    (0b111#3 ++ l ++ b ++ g ++ r : BitVec 32).getLsbD i =
      if i < 8 then r.getLsbD i
      else if i - 8 < 8 then g.getLsbD (i - 8)
      else if i - 8 - 8 < 8 then b.getLsbD (i - 8 - 8)
      else if i - 8 - 8 - 8 < 5 then l.getLsbD (i - 8 - 8 - 8)
      else (0b111#3).getLsbD (i - 8 - 8 - 8 - 5) := by
  show (0b111#3 ++ l ++ b ++ g ++ r : BitVec (3 + 5 + 8 + 8 + 8)).getLsbD i = _
  simp only [BitVec.getLsbD_append]

/-- The prefix of a LED word (R47). -/
theorem ledWord_prefix (l : Level) (b g r : Byte) :
    (0b111#3 ++ l ++ b ++ g ++ r : BitVec 32).extractLsb' 29 3 = 0b111#3 := by
  apply BitVec.eq_of_getLsbD_eq
  intro i hi
  simp only [BitVec.getLsbD_extractLsb', hi, ledWord_bit]
  interval_cases i <;> simp

/-- A word is its five fields, put together again (R47). -/
theorem ledWord_fields (w : BitVec 32) :
    (w.extractLsb' 29 3 ++ w.extractLsb' 24 5 ++ w.extractLsb' 16 8 ++ w.extractLsb' 8 8 ++ w.extractLsb' 0 8 : BitVec 32)
      = w := by
  apply BitVec.eq_of_getLsbD_eq
  intro i hi
  show (_ : BitVec (3 + 5 + 8 + 8 + 8)).getLsbD i = _
  simp only [BitVec.getLsbD_append, BitVec.getLsbD_extractLsb']
  interval_cases i <;> simp

/-- Every header byte carries the prefix `0b111` over the level (R50). -/
theorem Machine.headerByte_eq (l : Level) : Machine.headerByte l = 0xE0#8 ||| l.setWidth 8 := by
  revert l; decide

end Sys2Proof
end

