-- ==== Sys2Proof/Laws/Operands.lean ====
section
/-! SUPPORT. What the operand forms answer (42_strip_controller R110, R112, R120; 30_encoding R56). -/

namespace Sys2Proof.Machine

/-- A positive duration is positive (00_scope R8). -/
theorem Positive.val_pos (p : Positive) : 0 < p.val := by
  have h1 : (0 : Rat) < ((p.num : Nat) : Rat) := by exact_mod_cast p.num.pos
  have h2 : (0 : Rat) < ((p.den : Nat) : Rat) := by exact_mod_cast p.den.pos
  exact div_pos h1 h2

/-- The counts CONSTRUCT accepts (R110, D21). -/
theorem pixelCount_iff (plat : Platform) (x : Number) (k : ℕ+) : pixelCount plat x = some k ↔
    (x = .rat ((k : Nat) : Rat) ∧ ∀ m, plat.nMax = some m → (k : Nat) ≤ m) := by
  have wm : ∀ n, withinMax plat.nMax n = true ↔ ∀ m, plat.nMax = some m → n ≤ m := by
    intro n
    unfold withinMax
    cases plat.nMax <;> simp
  cases x with
  | nan => simp [pixelCount]
  | rat q =>
    simp only [pixelCount, Number.rat.injEq]
    constructor
    · intro h
      split at h
      · next h1 =>
        split at h
        · next h2 =>
          cases h
          refine ⟨?_, (wm _).mp h2.2⟩
          have h3 : q = (q.num : Rat) := ((Rat.den_eq_one_iff q).mp h2.1).symm
          have h4 : ((q.num.toNat : Int) : Rat) = (q.num : Rat) := by
            congr 1
            omega
          have h5 : ((q.num.toNat : Nat) : Rat) = (q.num : Rat) := by exact_mod_cast h4
          exact h3.trans h5.symm
        · cases h
      · cases h
    · rintro ⟨rfl, h⟩
      have hk : ((k : Nat) : Rat).num.toNat = k := by simp
      rw [dif_pos (hk.symm ▸ k.pos), if_pos ⟨by simp, (wm _).mpr (by simpa using h)⟩]
      exact congrArg some (PNat.eq hk)

/-- A count is what `isCount` says. -/
theorem pixelCount_none (plat : Platform) (x : Number) : pixelCount plat x = none ↔ ¬ isCount plat x := by
  rw [Option.eq_none_iff_forall_ne_some]
  constructor
  · rintro h ⟨n, hx, h1, hm⟩
    exact h ⟨n, h1⟩ ((pixelCount_iff plat x ⟨n, h1⟩).mpr ⟨hx, hm⟩)
  · intro h k hk
    obtain ⟨hx, hm⟩ := (pixelCount_iff plat x k).mp hk
    exact h ⟨k, hx, k.pos, hm⟩

/-- The numbers in [0, 1] (R112, R120). -/
theorem unitNumber_iff (x : Number) (v : Normalized) : unitNumber x = some v ↔ x = .rat v := by
  cases x with
  | nan => simp [unitNumber]
  | rat q =>
    simp only [unitNumber, Number.rat.injEq]
    constructor
    · intro h
      split at h <;> cases h
      rfl
    · rintro rfl
      exact dif_pos v.2

/-- A number in [0, 1] as a normalized number (R112, R120). -/
theorem unitNumber_rat {q : Rat} (h : 0 ≤ q ∧ q ≤ 1) : unitNumber (.rat q) = some ⟨q, h⟩ :=
  (unitNumber_iff _ _).mpr rfl

theorem unitNumber_none (x : Number) : unitNumber x = none ↔ ¬ isUnit x := by
  rw [Option.eq_none_iff_forall_ne_some]
  constructor
  · rintro h ⟨q, hx, hq⟩
    exact h ⟨q, hq⟩ ((unitNumber_iff x _).mpr hx)
  · intro h v hv
    exact h ⟨v, (unitNumber_iff x v).mp hv, v.2⟩

/-- `valid_color` (R112). -/
theorem validColor_iff (o : ColorOperand) (c : Color) : validColor o = some c ↔ o = colorOperand c := by
  obtain ⟨r, g, b⟩ := o
  obtain ⟨cr, cg, cb⟩ := c
  simp only [colorOperand, ColorOperand.mk.injEq, ← unitNumber_iff, validColor]
  cases unitNumber r <;> cases unitNumber g <;> cases unitNumber b <;> simp

/-- A colour is a valid operand (R112). -/
theorem validColor_colorOperand (c : Color) : validColor (colorOperand c) = some c := (validColor_iff _ c).mpr rfl

theorem validColor_none (o : ColorOperand) : validColor o = none ↔ ∀ c : Color, o ≠ colorOperand c := by
  simp only [Option.eq_none_iff_forall_ne_some, ne_eq, validColor_iff]

/-- The lists of valid colours (R116). -/
theorem validColors_iff (os : List ColorOperand) (cs : List Color) :
    validColors os = some cs ↔ os = cs.map colorOperand := by
  induction os generalizing cs with
  | nil => cases cs <;> simp [validColors]
  | cons o os ih =>
    cases cs with
    | nil => cases h1 : validColor o <;> cases h2 : validColors os <;> simp [validColors, h1, h2]
    | cons c cs =>
      rw [List.map_cons, List.cons.injEq, ← validColor_iff, ← ih, validColors]
      cases validColor o <;> cases validColors os <;> simp

/-- One invalid colour makes the list invalid (R116). -/
theorem validColors_none (os : List ColorOperand) (o : ColorOperand) (hm : o ∈ os) (h : ∀ c : Color, o ≠ colorOperand c) :
    validColors os = none := by
  rw [Option.eq_none_iff_forall_ne_some]
  intro cs hcs
  rw [(validColors_iff os cs).mp hcs] at hm
  obtain ⟨c, -, hc⟩ := List.mem_map.mp hm
  exact h c hc.symm

/-- The buffers SET_BUFFER accepts (R116). -/
theorem validBuffer_iff (os : List ColorOperand) (p : PixelBuffer) :
    validBuffer os = some p ↔ os = p.colors.map colorOperand := by
  rw [validBuffer, Option.bind_eq_some_iff]
  constructor
  · rintro ⟨cs, h1, h2⟩
    rw [PixelBuffer.colors_of_ofList h2]
    exact (validColors_iff os cs).mp h1
  · intro h
    exact ⟨p.colors, (validColors_iff os p.colors).mpr h, p.ofList_colors⟩

/-- `level_of` with its result as a numeral (30_encoding R56). -/
theorem levelOf_ofNat (x : Normalized) : levelOf x = BitVec.ofNat 5 (31 * (x : Rat)).floor.toNat := by
  have h : 0 ≤ (31 * (x : Rat)).floor := by
    have := x.2.1
    rw [Rat.le_floor_iff]
    push_cast
    linarith
  unfold levelOf
  obtain ⟨n, hn⟩ := Int.eq_ofNat_of_zero_le h
  rw [hn]
  simp

/-- The pins CONSTRUCT accepts (R110, D21). -/
theorem pinsUsable_iff (plat : Platform) (d c : Nat) : pinsUsable plat d c = true ↔ arePins plat d c := by
  simp [pinsUsable, arePins, and_assoc]

/-- The frequencies CONSTRUCT accepts (R110, D21). -/
theorem positiveNumber_iff (x : Number) (q : Rat) : positiveNumber x = some q ↔ x = .rat q ∧ 0 < q := by
  cases x with
  | nan => simp [positiveNumber]
  | rat p =>
    simp only [positiveNumber, Number.rat.injEq]
    split
    · next h =>
      constructor
      · rintro ⟨⟩
        exact ⟨rfl, h⟩
      · rintro ⟨rfl, -⟩
        rfl
    · next h =>
      constructor
      · rintro ⟨⟩
      · rintro ⟨rfl, hq⟩
        exact absurd hq h

end Sys2Proof.Machine
end

