-- ==== Sys2Proof/Laws/Step.lean ====
section
/-! SUPPORT. What a step is in each of its cases, and how a command ends or waits after TRANSMIT. -/

namespace Sys2Proof.Machine

theorem restoreWhenSent_waits {s : State} {p : SerPos} (cs : PixelBuffer) (h : s.ser = some p) :
    restoreWhenSent cs s = .next { s with inFlight := some (.restore cs) } := by
  unfold restoreWhenSent
  rw [if_pos (by rw [h]; rfl)]

theorem restoreWhenSent_sent {s : State} (cs : PixelBuffer) (h : s.ser = none) :
    restoreWhenSent cs s = commit (writePixels cs
      (emit (.delay (.hold s.plat.patternHold.val)) (channelRun { s with inFlight := none }))) := by
  unfold restoreWhenSent
  rw [if_neg (by rw [h]; simp)]

/-- After the first frame of SHOW_TEST_PATTERN on the hardware-timed transport: the hold, the snapshot written, its commit. -/
theorem restoreWhenSent_hardware {u : State} {h : Nat} (cs : PixelBuffer) (ht : u.transport = .hardwareTimed h)
    (hs : u.ser = none) :
    ∃ v t, HeldPattern u v ∧ restoreWhenSent cs u = .next t ∧ HardwareCommitted { v with pix := cs } t ∧
      (Accepts (encodeFrame cs u.bright).length ((encodeFrame cs u.bright).length + 1) u →
        HardwareSent { v with pix := cs } t) := by
  obtain ⟨bits, hr⟩ := channelRun_ran { u with inFlight := none }
  have hf := hr.handed.frame
  have hp : (channelRun { u with inFlight := none }).plat = u.plat := by rw [hf]
  have hb : (channelRun { u with inFlight := none }).bright = u.bright := by rw [hf]
  obtain ⟨t, h1, h2, h3⟩ := commit_hardware (h := h) (s := writePixels cs
    (emit (.delay (.hold u.plat.patternHold.val)) (channelRun { u with inFlight := none })))
    (by rw [writePixels_transport, emit_transport, hf]; exact ht)
  refine ⟨emit (.delay (.hold u.plat.patternHold.val)) (channelRun { u with inFlight := none }), t,
    ⟨_, hr.handed.handedOver, by rw [hr.1], channelRun_hwReady _, rfl⟩, by rw [restoreWhenSent_sent cs hs, h1], h2, fun ha => h3 ?_⟩
  have h0 := (ha.congr (t := { u with inFlight := none }) rfl rfl rfl rfl).channelRun.1
  rw [show (writePixels cs (emit (.delay (.hold u.plat.patternHold.val)) (channelRun { u with inFlight := none }))).bright
    = u.bright from hb]
  exact h0.congr rfl rfl rfl rfl

theorem transmitOn_hardware {s : State} {h : Nat} {p : SerPos} (ht : s.transport = .hardwareTimed h)
    (hp : s.ser = some p) : transmitOn s = .next (sendHardware (s.frame.drop p.k) p.k s) := by
  simp [transmitOn, ht, hp]

/-- The wait goes on only under the hardware-timed transport and from a position. -/
theorem transmitOn_next {s t : State} (h : transmitOn s = .next t) :
    ∃ i p, s.transport = .hardwareTimed i ∧ s.ser = some p ∧ t = sendHardware (s.frame.drop p.k) p.k s := by
  unfold transmitOn at h
  split at h
  · next i p ht hp => exact ⟨i, p, ht, hp, (Host.Outcome.next.inj h).symm⟩
  · cases h

theorem andThen_next {o : Result} {k : State → Result} {t : State} (h : andThen o k = .next t) :
    ∃ u, o = .next u ∧ k u = .next t := by
  cases o with
  | next u => exact ⟨u, rfl, h⟩
  | fault r => cases h
  | refused r => cases h

theorem step_reset {s : State} (h : s.resetReq = true) : step s = .next (applyReset s) := by
  simp [step, h]

theorem step_inFlight {s : State} {c : Cont} (h : s.resetReq = false) (hc : s.inFlight = some c) :
    step s = resumeCommand c s := by
  simp [step, h, hc]

theorem step_element {s : State} {w : FrameWord} {rest : List FrameWord} (h : s.resetReq = false) (hc : s.inFlight = none)
    (he : s.encq = w :: rest) : step s = stepElement w { s with encq := rest } := by
  simp [step, h, hc, takeElement, he]

theorem step_command {s : State} {r : Request} {rest : List Request} (h : s.resetReq = false) (hc : s.inFlight = none)
    (he : s.encq = []) (hp : s.port = r :: rest) : step s = stepCommand r { s with port := rest } := by
  simp [step, h, hc, takeElement, he, takeCommand, hp]

theorem step_idle {s : State} (h : s.resetReq = false) (hc : s.inFlight = none) (he : s.encq = []) (hp : s.port = []) :
    step s = .next (channelRun s) := by
  simp [step, h, hc, takeElement, he, takeCommand, hp]

/-- Every way a step can go. -/
theorem step_cases (s : State) :
    (s.resetReq = true ∧ step s = .next (applyReset s)) ∨
    (∃ c, s.resetReq = false ∧ s.inFlight = some c ∧ step s = resumeCommand c s) ∨
    (∃ w rest, s.resetReq = false ∧ s.inFlight = none ∧ s.encq = w :: rest ∧
      step s = stepElement w { s with encq := rest }) ∨
    (∃ r rest, s.resetReq = false ∧ s.inFlight = none ∧ s.encq = [] ∧ s.port = r :: rest ∧
      step s = stepCommand r { s with port := rest }) ∨
    (s.resetReq = false ∧ s.inFlight = none ∧ s.encq = [] ∧ s.port = [] ∧ step s = .next (channelRun s)) := by
  by_cases h : s.resetReq = true
  · exact .inl ⟨h, step_reset h⟩
  have h : s.resetReq = false := by simpa using h
  rcases Option.eq_none_or_eq_some s.inFlight with hc | ⟨c, hc⟩
  · by_cases he : s.encq = []
    · by_cases hp : s.port = []
      · exact .inr (.inr (.inr (.inr ⟨h, hc, he, hp, step_idle h hc he hp⟩)))
      · obtain ⟨r, rest, hp⟩ := List.exists_cons_of_ne_nil hp
        exact .inr (.inr (.inr (.inl ⟨r, rest, h, hc, he, hp, step_command h hc he hp⟩)))
    · obtain ⟨w, rest, he⟩ := List.exists_cons_of_ne_nil he
      exact .inr (.inr (.inl ⟨w, rest, h, hc, he, step_element h hc he⟩))
  · exact .inr (.inl ⟨c, h, hc, step_inFlight h hc⟩)

end Sys2Proof.Machine
end

