-- ==== Sys2Proof/Laws/Exec.lean ====
section
/-! SUPPORT. What `exec` does, by kinds of instruction: a frame element appends, a refused command and a read respond, a valid
write command is its write and a commit, CONSTRUCT with good operands selects a transport. -/

namespace Sys2Proof.Machine

/-- `set_pixel` with an index below `N` and a colour (42_strip_controller R114). -/
theorem setPixel_valid {s : State} {i : Nat} {col : Color} (hi : Inv s) (hl : s.lifecycle = .active) (h : i < s.cfg.n) :
    setPixel i (colorOperand col) s = commit { s with pix := s.pix.set i col } := by
  have h2 : i < s.pix.colors.length := by rw [hi.pixels hl]; exact h
  have h3 : readPixel s i = some s.pix.colors[i] := by simp [readPixel, h2]
  simp only [setPixel, requireActive_active _ hl, validColor_colorOperand, h3]
  rw [if_neg (by omega)]
  rfl

/-- `set_all` with a colour (42_strip_controller R115). -/
theorem setAll_valid {s : State} {col : Color} (hl : s.lifecycle = .active) :
    setAll (colorOperand col) s = commit { s with pix := PixelBuffer.replicate s.cfg.n col } := by
  simp only [setAll, requireActive_active _ hl, validColor_colorOperand]
  rfl

/-- White and black as colours (30_encoding R65; log 18). -/
theorem whiteOperand_eq : whiteOperand = colorOperand ⟨1, 1, 1⟩ := rfl

theorem blackOperand_eq : blackOperand = colorOperand ⟨0, 0, 0⟩ := rfl

/-- A valid write command is its write and a commit (42_strip_controller R113). -/
theorem exec_written {s u : State} {i : Instr} (hi : Inv s) (hl : s.lifecycle = .active) (hw : written i s = some u) :
    exec i s = commit u := by
  cases i <;> simp [written, -Subtype.exists] at hw
  case setPixel k c =>
    obtain ⟨hk, col, h1, h2⟩ := hw
    obtain rfl := (validColor_iff _ _).mp h1
    simp only [exec, execSetPixel, setPixel_valid hi hl hk, h2]
  case handleSet k c =>
    obtain ⟨hk, col, h1, h2⟩ := hw
    obtain rfl := (validColor_iff _ _).mp h1
    simp only [exec, execHandleSet, setPixel_valid hi hl hk, h2]
  case setAll c =>
    obtain ⟨col, h1, h2⟩ := hw
    obtain rfl := (validColor_iff _ _).mp h1
    simp only [exec, execSetAll, setAll_valid hl, h2]
  case setBuffer cs =>
    obtain ⟨hk, col, h1, h2⟩ := hw
    simp only [exec, execSetBuffer, requireActive_active _ hl, h1]
    rw [if_neg (by simp [hk]), ← h2]
    rfl
  case setBrightness x =>
    obtain ⟨q, h1, h2⟩ := hw
    simp only [exec, execSetBrightness, requireActive_active _ hl, h1, h2]
  case turnOn =>
    simp only [exec, execTurnOn]
    rw [whiteOperand_eq, setAll_valid hl, hw]
  case turnOff =>
    simp only [exec, execTurnOff]
    rw [blackOperand_eq, setAll_valid hl, hw]
  case flush =>
    subst hw
    exact requireActive_active _ hl

/-- A write command's own write touches `PIX` and `BRIGHT` only. -/
theorem written_frame {s u : State} {i : Instr} (hw : written i s = some u) :
    u = { s with pix := u.pix, bright := u.bright } := by
  cases i <;> simp [written, -Subtype.exists] at hw
  case setPixel k c => obtain ⟨-, _, -, rfl⟩ := hw; rfl
  case handleSet k c => obtain ⟨-, _, -, rfl⟩ := hw; rfl
  case setAll c => obtain ⟨_, -, rfl⟩ := hw; rfl
  case setBuffer cs => obtain ⟨-, _, -, rfl⟩ := hw; rfl
  case setBrightness x => obtain ⟨_, -, rfl⟩ := hw; rfl
  case turnOn => subst hw; rfl
  case turnOff => subst hw; rfl
  case flush => subst hw; rfl

/-- A write command leaves a buffer of `N` entries. -/
theorem written_length {s u : State} {i : Instr} (hi : Inv s) (hl : s.lifecycle = .active) (hw : written i s = some u) :
    u.pix.colors.length = s.cfg.n := by
  have hn := hi.pixels hl
  cases i <;> simp [written, -Subtype.exists] at hw
  case setPixel k c => obtain ⟨-, _, -, rfl⟩ := hw; simp [hn]
  case handleSet k c => obtain ⟨-, _, -, rfl⟩ := hw; simp [hn]
  case setAll c => obtain ⟨_, -, rfl⟩ := hw; simp
  case setBuffer cs =>
    obtain ⟨h, cols, h1, rfl⟩ := hw
    rw [(validBuffer_iff _ _).mp h1, List.length_map] at h
    exact h
  case setBrightness x => obtain ⟨_, -, rfl⟩ := hw; exact hn
  case turnOn => subst hw; simp
  case turnOff => subst hw; simp
  case flush => subst hw; exact hn

/-- CONSTRUCT with good operands (42_strip_controller R110). -/
theorem execConstruct_good {s : State} {n : ℕ+} {x : Rat} {d c : Nat} {f : Rat} (fs dbg : Bool) (id : Nat)
    (hl : s.lifecycle = .uninitialized) (h : Constructible s.plat n x d c f) :
    execConstruct (.rat n) (.rat x) d c fs dbg id (.rat f) s
      = constructWith ⟨n, d, c, fs, dbg, id, f⟩ (levelOf ⟨x, h.brightness⟩) s := by
  have h1 : pixelCount s.plat (.rat n) = some n := by
    obtain ⟨k, hk, -, hm⟩ := h.count
    have hkn : (n : Nat) = k := by simpa using hk
    exact (pixelCount_iff _ _ n).mpr ⟨rfl, fun m e => hkn ▸ hm m e⟩
  have h2 := unitNumber_rat h.brightness
  have h3 := (pinsUsable_iff s.plat d c).mpr h.pins
  have h4 := (positiveNumber_iff (.rat f) f).mpr ⟨rfl, h.frequency⟩
  simp only [execConstruct, hl, ne_eq, not_true, if_false, h1, h2, h3, if_true, h4]

/-- The answers a command gives without doing anything else: never TransportError, never the internal cause of ResourceError. -/
def plainResponse (r : Response) : Prop := r ≠ .error .transport ∧ r ≠ .error (.resource .channelUnavailable)

/-- Everything `exec` can do when it answers a next state. -/
theorem exec_cases {i : Instr} {s t : State} (h : exec i s = .next t) :
    (isCommand i = false ∧ ∃ bs, t = appendFrame bs s) ∨
    (isCommand i = true ∧ ∃ r, plainResponse r ∧ t = respond r s) ∨
    (s.lifecycle = .active ∧ ∃ u, written i s = some u ∧ commit u = .next t) ∨
    (isConstruct i = true ∧ s.lifecycle = .uninitialized ∧
      ∃ cfg x, constructWith cfg (levelOf x) s = .next t) ∨
    (i = .shutdown ∧ s.lifecycle = .active ∧
      ∃ u, release s = .next u ∧ t = respond (.ok .none) { u with lifecycle := .closed }) ∨
    (i = .pinToggleTest ∧ s.lifecycle = .active ∧
      t = respond (.ok .none) (unsuspend s.hwActive
        { toggleCycles s.plat.toggleCycles (suspend s) with clockLevel := false, dataLevel := false })) ∨
    (i = .pinDriveCheck ∧ s.lifecycle = .active ∧
      t = respond (.ok (.checks (runStages checkStages (suspend s)).1)) (unsuspend s.hwActive
        (restoreOutput .clock (restoreOutput .data (runStages checkStages (suspend s)).2)))) ∨
    (i = .showTestPattern ∧ s.lifecycle = .active ∧
      ∃ u, transmit (assembleFrame (writePixels (testPattern s.cfg.n) s)) = .next u ∧ restoreWhenSent s.pix u = .next t) := by
  have inact : ∀ (k : State → Result), s.lifecycle ≠ .active → requireActive k s = .next t →
      ∃ r, plainResponse r ∧ t = respond r s := by
    intro k hl hk
    rcases requireActive_cases k s with ⟨h1, -⟩ | ⟨-, h1⟩ | ⟨-, h1⟩
    · exact absurd h1 hl
    · exact ⟨.error .closed, by simp [plainResponse], by rw [h1] at hk; exact (Host.Outcome.next.inj hk).symm⟩
    · exact ⟨.error .illegal, by simp [plainResponse], by rw [h1] at hk; exact (Host.Outcome.next.inj hk).symm⟩
  have resp : ∀ r : Response, plainResponse r → Host.Outcome.next (respond r s) = (.next t : Result) →
      ∃ r, plainResponse r ∧ t = respond r s := fun r hr hk => ⟨r, hr, (Host.Outcome.next.inj hk).symm⟩
  have setP : ∀ k c, setPixel k c s = .next t → (∃ r, plainResponse r ∧ t = respond r s) ∨
      (s.lifecycle = .active ∧ k < s.cfg.n ∧ ∃ col, validColor c = some col ∧
        commit { s with pix := s.pix.set k col } = .next t) := by
    intro k c hk
    by_cases hl : s.lifecycle = .active
    · rw [setPixel, requireActive_active _ hl] at hk
      split at hk
      · exact .inl (resp _ (by simp [plainResponse]) hk)
      · next hn =>
        split at hk
        · exact .inl (resp _ (by simp [plainResponse]) hk)
        · next col hc =>
          split at hk
          · cases hk
          · exact .inr ⟨hl, by omega, col, hc, hk⟩
    · exact .inl (inact _ hl hk)
  have setA : ∀ c, setAll c s = .next t → (∃ r, plainResponse r ∧ t = respond r s) ∨
      (s.lifecycle = .active ∧ ∃ col, validColor c = some col ∧
        commit { s with pix := PixelBuffer.replicate s.cfg.n col } = .next t) := by
    intro c hk
    by_cases hl : s.lifecycle = .active
    · rw [setAll, requireActive_active _ hl] at hk
      split at hk
      · exact .inl (resp _ (by simp [plainResponse]) hk)
      · next col hc => exact .inr ⟨hl, col, hc, hk⟩
    · exact .inl (inact _ hl hk)
  have getP : ∀ k, getPixel k s = .next t → ∃ r, plainResponse r ∧ t = respond r s := by
    intro k hk
    by_cases hl : s.lifecycle = .active
    · rw [getPixel, requireActive_active _ hl] at hk
      split at hk
      · exact resp _ (by simp [plainResponse]) hk
      · split at hk
        · cases hk
        · exact resp _ (by simp [plainResponse]) hk
    · exact inact _ hl hk
  cases i with
  | start => exact .inl ⟨rfl, startBytes, (Host.Outcome.next.inj h).symm⟩
  | led l b g r => exact .inl ⟨rfl, ledBytes l b g r, (Host.Outcome.next.inj h).symm⟩
  | pad => exact .inl ⟨rfl, padBytes, (Host.Outcome.next.inj h).symm⟩
  | setPixel k c =>
    rcases setP k c h with h | ⟨hl, hk, col, hc, h⟩
    · exact .inr (.inl ⟨rfl, h⟩)
    · exact .inr (.inr (.inl ⟨hl, _, by simp [written, hk, hc], h⟩))
  | handleSet k c =>
    rcases setP k c h with h | ⟨hl, hk, col, hc, h⟩
    · exact .inr (.inl ⟨rfl, h⟩)
    · exact .inr (.inr (.inl ⟨hl, _, by simp [written, hk, hc], h⟩))
  | setAll c =>
    rcases setA c h with h | ⟨hl, col, hc, h⟩
    · exact .inr (.inl ⟨rfl, h⟩)
    · exact .inr (.inr (.inl ⟨hl, _, by simp [written, hc], h⟩))
  | turnOn =>
    rcases setA whiteOperand h with h | ⟨hl, col, hc, h⟩
    · exact .inr (.inl ⟨rfl, h⟩)
    · obtain rfl : ⟨1, 1, 1⟩ = col :=
        Option.some.inj ((validColor_colorOperand ⟨1, 1, 1⟩).symm.trans hc)
      exact .inr (.inr (.inl ⟨hl, _, rfl, h⟩))
  | turnOff =>
    rcases setA blackOperand h with h | ⟨hl, col, hc, h⟩
    · exact .inr (.inl ⟨rfl, h⟩)
    · obtain rfl : ⟨0, 0, 0⟩ = col :=
        Option.some.inj ((validColor_colorOperand ⟨0, 0, 0⟩).symm.trans hc)
      exact .inr (.inr (.inl ⟨hl, _, rfl, h⟩))
  | setBuffer cs =>
    rw [exec, execSetBuffer] at h
    by_cases hl : s.lifecycle = .active
    · rw [requireActive_active _ hl] at h
      split at h
      · exact .inr (.inl ⟨rfl, resp _ (by simp [plainResponse]) h⟩)
      · next hn =>
        split at h
        · exact .inr (.inl ⟨rfl, resp _ (by simp [plainResponse]) h⟩)
        · next cols hc => exact .inr (.inr (.inl ⟨hl, _, by simp [written, not_ne_iff.mp hn, hc]; rfl, h⟩))
    · exact .inr (.inl ⟨rfl, inact _ hl h⟩)
  | setBrightness x =>
    rw [exec, execSetBrightness] at h
    by_cases hl : s.lifecycle = .active
    · rw [requireActive_active _ hl] at h
      split at h
      · exact .inr (.inl ⟨rfl, resp _ (by simp [plainResponse]) h⟩)
      · next q hq => exact .inr (.inr (.inl ⟨hl, _, by simp [written, hq], h⟩))
    · exact .inr (.inl ⟨rfl, inact _ hl h⟩)
  | flush =>
    rw [exec, execFlush] at h
    by_cases hl : s.lifecycle = .active
    · exact .inr (.inr (.inl ⟨hl, s, rfl, by rwa [requireActive_active _ hl] at h⟩))
    · exact .inr (.inl ⟨rfl, inact _ hl h⟩)
  | getPixel k => exact .inr (.inl ⟨rfl, getP k h⟩)
  | handleGet k => exact .inr (.inl ⟨rfl, getP k h⟩)
  | getBuffer =>
    rw [exec, execGetBuffer] at h
    by_cases hl : s.lifecycle = .active
    · rw [requireActive_active _ hl] at h
      exact .inr (.inl ⟨rfl, resp _ (by simp [plainResponse]) h⟩)
    · exact .inr (.inl ⟨rfl, inact _ hl h⟩)
  | getBrightness =>
    rw [exec, execGetBrightness] at h
    by_cases hl : s.lifecycle = .active
    · rw [requireActive_active _ hl] at h
      exact .inr (.inl ⟨rfl, resp _ (by simp [plainResponse]) h⟩)
    · exact .inr (.inl ⟨rfl, inact _ hl h⟩)
  | averageColor =>
    rw [exec, execAverageColor] at h
    by_cases hl : s.lifecycle = .active
    · rw [requireActive_active _ hl] at h
      exact .inr (.inl ⟨rfl, resp _ (by simp [plainResponse]) h⟩)
    · exact .inr (.inl ⟨rfl, inact _ hl h⟩)
  | shutdown =>
    cases hl : s.lifecycle with
    | uninitialized =>
      simp only [exec, execShutdown, hl] at h
      exact .inr (.inl ⟨rfl, resp _ (by simp [plainResponse]) h⟩)
    | closed =>
      simp only [exec, execShutdown, hl] at h
      exact .inr (.inl ⟨rfl, resp _ (by simp [plainResponse]) h⟩)
    | active =>
      simp only [exec, execShutdown, hl] at h
      obtain ⟨u, h1, h2⟩ := andThen_next h
      exact .inr (.inr (.inr (.inr (.inl ⟨rfl, rfl, u, h1, (Host.Outcome.next.inj h2).symm⟩))))
  | pinToggleTest =>
    rw [exec, execPinToggleTest] at h
    by_cases hl : s.lifecycle = .active
    · rw [requireActive_active _ hl] at h
      exact .inr (.inr (.inr (.inr (.inr (.inl ⟨rfl, hl, (Host.Outcome.next.inj h).symm⟩)))))
    · exact .inr (.inl ⟨rfl, inact _ hl h⟩)
  | pinDriveCheck =>
    rw [exec, execPinDriveCheck] at h
    by_cases hl : s.lifecycle = .active
    · rw [requireActive_active _ hl] at h
      exact .inr (.inr (.inr (.inr (.inr (.inr (.inl ⟨rfl, hl, (Host.Outcome.next.inj h).symm⟩))))))
    · exact .inr (.inl ⟨rfl, inact _ hl h⟩)
  | showTestPattern =>
    rw [exec, execShowTestPattern] at h
    by_cases hl : s.lifecycle = .active
    · rw [requireActive_active _ hl] at h
      obtain ⟨u, h1, h2⟩ := andThen_next h
      exact .inr (.inr (.inr (.inr (.inr (.inr (.inr ⟨rfl, hl, u, h1, h2⟩))))))
    · exact .inr (.inl ⟨rfl, inact _ hl h⟩)
  | construct n x d c fs dbg id f =>
    simp only [exec, execConstruct] at h
    split at h
    · exact .inr (.inl ⟨rfl, resp _ (by simp [plainResponse]) h⟩)
    · next hl =>
      split at h
      · exact .inr (.inl ⟨rfl, resp _ (by simp [plainResponse]) h⟩)
      · next count hn =>
        split at h
        · exact .inr (.inl ⟨rfl, resp _ (by simp [plainResponse]) h⟩)
        · next q hx =>
          split at h
          · split at h
            · exact .inr (.inl ⟨rfl, resp _ (by simp [plainResponse]) h⟩)
            · exact .inr (.inr (.inr (.inl ⟨rfl, not_ne_iff.mp hl, _, q, h⟩)))
          · exact .inr (.inl ⟨rfl, resp _ (by simp [plainResponse]) h⟩)

/-- The suspension of an active channel: `HwSuspend`, a front of the queued bits, the rest lost; the levels are those the last of
these bits leaves (44_diagnostics R141, R142). -/
theorem suspend_active {s : State} (h : suspends s = true) :
    ∃ bits e, bits <+: queuedBits s ∧
      suspend s = { s with trace := s.trace ++ .hwSuspend :: bits.map .wireBit, hwActive := false, hwq := [], headSent := 0,
                           dataLevel := bits.getLast?.getD s.dataLevel, clockLevel := s.clockLevel && bits.isEmpty,
                           env := e } := by
  obtain ⟨bits, u, hr, hc, -⟩ := cutQueue_ran (emit .hwSuspend s)
  refine ⟨bits, u.env, ⟨_, hr.2.1⟩, ?_⟩
  rw [suspend, if_pos h, hc, hr.1]
  simp [emit]

/-- The suspension of an active channel draws how many bits survive, where any are queued (D17). -/
theorem suspend_env {s : State} (h : suspends s = true) :
    (suspend s).env = if s.hwq = [] then s.env else (takeCutBits s.env).2 := by
  obtain ⟨bits, u, -, hc, he⟩ := cutQueue_ran (emit .hwSuspend s)
  rw [suspend, if_pos h, hc]
  exact he

/-- RELEASE from an active transport (41_transport R105, R106). -/
theorem release_cases {s u : State} (h : release s = .next u) :
    (∃ d c, s.transport = .softwareTimed d c ∧
      u = { s with transport := .none, dataOwner := .unclaimed, clockOwner := .unclaimed }) ∨
    (∃ i bits dl cl e, s.transport = .hardwareTimed i ∧ bits <+: queuedBits s ∧
      u = { s with trace := s.trace ++ .hwRelease :: bits.map .wireBit, hwActive := false, hwq := [], headSent := 0,
                   transport := .none, dataOwner := .unclaimed, clockOwner := .unclaimed, dataLevel := dl,
                   clockLevel := cl, env := e }) := by
  unfold release at h
  split at h
  · cases h
  · next i ht =>
    obtain ⟨bits, v, hr, hc, -⟩ := cutQueue_ran (emit .hwRelease s)
    have hu := (Host.Outcome.next.inj h).symm
    refine .inr ⟨i, bits, u.dataLevel, u.clockLevel, u.env, ht, ⟨_, hr.2.1⟩, ?_⟩
    rw [hu, hc, hr.1]
    simp [undrivePins, setPinOwners, emit]
  · next d c ht => exact .inl ⟨d, c, ht, (Host.Outcome.next.inj h).symm⟩

/-- CONSTRUCT after its checks (42_strip_controller R110): no transport and an error, or the transport, the writes and the first
commit or the response. -/
theorem constructWith_cases {cfg : Cfg} {l : Level} {s t : State} (h : constructWith cfg l s = .next t) :
    (∃ e, t = respond (.error (.resource .pin)) { s with env := e } ∨
      t = respond (.error (.resource .pin)) { s with env := e, trace := s.trace ++ [.log] }) ∨
    (∃ tr u, ((∃ v e, cfg.forceSoftware = false ∧ tr = .hardwareTimed cfg.hwChannelId ∧
          u = claimHardware v cfg.hwChannelId cfg.hwFreqHz cfg.dataPin cfg.clockPin { s with env := e }) ∨
        (∃ e lg, tr = .softwareTimed cfg.dataPin cfg.clockPin ∧
          u = claimSoftware cfg.dataPin cfg.clockPin { s with env := e, trace := s.trace ++ lg })) ∧
      ((s.plat.initFlush = true ∧ commit (constructed cfg l tr u) = .next t) ∨
       (s.plat.initFlush = false ∧ t = respond (.ok .none) (constructed cfg l tr u)))) := by
  have go : ∀ tr u, u.plat = s.plat →
      select cfg.forceSoftware cfg.debug cfg.hwChannelId cfg.hwFreqHz cfg.dataPin cfg.clockPin s = (some tr, u) →
      ((s.plat.initFlush = true ∧ commit (constructed cfg l tr u) = .next t) ∨
       (s.plat.initFlush = false ∧ t = respond (.ok .none) (constructed cfg l tr u))) := by
    intro tr u hp hs
    simp only [constructWith, hs] at h
    have hp' : (constructed cfg l tr u).plat = s.plat := hp
    rw [hp'] at h
    split at h
    · next hf => exact .inl ⟨hf, h⟩
    · next hf => exact .inr ⟨by simpa using hf, (Host.Outcome.next.inj h).symm⟩
  rcases select_cases cfg.forceSoftware cfg.debug cfg.hwChannelId cfg.hwFreqHz cfg.dataPin cfg.clockPin s with
    ⟨v, e, hf, hs⟩ | ⟨e, hs⟩ | ⟨e, hf, hd, hs⟩ | ⟨e, hs⟩ | ⟨e, hf, hd, hs⟩
  · exact .inr ⟨_, _, .inl ⟨v, e, hf, rfl, rfl⟩, go _ _ rfl hs⟩
  · exact .inr ⟨_, _, .inr ⟨e, [], rfl, by simp⟩, go _ _ (by simp [claimSoftware_eq]) hs⟩
  · exact .inr ⟨_, _, .inr ⟨e, [.log], rfl, rfl⟩, go _ _ (by simp [claimSoftware_eq]) hs⟩
  · simp only [constructWith, hs] at h
    exact .inl ⟨e, .inl (Host.Outcome.next.inj h).symm⟩
  · simp only [constructWith, hs] at h
    exact .inl ⟨e, .inr (Host.Outcome.next.inj h).symm⟩

/-- No command decodes to a frame element. -/
theorem decodeCommand_isCommand {r : Request} {i : Instr} (h : decodeCommand r = .ok i) : isCommand i = true := by
  unfold decodeCommand at h
  split at h
  all_goals first
    | (cases h; rfl)
    | (split at h <;> cases h)

end Sys2Proof.Machine
end

