-- ==== Sys2Proof/Laws/Memory.lean ====
section
/-! SUPPORT. The frame byte space as cells: every state's memory is in canonical form, so every memory operation keeps the form and
the reset memory has it; and reading after appending (00_scope section 5; log 15). -/

namespace Sys2Proof.Machine

/-- The cells of a list of bytes are numbered from 0 up, so their addresses rise. -/
theorem Memory.cells_wf (s : State) : Memory.wf (Memory.cells s) := by
  have h : (Memory.cells s).map Prod.fst = List.range' 0 s.frame.length := by
    simp [Memory.cells, List.map_map, Function.comp_def, List.zipIdx_map_snd]
  rw [Memory.wf, h]
  exact List.pairwise_lt_range'

theorem Memory.wf_reset : Memory.wf (Memory.cells State.reset) := Memory.cells_wf _

theorem Memory.wf_appendFrame (bs : List Byte) (s : State) : Memory.wf (Memory.cells (appendFrame bs s)) := Memory.cells_wf _

theorem Memory.wf_assembleFrame (s : State) : Memory.wf (Memory.cells (assembleFrame s)) := Memory.cells_wf _

/-- A cell is listed with the byte that is read at its address. -/
theorem Memory.mem_cells (s : State) (k : Nat) (b : Byte) : (k, b) ∈ Memory.cells s ↔ readFrame s k = some b := by
  simp [Memory.cells, readFrame, List.mem_zipIdx_iff_getElem?]

/-- What was in the frame before an append is still there. -/
theorem readFrame_appendFrame_old (bs : List Byte) (s : State) {k : Nat} (h : k < s.frame.length) :
    readFrame (appendFrame bs s) k = readFrame s k := by
  simp [readFrame, appendFrame, List.getElem?_append_left h]

/-- The bytes appended are read back, at ascending offsets. -/
theorem readFrame_appendFrame_new (bs : List Byte) (s : State) (k : Nat) :
    readFrame (appendFrame bs s) (s.frame.length + k) = bs[k]? := by
  simp only [readFrame, appendFrame]
  rw [List.getElem?_append_right (by omega)]
  simp

/-- A pixel reads as written, and every other entry as before (20_memory R34). -/
theorem readPixel_writePixel (i j : Nat) (c : Color) (s : State) (h : i < s.pix.colors.length) :
    readPixel (writePixel i c s) j = if i = j then some c else readPixel s j := by
  simp [readPixel, writePixel, List.getElem?_set, h]

end Sys2Proof.Machine
end

