-- ==== Sys2Proof/Laws/PerInstr.lean ====
section
/-! SUPPORT. Statements for every instruction, one lemma per constructor. -/

namespace Sys2Proof.Laws

/-- What the encoder writes is well formed: the opcode is assigned and the operands are those of its row, or the word is a frame
element (30_encoding R46 to R48, R59). -/
def EncodedWellFormed.Statement (i : Instr) : Prop := i.wellFormed = true

theorem EncodedWellFormed.construct (n x : Number) (d c : Nat) (fs dbg : Bool) (id : Nat) (f : Number) : EncodedWellFormed.Statement (.construct n x d c fs dbg id f) := rfl

theorem EncodedWellFormed.setPixel (i : Nat) (c : ColorOperand) : EncodedWellFormed.Statement (.setPixel i c) := rfl

theorem EncodedWellFormed.setAll (c : ColorOperand) : EncodedWellFormed.Statement (.setAll c) := rfl

theorem EncodedWellFormed.setBuffer (cs : List ColorOperand) : EncodedWellFormed.Statement (.setBuffer cs) := rfl

theorem EncodedWellFormed.getPixel (i : Nat) : EncodedWellFormed.Statement (.getPixel i) := rfl

theorem EncodedWellFormed.getBuffer : EncodedWellFormed.Statement .getBuffer := rfl

theorem EncodedWellFormed.averageColor : EncodedWellFormed.Statement .averageColor := rfl

theorem EncodedWellFormed.setBrightness (x : Number) : EncodedWellFormed.Statement (.setBrightness x) := rfl

theorem EncodedWellFormed.getBrightness : EncodedWellFormed.Statement .getBrightness := rfl

theorem EncodedWellFormed.turnOn : EncodedWellFormed.Statement .turnOn := rfl

theorem EncodedWellFormed.turnOff : EncodedWellFormed.Statement .turnOff := rfl

theorem EncodedWellFormed.flush : EncodedWellFormed.Statement .flush := rfl

theorem EncodedWellFormed.shutdown : EncodedWellFormed.Statement .shutdown := rfl

theorem EncodedWellFormed.handleGet (i : Nat) : EncodedWellFormed.Statement (.handleGet i) := rfl

theorem EncodedWellFormed.handleSet (i : Nat) (c : ColorOperand) : EncodedWellFormed.Statement (.handleSet i c) := rfl

theorem EncodedWellFormed.pinToggleTest : EncodedWellFormed.Statement .pinToggleTest := rfl

theorem EncodedWellFormed.pinDriveCheck : EncodedWellFormed.Statement .pinDriveCheck := rfl

theorem EncodedWellFormed.showTestPattern : EncodedWellFormed.Statement .showTestPattern := rfl

theorem EncodedWellFormed.start : EncodedWellFormed.Statement .start := rfl

theorem EncodedWellFormed.led (l : Level) (b g r : Byte) : EncodedWellFormed.Statement (.led l b g r) := by
  simp [EncodedWellFormed.Statement, Instr.wellFormed, encode, Code.wellFormed, FrameWord.wellFormed, ledWord_prefix]

theorem EncodedWellFormed.pad : EncodedWellFormed.Statement .pad := rfl

end Sys2Proof.Laws
end

