-- ==== Sys2Proof/Tests/Slice0.lean ====
section
/-! SUPPORT. Tests of one step or one operation on fixed values, from the vectors of spec/95_test_vectors.md (T, V and P numbers) and from
encodings written out by hand; and for every obligation with hypotheses a witness that they can be met. -/

namespace Sys2Proof.Machine.Tests

/- One proof at a time: the tests are many small kernel evaluations, and each one running takes a thread of its own. -/
set_option Elab.async false

/-! ### Encodings, written out bit by bit from 30_encoding R46 to R48 and R59 -/

theorem test_decode_construct :
    decodeCommand ⟨0b00000000#8, [.number (.rat 3), .number (.rat 1), .pin 2, .pin 3, .flag true, .flag false, .ident 0,
      .number (.rat 1000000)]⟩ = .ok (.construct (.rat 3) (.rat 1) 2 3 true false 0 (.rat 1000000)) := rfl
theorem test_decode_setPixel :
    decodeCommand ⟨0b00000001#8, [.natural 1, .color ⟨.rat 0, .rat 0, .rat 1⟩]⟩ = .ok (.setPixel 1 ⟨.rat 0, .rat 0, .rat 1⟩) := rfl
theorem test_decode_setAll :
    decodeCommand ⟨0b00000010#8, [.color ⟨.rat 0, .nan, .rat 1⟩]⟩ = .ok (.setAll ⟨.rat 0, .nan, .rat 1⟩) := rfl
theorem test_decode_setBuffer :
    decodeCommand ⟨0b00000011#8, [.colors [⟨.rat 1, .rat 0, .rat 0⟩]]⟩ = .ok (.setBuffer [⟨.rat 1, .rat 0, .rat 0⟩]) := rfl
theorem test_decode_getPixel : decodeCommand ⟨0b00000100#8, [.natural 7]⟩ = .ok (.getPixel 7) := rfl
theorem test_decode_getBuffer : decodeCommand ⟨0b00000101#8, []⟩ = .ok .getBuffer := rfl
theorem test_decode_averageColor : decodeCommand ⟨0b00000110#8, []⟩ = .ok .averageColor := rfl
theorem test_decode_setBrightness :
    decodeCommand ⟨0b00000111#8, [.number .nan]⟩ = .ok (.setBrightness .nan) := rfl
theorem test_decode_getBrightness : decodeCommand ⟨0b00001000#8, []⟩ = .ok .getBrightness := rfl
theorem test_decode_on : decodeCommand ⟨0b00001001#8, []⟩ = .ok .turnOn := rfl
theorem test_decode_off : decodeCommand ⟨0b00001010#8, []⟩ = .ok .turnOff := rfl
theorem test_decode_flush : decodeCommand ⟨0b00001011#8, []⟩ = .ok .flush := rfl
theorem test_decode_shutdown : decodeCommand ⟨0b00001100#8, []⟩ = .ok .shutdown := rfl
theorem test_decode_handleGet : decodeCommand ⟨0b00001101#8, [.natural 2]⟩ = .ok (.handleGet 2) := rfl
theorem test_decode_handleSet :
    decodeCommand ⟨0b00001110#8, [.natural 0, .color ⟨.rat 0, .rat 0, .rat 1⟩]⟩ = .ok (.handleSet 0 ⟨.rat 0, .rat 0, .rat 1⟩) := rfl
theorem test_decode_pinToggleTest : decodeCommand ⟨0b00010000#8, []⟩ = .ok .pinToggleTest := rfl
theorem test_decode_pinDriveCheck : decodeCommand ⟨0b00010001#8, []⟩ = .ok .pinDriveCheck := rfl
theorem test_decode_showTestPattern : decodeCommand ⟨0b00010010#8, []⟩ = .ok .showTestPattern := rfl
theorem test_decode_start : decodeFrame (.word 0b00000000_00000000_00000000_00000000#32) = .ok .start := by decide
/-- Prefix 111, level 01010, blue FF, green AA, red 55: the LED block of V4's seventh row. -/
theorem test_decode_led :
    decodeFrame (.word 0b111_01010_11111111_10101010_01010101#32) = .ok (.led 10#5 0xFF#8 0xAA#8 0x55#8) := by decide
theorem test_decode_pad : decodeFrame (.byte 0b00000000#8) = .ok .pad := by decide

/-- The opcode table's words: LED with level 1, blue 2, green 3, red 4. -/
theorem test_tableWord_led : decodeTableWord 32 0xE1020304 = some (.led 1#5 2#8 3#8 4#8) := by decide
/-- An opcode-table word of a command stands for operands of zeros (log 1). -/
theorem test_tableWord_setPixel :
    decodeTableWord 8 0x01 = some (.setPixel 0 ⟨.rat 0, .rat 0, .rat 0⟩) := by decide

/-! ### What WellFormed refuses, one term for each check -/

/-- V44: reserved opcodes. -/
theorem test_illFormed_opcode :
    [0x0F#8, 0x13#8, 0x80#8, 0xFF#8].map (fun op => (Code.cmd ⟨op, []⟩).wellFormed) = [false, false, false, false] := by decide
theorem test_illFormed_kind : (Code.cmd ⟨0x04#8, [.pin 0]⟩).wellFormed = false := by decide
theorem test_illFormed_missing : (Code.cmd ⟨0x01#8, [.natural 0]⟩).wellFormed = false := by decide
theorem test_illFormed_extra : (Code.cmd ⟨0x05#8, [.natural 0]⟩).wellFormed = false := by decide
theorem test_illFormed_order :
    (Code.cmd ⟨0x01#8, [.color ⟨.rat 0, .rat 0, .rat 0⟩, .natural 0]⟩).wellFormed = false := by decide
theorem test_illFormed_prefix : (Code.frame (.word 0xC0000000#32)).wellFormed = false := by decide
theorem test_illFormed_start : (Code.frame (.word 0x00000001#32)).wellFormed = false := by decide
theorem test_illFormed_pad : (Code.frame (.byte 0x01#8)).wellFormed = false := by decide
theorem test_refusals :
    decodeCommand ⟨0x0F#8, []⟩ = .error (.reservedOpcode 0x0F#8) ∧
    decodeCommand ⟨0x04#8, [.pin 0]⟩ = .error (.badOperands 0x04#8) ∧
    decodeFrame (.word 0xC0000000#32) = .error (.notAFrameElement (.word 0xC0000000#32)) := ⟨rfl, rfl, by decide⟩

/-! ### Test states -/

/-- A platform: pins 2 and 3, no depth limit, no first flush. -/
def plat : Platform :=
  { nMax := some 300, validPins := [2, 3], hwqDepth := none, initFlush := false, bitDelayUs := ⟨1, 1⟩, toggleCycles := 2,
    toggleDelayMs := ⟨5, by norm_num⟩, patternHold := ⟨7, by norm_num⟩ }

/-- An environment that answers the first draws: hardware initialisation fails, both pins are claimable, the channel is ready for two
bytes and then not. -/
def env : Env :=
  { hwInit := [.fail 0], pinClaim := [true, true], hwReady := [true, true, false], channelBits := [], cutBits := [2],
    modeSupported := [true, true, false, true, true, true, false, true], readBack := [], undrivenLevel := [], drawn := 0 }

/-- After reset, on that platform. -/
def fresh : State := { State.reset with plat := plat, env := env }

/-- The same where the hardware initialisation succeeds, with and without a first flush. -/
def freshWith (b : Bool) : State :=
  { fresh with plat := { plat with initFlush := b }, env := { env with hwInit := [.ok 5] } }

/-- The first with a first flush and a channel ready for thirteen bytes. -/
def freshReady : State :=
  { fresh with plat := { plat with initFlush := true },
               env := { env with hwInit := [.ok 5], hwReady := List.replicate 13 true } }

/-- The same where the clock pin cannot be claimed. -/
def freshNoPin : State := { fresh with env := { env with pinClaim := [true, false] } }

/-- The same with no answer of `hw_init_outcome` scripted. -/
def freshForced : State := { fresh with env := { env with hwInit := [], pinClaim := [true, false] } }

/-- One half, as a channel. -/
def half : Normalized := ⟨1 / 2, by norm_num⟩

/-- One red and one green pixel. -/
def redGreen : PixelBuffer := ⟨[⟨1, 0, 0⟩, ⟨0, 1, 0⟩], by simp⟩

/-- The start of V13 to V37 on the software-timed transport: two pixels, red and green, level 31. -/
def soft : State :=
  { fresh with
    lifecycle := .active
    cfg := { n := 2, dataPin := 2, clockPin := 3, forceSoftware := true, debug := false, hwChannelId := 0, hwFreqHz := 1000000 }
    pix := redGreen
    bright := 31
    transport := .softwareTimed 2 3
    dataDir := .output
    clockDir := .output
    dataOwner := .gpio
    clockOwner := .gpio }

/-- The same on the hardware-timed transport, with one byte `0x80` queued, none of its bits out. -/
def hard : State :=
  { soft with
    cfg := { n := 2, dataPin := 2, clockPin := 3, forceSoftware := false, debug := false, hwChannelId := 0, hwFreqHz := 1000000 }
    transport := .hardwareTimed 0
    hwActive := true
    dataOwner := .peripheral
    clockOwner := .peripheral
    hwq := [0x80#8]
    env := { env with channelBits := [1, 0, 0, 0, 0] } }

/-- A SET_PIXEL that waits for the channel at byte 2 of its frame, the channel not ready. -/
def waiting : State :=
  { hard with
    frame := encodeFrame redGreen 31
    ser := some ⟨2, none, none⟩
    inFlight := some .reply
    env := { env with hwReady := [false], channelBits := [0] } }

/-- The same with a channel that is ready for the fifteen bytes left. -/
def waitingReady : State :=
  { waiting with env := { env with hwReady := List.replicate 15 true, channelBits := List.replicate 15 0 } }

/-- The same with the shortest queue, one byte deep, and a channel that puts out a byte at each of its chances. -/
def waitingBounded : State :=
  { waiting with
    plat := { plat with hwqDepth := some 1 }
    env := { env with hwReady := List.replicate 32 true, channelBits := List.replicate 33 8 } }

/-- A SHOW_TEST_PATTERN that waits with its snapshot. -/
def waitingPattern : State :=
  { waiting with inFlight := some (.restore redGreen) }

/-- The same with the queue and the channel of `waitingBounded`, ready for the fifteen bytes left and the seventeen of the second
frame. -/
def waitingPatternReady : State :=
  { waitingBounded with inFlight := some (.restore redGreen) }

/-- `hard` with a channel that takes `k` bytes, puts nothing out meanwhile, and then is not ready. -/
def readyFor (k : Nat) : State :=
  { hard with env := { env with hwReady := List.replicate k true ++ [false], channelBits := List.replicate 40 0 } }

/-- Seven black pixels on the software-timed transport (V62). -/
def seven : State :=
  { soft with
    cfg := { n := 7, dataPin := 2, clockPin := 3, forceSoftware := true, debug := false, hwChannelId := 0, hwFreqHz := 1000000 }
    pix := PixelBuffer.replicate 7 ⟨0, 0, 0⟩ }

/-- A closed block. -/
def closed : State :=
  { soft with lifecycle := .closed, transport := .none, dataOwner := .unclaimed, clockOwner := .unclaimed }

/-- What a test looks at in a next state. -/
def view {α : Type} (f : State → α) : Result → Option α
  | .next s => some (f s)
  | .fault _ => none
  | .refused _ => none

/-! ### The numbers -/

/-- V1. -/
theorem test_chanByte :
    [0, 1 / 510, 1 / 256, 1 / 255, 1 / 10, 1 / 3, 1 / 2, 128 / 255, 2 / 3, 254 / 255, 999 / 1000, 1].map
        (fun v => (unitNumber (.rat v)).map (fun v => (chanByte v).toNat))
      = [0, 0, 0, 1, 25, 85, 127, 128, 170, 254, 254, 255].map some := by decide +kernel
/-- V5. -/
theorem test_levelOf :
    [0, 4 / 125, 1 / 31, 323 / 10000, 1 / 2, 16 / 31, 30 / 31, 99 / 100, 1].map
        (fun x => (unitNumber (.rat x)).map (fun x => (levelOf x).toNat))
      = [0, 0, 1, 1, 15, 16, 30, 30, 31].map some := by decide +kernel
/-- V5, the refused operands: below 0, above 1, an integer level, no number. -/
theorem test_unitNumber :
    [Number.rat (-1 / 100), .rat (101 / 100), .rat 31, .nan, .rat 0, .rat 1].map unitNumber
      = [none, none, none, none, some 0, some 1] := by decide +kernel
/-- V2. -/
theorem test_headerByte :
    [0#5, 1#5, 7#5, 15#5, 16#5, 31#5].map headerByte = [0xE0#8, 0xE1#8, 0xE7#8, 0xEF#8, 0xF0#8, 0xFF#8] := by decide
/-- V3: the pad grows one past each multiple of 16. -/
theorem test_padCount : [1, 16, 17, 32, 33, 48, 49, 256].map padCount = [5, 5, 6, 6, 7, 7, 8, 20] := by decide
/-- V4, row 7: level 10, `(1/3, 2/3, 1)`. -/
theorem test_encodeFrame :
    encodeFrame ⟨[⟨⟨1 / 3, by norm_num⟩, ⟨2 / 3, by norm_num⟩, 1⟩], by simp⟩ 10
      = [0, 0, 0, 0, 0xEA, 0xFF, 0xAA, 0x55, 0, 0, 0, 0, 0] := by decide +kernel
/-- T8. -/
theorem test_encodeFrame_endToEnd :
    encodeFrame ⟨[⟨1, 0, 0⟩, ⟨0, 1, 0⟩, ⟨0, 0, 1⟩], by simp⟩ 31
      = [0, 0, 0, 0, 0xFF, 0, 0, 0xFF, 0xFF, 0, 0xFF, 0, 0xFF, 0xFF, 0, 0, 0, 0, 0, 0, 0] := by decide +kernel
/-- V7, the byte `EF`: the wire bits, and the first events. -/
theorem test_frameEvents :
    wireBitsFrom false false (frameEvents 1 [0xEF#8]) = [true, true, true, false, true, true, true, true] ∧
    (frameEvents 1 [0xEF#8]).take 5
      = [.pin .data true, .pin .clock true, .delay (.us 1), .pin .clock false, .delay (.us 1)] := by decide +kernel

/-! ### The frame elements -/

theorem test_start : view State.frame (exec .start soft) = some [0, 0, 0, 0] := by decide +kernel
theorem test_led :
    view State.frame (exec (.led 15#5 0xBF#8 0x3F#8 0x7F#8) { soft with frame := [0, 0] })
      = some [0, 0, 0xEF, 0xBF, 0x3F, 0x7F] := by decide +kernel
theorem test_pad : view State.frame (exec .pad { soft with frame := [1] }) = some [1, 0] := by decide +kernel

/-! ### CONSTRUCT and SHUTDOWN -/

/-- P4, command 1, with debug: the fallback, its events. -/
theorem test_construct_fallsBack :
    view (fun s => (s.pix.colors, s.bright, s.transport, s.trace))
        (exec (.construct (.rat 1) (.rat (1 / 2)) 2 3 false true 0 (.rat 1000000)) fresh)
      = some ([⟨0, 0, 0⟩], 15, .softwareTimed 2 3,
          [.log, .pinClaim 2, .pinClaim 3, .pin .clock false, .pin .data false]) := by decide +kernel
/-- V48, V47, V49, V50: the order of the checks. -/
theorem test_construct_refuses :
    [exec (.construct (.rat 0) (.rat 2) 2 3 true false 0 (.rat 1)) fresh,
     exec (.construct (.rat 1) (.rat (11 / 10)) 2 2 true false 0 (.rat 1)) fresh,
     exec (.construct (.rat 1) (.rat 1) 2 2 true false 0 (.rat 1)) fresh,
     exec (.construct (.rat 1) (.rat 1) 2 3 true false 0 (.rat 0)) fresh].map (view (fun s => (s.lifecycle, s.responses)))
      = [some (.uninitialized, [.error (.validation .param)]), some (.uninitialized, [.error (.validation .brightness)]),
         some (.uninitialized, [.error (.validation .param)]), some (.uninitialized, [.error (.validation .param)])] := by
  decide +kernel
/-- V38 on the software-timed transport: closed, no event. -/
theorem test_shutdown_software :
    view (fun s => (s.lifecycle, s.transport, s.dataOwner, s.trace, s.responses)) (exec .shutdown soft)
      = some (.closed, .none, .unclaimed, [], [.ok .none]) := by decide +kernel
/-- P3, command 8: `HwRelease`, then a front of the queued bits (here two bits, as the environment draws). -/
theorem test_shutdown_hardware :
    view (fun s => (s.lifecycle, s.hwActive, s.hwq, s.trace)) (exec .shutdown hard)
      = some (.closed, false, [], [.hwRelease, .wireBit true, .wireBit false]) := by decide +kernel

/-! ### Writing and reading -/

/-- V13. -/
theorem test_setPixel :
    view (fun s => (s.pix.colors, s.frame, s.responses)) (exec (.setPixel 1 ⟨.rat 0, .rat 0, .rat 1⟩) soft)
      = some ([⟨1, 0, 0⟩, ⟨0, 0, 1⟩],
          [0, 0, 0, 0, 0xFF, 0, 0, 0xFF, 0xFF, 0xFF, 0, 0, 0, 0, 0, 0, 0], [.ok .none]) := by decide +kernel
/-- V17: INDEX before CHANNEL, nothing written. -/
theorem test_setPixel_index :
    view (fun s => (s.pix.colors, s.trace, s.responses)) (exec (.setPixel 2 ⟨.rat 2, .rat 0, .rat 0⟩) soft)
      = some ([⟨1, 0, 0⟩, ⟨0, 1, 0⟩], [], [.error (.validation .index)]) := by decide +kernel
/-- V19. -/
theorem test_setAll :
    view (fun s => (s.pix.colors, s.frame, s.responses)) (exec (.setAll ⟨.rat 0, .rat 0, .rat 1⟩) soft)
      = some ([⟨0, 0, 1⟩, ⟨0, 0, 1⟩], [0, 0, 0, 0, 0xFF, 0xFF, 0, 0, 0xFF, 0xFF, 0, 0, 0, 0, 0, 0, 0], [.ok .none]) := by
  decide +kernel
/-- V20. -/
theorem test_setAll_channel :
    view (fun s => (s.pix.colors, s.responses)) (exec (.setAll ⟨.rat 0, .rat (-1 / 10), .rat 0⟩) soft)
      = some ([⟨1, 0, 0⟩, ⟨0, 1, 0⟩], [.error (.validation .channel)]) := by decide +kernel
/-- V21. -/
theorem test_setBuffer :
    view (fun s => (s.pix.colors, s.frame)) (exec (.setBuffer [⟨.rat 0, .rat 0, .rat 0⟩, ⟨.rat 1, .rat 1, .rat 1⟩]) soft)
      = some ([⟨0, 0, 0⟩, ⟨1, 1, 1⟩], [0, 0, 0, 0, 0xFF, 0, 0, 0, 0xFF, 0xFF, 0xFF, 0xFF, 0, 0, 0, 0, 0]) := by decide +kernel
/-- V26: LENGTH before CHANNEL. -/
theorem test_setBuffer_length :
    view (fun s => (s.pix.colors, s.responses)) (exec (.setBuffer [⟨.rat 0, .rat 0, .rat 2⟩]) soft)
      = some ([⟨1, 0, 0⟩, ⟨0, 1, 0⟩], [.error (.validation .length)]) := by decide +kernel
/-- V27. -/
theorem test_getPixel :
    view (fun s => s.responses) (exec (.getPixel 0) soft) = some [.ok (.color ⟨1, 0, 0⟩)] := by decide +kernel
/-- V28. -/
theorem test_getPixel_index :
    view (fun s => s.responses) (exec (.getPixel 2) soft) = some [.error (.validation .index)] := by decide +kernel
/-- V29. -/
theorem test_getBuffer :
    view (fun s => s.responses) (exec .getBuffer soft) = some [.ok (.colors [⟨1, 0, 0⟩, ⟨0, 1, 0⟩])] := by decide +kernel
/-- V30. -/
theorem test_averageColor :
    view (fun s => s.responses) (exec .averageColor soft) = some [.ok (.color ⟨half, half, 0⟩)] := by decide +kernel
/-- V31. -/
theorem test_setBrightness :
    view (fun s => (s.bright, s.pix.colors, s.frame)) (exec (.setBrightness (.rat (1 / 2))) soft)
      = some (15, [⟨1, 0, 0⟩, ⟨0, 1, 0⟩], [0, 0, 0, 0, 0xEF, 0, 0, 0xFF, 0xEF, 0, 0xFF, 0, 0, 0, 0, 0, 0]) := by decide +kernel
/-- V33. -/
theorem test_setBrightness_refused :
    view (fun s => (s.bright, s.responses)) (exec (.setBrightness (.rat (3 / 2))) soft)
      = some (31, [.error (.validation .brightness)]) := by decide +kernel
/-- V34, and V5's row 15. -/
theorem test_getBrightness :
    view (fun s => s.responses) (exec .getBrightness { soft with bright := 15 }) = some [.ok (.brightness (15 / 31))] := by
  decide +kernel
/-- V35. -/
theorem test_on : view (fun s => s.pix.colors) (exec .turnOn soft) = some [⟨1, 1, 1⟩, ⟨1, 1, 1⟩] := by decide +kernel
/-- V36: the level stays. -/
theorem test_off :
    view (fun s => (s.pix.colors, s.bright, s.frame)) (exec .turnOff soft)
      = some ([⟨0, 0, 0⟩, ⟨0, 0, 0⟩], 31, [0, 0, 0, 0, 0xFF, 0, 0, 0, 0xFF, 0, 0, 0, 0, 0, 0, 0, 0]) := by decide +kernel
/-- V37. -/
theorem test_flush :
    view (fun s => (s.frame, s.responses)) (exec .flush soft)
      = some ([0, 0, 0, 0, 0xFF, 0, 0, 0xFF, 0xFF, 0, 0xFF, 0, 0, 0, 0, 0, 0], [.ok .none]) := by decide +kernel
/-- V11: the channel takes two bytes and no more; no response, the command waits at byte 2. -/
theorem test_flush_stuck :
    view (fun s => (s.ser, s.trace, s.hwq, s.responses)) (exec .flush hard)
      = some (some ⟨2, none, none⟩, [.wireBit true, .hwWrite 0, .hwWrite 0], [0x80, 0, 0], []) := by decide +kernel
/-- V53. -/
theorem test_handleGet :
    view (fun s => s.responses) (exec (.handleGet 1) soft) = some [.ok (.color ⟨0, 1, 0⟩)] := by decide +kernel
/-- V54. -/
theorem test_handleSet :
    view (fun s => s.pix.colors) (exec (.handleSet 0 ⟨.rat 0, .rat 0, .rat 1⟩) soft) = some [⟨0, 0, 1⟩, ⟨0, 1, 0⟩] := by decide +kernel
/-- V57. -/
theorem test_handleSet_closed :
    view (fun s => s.responses) (exec (.handleSet 0 ⟨.rat 0, .rat 0, .rat 1⟩) closed) = some [.error .closed] := by
  decide +kernel

/-! ### Diagnostics -/

/-- V60, with `TOGGLE_CYCLES = 1` and an empty queue. -/
theorem test_pinToggleTest :
    view (fun s => (s.trace, s.hwActive)) (exec .pinToggleTest { hard with hwq := [], plat := { plat with toggleCycles := 1 } })
      = some ([.hwSuspend, .pin .clock true, .pin .data true, .delay (.ms 5), .pin .clock false, .pin .data false,
          .delay (.ms 5), .hwResume], true) := by decide +kernel
/-- V59: two cycles on the software-timed transport; the wire bits gain `0 0`. -/
theorem test_pinToggleTest_wire :
    view (fun s => (s.trace.length, wireBitsFrom false false s.trace)) (exec .pinToggleTest soft)
      = some (12, [false, false]) := by decide +kernel
/-- V61 with pull-down unsupported: eight events, not ten. -/
theorem test_pinDriveCheck :
    view (fun s => (s.trace, s.dataDir, s.clockDir)) (exec .pinDriveCheck soft)
      = some ([.pinMode .data .inputFloating, .pinMode .data .inputPullUp, .pinMode .data .output,
          .pinMode .clock .inputFloating, .pinMode .clock .inputPullUp, .pinMode .clock .output,
          .pinMode .data .output, .pinMode .clock .output], .output, .output) := by decide +kernel
/-- V62: the pattern for seven pixels, the last one black. -/
theorem test_testPattern :
    (testPattern 7).colors = [⟨1, 0, 0⟩, ⟨0, 1, 0⟩, ⟨0, 0, 1⟩, ⟨1, 0, 0⟩, ⟨0, 1, 0⟩, ⟨0, 0, 1⟩, ⟨0, 0, 0⟩] := by decide +kernel
/-- V62, T6: the buffer as before, and the second frame is that of the buffer. -/
theorem test_showTestPattern :
    view (fun s => (s.pix.colors, s.frame, s.responses)) (exec .showTestPattern { soft with pix := PixelBuffer.replicate 2 ⟨0, 0, 0⟩ })
      = some ([⟨0, 0, 0⟩, ⟨0, 0, 0⟩], [0, 0, 0, 0, 0xFF, 0, 0, 0, 0xFF, 0, 0, 0, 0, 0, 0, 0, 0], [.ok .none]) := by
  decide +kernel

/-! ### The hardware channel (41_transport R97, 10_state R23) -/

/-- Three bits of `0x80`: the byte is not finished, so it is still queued. -/
theorem test_channel_begun :
    view (fun s => (s.trace, s.hwq, s.headSent.val)) (step { hard with env := { env with channelBits := [3] } })
      = some ([.wireBit true, .wireBit false, .wireBit false], [0x80], 3) := by decide +kernel
/-- Nine bits of two bytes: the first has left the queue, one bit of the second is out. -/
theorem test_channel_second :
    view (fun s => (wireBitsFrom false false s.trace, s.hwq, s.headSent.val))
        (step { hard with hwq := [0x80, 0xC0], env := { env with channelBits := [9] } })
      = some ([true, false, false, false, false, false, false, false, true], [0xC0], 1) := by decide +kernel
/-- A byte with seven bits out still fills a queue one byte deep (D16). -/
theorem test_room :
    hasRoom { hard with headSent := 7, plat := { plat with hwqDepth := some 1 } } = false ∧
    hasRoom (serveBit { hard with headSent := 7, plat := { plat with hwqDepth := some 1 } }) = true := by decide +kernel
theorem test_positive : Positive.val ⟨3, 2⟩ = 3 / 2 := by decide +kernel

/-! ### Steps -/

/-- P4, command 6: a reserved opcode at the port. -/
theorem test_step_illegal :
    view (fun s => (s.port, s.trace, s.responses)) (step { soft with port := [⟨0x0F#8, []⟩] })
      = some ([], [], [.error .illegal]) := by decide +kernel
/-- A reset request comes first, also while a command waits (70_reset_and_hazards R175). -/
theorem test_step_reset :
    view (fun s => (s.lifecycle, s.transport, s.inFlight, s.trace)) (step { waiting with resetReq := true })
      = some (.uninitialized, .none, none, []) := by decide +kernel
/-- V42: after reset, with nothing else placed, a command other than CONSTRUCT is IllegalCommand. -/
theorem test_withFetchWord :
    view (fun s => s.responses) (step (State.reset.withFetchWord 8 0x05)) = some [.error .illegal] := by decide +kernel
theorem test_withFetchWord_led :
    view (fun s => s.frame) (step (State.reset.withFetchWord 32 0xE1020304)) = some [0xE1, 2, 3, 4] := by decide +kernel

/-! ### Witnesses: each obligation's hypotheses can be met, clause by clause -/

theorem test_inv_soft : Inv soft := by
  constructor <;> simp [soft, redGreen, isHardwareTimed, isSoftwareTimed, ownerOf, handlesOf, fresh, State.reset]

theorem test_inv_hard : Inv hard := by
  constructor <;> simp [hard, soft, redGreen, isHardwareTimed, isSoftwareTimed, ownerOf, handlesOf, fresh, State.reset, plat]

theorem test_inv_closed : Inv closed := by
  constructor <;> simp [closed, soft, redGreen, isHardwareTimed, isSoftwareTimed, ownerOf, handlesOf, fresh, State.reset]

theorem test_inv_fresh : Inv fresh := by
  constructor <;> simp [isHardwareTimed, isSoftwareTimed, ownerOf, handlesOf, fresh, State.reset]

theorem test_frame_length : (encodeFrame redGreen 31).length = 17 := by decide +kernel
theorem test_frame_goesOn : 2 < (encodeFrame redGreen 31).length := by rw [test_frame_length]; decide

theorem test_inv_waiting : Inv waiting := by
  constructor <;> simp [waiting, hard, soft, redGreen, isHardwareTimed, isSoftwareTimed, ownerOf, handlesOf, fresh, State.reset,
    plat]
  exact test_frame_goesOn

theorem test_inv_waitingReady : Inv waitingReady := by
  constructor <;> simp [waitingReady, waiting, hard, soft, redGreen, isHardwareTimed, isSoftwareTimed, ownerOf, handlesOf, fresh,
    State.reset, plat]
  exact test_frame_goesOn

theorem test_inv_waitingPattern : Inv waitingPattern := by
  constructor <;> simp [waitingPattern, waiting, hard, soft, redGreen, isHardwareTimed, isSoftwareTimed, ownerOf, handlesOf, fresh,
    State.reset, plat]
  exact test_frame_goesOn

theorem test_inv_waitingBounded : Inv waitingBounded := by
  constructor <;> simp [waitingBounded, waiting, hard, soft, redGreen, isHardwareTimed, isSoftwareTimed, ownerOf, handlesOf, fresh,
    State.reset, plat]
  exact test_frame_goesOn

theorem test_inv_waitingPatternReady : Inv waitingPatternReady := by
  constructor <;> simp [waitingPatternReady, waitingBounded, waiting, hard, soft, redGreen, isHardwareTimed, isSoftwareTimed, ownerOf,
    handlesOf, fresh, State.reset, plat]
  exact test_frame_goesOn

/-- An unbounded queue and a ready channel. -/
theorem test_accepts_waitingReady : Accepts 15 15 waitingReady := ⟨⟨[], rfl⟩, fun d h => by cases h⟩

/-- A queue one byte deep and a channel that puts out a byte at each chance. -/
theorem test_accepts_waitingBounded : Accepts 32 33 waitingBounded := by
  refine ⟨⟨[], rfl⟩, fun d h => ?_⟩
  cases h
  exact ⟨rfl, by decide, List.replicate 33 8, [], rfl, by simp, by simp⟩

theorem test_accepts_waitingPatternReady : Accepts 32 33 waitingPatternReady :=
  test_accepts_waitingBounded.congr rfl rfl rfl rfl

theorem test_accepts_readyFor (k c : Nat) : Accepts k c (readyFor k) := ⟨⟨[false], rfl⟩, fun d h => by cases h⟩

theorem test_idle_soft : Idle soft := ⟨rfl, rfl, rfl⟩

/-- No colour at all is the operand `(0, 0, 1001/1000)` of V16. -/
theorem test_badColor : ∀ c : Color, (⟨.rat 0, .rat 0, .rat (1001 / 1000)⟩ : ColorOperand) ≠ colorOperand c :=
  (validColor_none _).mp (by decide +kernel)

/-- Encodings. -/
theorem test_witness_EncodeOfDecode : decode (.frame (.word 0xE1020304#32)) = .ok (.led 1#5 2#8 3#8 4#8) := by decide

/-- One step: a command at the port. -/
theorem test_witness_StepRunsCommand :
    ∃ s : State, Idle s ∧ s.port = [⟨0x0B#8, []⟩, ⟨0x09#8, []⟩] ∧ decodeCommand ⟨0x0B#8, []⟩ = .ok .flush :=
  ⟨{ soft with port := [⟨0x0B#8, []⟩, ⟨0x09#8, []⟩] }, ⟨rfl, rfl, rfl⟩, rfl, rfl⟩

theorem test_witness_StepRunsElement :
    ∃ s : State, s.resetReq = false ∧ s.inFlight = none ∧ s.encq = [.byte 0#8] ∧ decodeFrame (.byte 0#8) = .ok .pad :=
  ⟨{ fresh with encq := [.byte 0#8] }, rfl, rfl, rfl, by decide⟩

/-- A reserved opcode, and operands of the wrong type. -/
theorem test_witness_UndecodableCommandIsIllegal :
    (∃ s : State, Idle s ∧ s.port = [⟨0x13#8, []⟩] ∧ Request.wellFormed ⟨0x13#8, []⟩ = false) ∧
    (∃ s : State, Idle s ∧ s.port = [⟨0x04#8, [.pin 0]⟩] ∧ Request.wellFormed ⟨0x04#8, [.pin 0]⟩ = false) :=
  ⟨⟨{ hard with port := [⟨0x13#8, []⟩] }, ⟨rfl, rfl, rfl⟩, rfl, by decide⟩,
    ⟨{ hard with port := [⟨0x04#8, [.pin 0]⟩] }, ⟨rfl, rfl, rfl⟩, rfl, by decide⟩⟩

/-- With an active channel, and without one. -/
theorem test_witness_IdleStepOnlyRunsChannel :
    (Idle hard ∧ hard.port = []) ∧ (Idle soft ∧ soft.port = [] ∧ soft.hwActive = false) :=
  ⟨⟨⟨rfl, rfl, rfl⟩, rfl⟩, ⟨rfl, rfl, rfl⟩, rfl, rfl⟩

/-- A channel that puts out one bit, and one that puts out more than it has. -/
theorem test_witness_IdleStepOnlyRunsChannel_bits :
    (hard.hwActive = true ∧ hard.hwq ≠ [] ∧ hard.env.channelBits = 1 :: [0, 0, 0, 0]) ∧
    (Idle { hard with env := { env with channelBits := [9] } } ∧ queuedBits hard = [true, false, false, false, false, false, false, false]) :=
  ⟨⟨rfl, by simp [hard], rfl⟩, ⟨rfl, rfl, rfl⟩, by decide⟩

theorem test_witness_NotReadyKeepsWaiting :
    Inv waiting ∧ waiting.resetReq = false ∧ waiting.inFlight = some .reply ∧ waiting.ser = some ⟨2, none, none⟩ ∧
    waiting.env.hwReady = false :: [] := ⟨test_inv_waiting, rfl, rfl, rfl, rfl⟩

/-- A waiting write command with an unbounded queue and with a bounded one, and a waiting SHOW_TEST_PATTERN with a bounded one, ready for
the rest of the first frame and for both frames. -/
theorem test_witness_ReadyEndsTheWait :
    (Inv waitingReady ∧ waitingReady.resetReq = false ∧ waitingReady.ser = some ⟨2, none, none⟩ ∧
      waitingReady.inFlight = some .reply ∧ Accepts (waitingReady.frame.length - 2) (waitingReady.frame.length - 2) waitingReady) ∧
    (Inv waitingBounded ∧ waitingBounded.inFlight = some .reply ∧
      Accepts (waitingBounded.frame.length - 2) (waitingBounded.frame.length - 2) waitingBounded) ∧
    (Inv waitingPatternReady ∧ waitingPatternReady.resetReq = false ∧ waitingPatternReady.ser = some ⟨2, none, none⟩ ∧
      waitingPatternReady.inFlight = some (.restore redGreen) ∧
      Accepts (waitingPatternReady.frame.length - 2 + (encodeFrame redGreen waitingPatternReady.bright).length)
        (waitingPatternReady.frame.length - 2 + 1 + (encodeFrame redGreen waitingPatternReady.bright).length)
        waitingPatternReady) := by
  have h1 : waitingReady.frame.length - 2 = 15 := by decide +kernel
  have h2 : waitingBounded.frame.length - 2 = 15 := by decide +kernel
  have h3 : waitingPatternReady.frame.length - 2 = 15 := by decide +kernel
  have h4 : (encodeFrame redGreen waitingPatternReady.bright).length = 17 := by decide +kernel
  rw [h1, h2, h3, h4]
  exact ⟨⟨test_inv_waitingReady, rfl, rfl, rfl, test_accepts_waitingReady⟩,
    ⟨test_inv_waitingBounded, rfl, test_accepts_waitingBounded.mono (by decide) (by decide)⟩,
    test_inv_waitingPatternReady, rfl, rfl, rfl, test_accepts_waitingPatternReady⟩

theorem test_witness_ResetRequestResets : ({ waiting with resetReq := true } : State).resetReq = true := rfl

/-- An idle step, one that waits on, one that resets. -/
theorem test_witness_StepKeepsTheInvariant :
    (∃ t, Inv fresh ∧ step fresh = .next t) ∧ (∃ t, Inv waiting ∧ step waiting = .next t) ∧
    (∃ t, Inv { waiting with resetReq := true } ∧ step { waiting with resetReq := true } = .next t) := by
  refine ⟨⟨_, test_inv_fresh, rfl⟩, ⟨_, test_inv_waiting, rfl⟩, ⟨_, ?_, rfl⟩⟩
  obtain ⟨a, b, c, d, e, f, g, h, i, j, k, l, m⟩ := test_inv_waiting
  exact ⟨a, b, c, d, e, f, g, h, i, j, k, l, m⟩

theorem test_witness_StepNeverStops : Inv waitingPattern ∧ waitingPattern.encq = [] := ⟨test_inv_waitingPattern, rfl⟩

/-- The three cases: nothing moves, on the way into Active, on the way into Closed. -/
theorem test_witness_LifecycleAndTransportNeverGoBack :
    (∃ t, soft.resetReq = false ∧ step soft = .next t) ∧
    view State.lifecycle (step { fresh with port :=
      [⟨0x00#8, [.number (.rat 1), .number (.rat 1), .pin 2, .pin 3, .flag true, .flag false, .ident 0, .number (.rat 1)]⟩] })
        = some .active ∧
    view State.lifecycle (step { soft with port := [⟨0x0C#8, []⟩] }) = some .closed :=
  ⟨⟨_, rfl, rfl⟩, by decide +kernel, by decide +kernel⟩

/-- With an empty frame, and with a frame that encodes the buffer. -/
theorem test_witness_FrameIsNeverStale :
    (∃ t, Inv fresh ∧ FreshFrame fresh ∧ fresh.encq = [] ∧ step fresh = .next t) ∧
    (∃ t, Inv waiting ∧ FreshFrame waiting ∧ waiting.encq = [] ∧ step waiting = .next t) :=
  ⟨⟨_, test_inv_fresh, .inl rfl, rfl, rfl⟩, ⟨_, test_inv_waiting, .inr ⟨by simp [waiting, hard, soft], rfl⟩, rfl, rfl⟩⟩

/-- Without a suspension. -/
theorem test_witness_ChannelKeepsTheOrder :
    ∃ t, Inv hard ∧ isHardwareTimed hard.transport = true ∧ hard.resetReq = false ∧ t.transport = hard.transport ∧
      step hard = .next t ∧ Event.hwSuspend ∉ t.trace :=
  ⟨channelRun hard, test_inv_hard, rfl, rfl, rfl, rfl, by decide +kernel⟩

theorem test_witness_ElementsAssembleTheFrame : fresh.frame = [] := rfl

/-- One pixel. -/
theorem test_witness_FrameLength : (PixelBuffer.replicate 1 ⟨1, 0, 0⟩).colors.length = 1 := rfl

/-- The first pixel and the last pixel of two. -/
theorem test_witness_FrameLayout :
    redGreen.colors[0]? = some ⟨1, 0, 0⟩ ∧ redGreen.colors[1]? = some ⟨0, 1, 0⟩ := ⟨rfl, rfl⟩

/-- Two different buffers with one frame: a colour byte is truncated. -/
theorem test_witness_FrameDeterminesItsFields :
    (PixelBuffer.replicate 1 ⟨half, 0, 0⟩).colors.length
      = (PixelBuffer.replicate 1 ⟨⟨127 / 255, by norm_num⟩, 0, 0⟩).colors.length ∧
    encodeFrame (PixelBuffer.replicate 1 ⟨half, 0, 0⟩) 7
      = encodeFrame (PixelBuffer.replicate 1 ⟨⟨127 / 255, by norm_num⟩, 0, 0⟩) 7 := ⟨rfl, by decide +kernel⟩

/-- 0 and 1, and both ends of the interval of 127 and of 254. -/
theorem test_witness_ChanByteLaws :
    (chanByte 0).toNat = 0 ∧ (chanByte 1).toNat = 255 ∧ (chanByte ⟨127 / 255, by norm_num⟩).toNat = 127 ∧
    (chanByte half).toNat = 127 ∧ (chanByte ⟨128 / 255, by norm_num⟩).toNat = 128 ∧
    (chanByte ⟨254 / 255, by norm_num⟩).toNat = 254 ∧ (chanByte ⟨999 / 1000, by norm_num⟩).toNat = 254 ∧
    ((half : Normalized) : Rat) ≤ (1 : Normalized) := by
  decide +kernel

theorem test_witness_LevelLaws :
    (levelOf 0).toNat = 0 ∧ (levelOf 1).toNat = 31 ∧ (levelOf ⟨99 / 100, by norm_num⟩).toNat = 30 ∧
    normOf (levelOf ⟨99 / 100, by norm_num⟩) = 30 / 31 := by
  decide +kernel

theorem test_witness_SoftwareTransmitEvents :
    ({ soft with frame := [0xE0#8] } : State).transport = .softwareTimed 2 3 ∧ ({ soft with frame := [0xE0#8] } : State).frame ≠ [] :=
  ⟨rfl, by simp⟩

theorem test_witness_SoftwareWireBits :
    ∃ t, isSoftwareTimed soft.transport = true ∧ soft.clockLevel = false ∧ transmit soft = .next t := ⟨_, rfl, rfl, rfl⟩

/-- A channel that takes two bytes of three, and one that takes them all. -/
theorem test_witness_HardwareTransmitHandsOver :
    (({ readyFor 2 with frame := [0, 1, 2] } : State).transport = .hardwareTimed 0 ∧
      view State.ser (transmit { readyFor 2 with frame := [0, 1, 2] }) = some (some ⟨2, none, none⟩)) ∧
    (({ readyFor 3 with frame := [0, 1, 2] } : State).transport = .hardwareTimed 0 ∧
      Accepts 3 3 { readyFor 3 with frame := [0, 1, 2] }) :=
  ⟨⟨rfl, by decide +kernel⟩, rfl, (test_accepts_readyFor 3 3).congr rfl rfl rfl rfl⟩

/-- A channel that says not ready at once, and one that says so after two bytes of three. -/
theorem test_witness_HardwareTransmitHandsOver_stops :
    ((readyFor 0).env.hwReady = List.replicate 0 true ++ false :: [] ∧ 0 < ({ readyFor 0 with frame := [0, 1, 2] } : State).frame.length ∧
      Accepts 0 0 { readyFor 0 with frame := [0, 1, 2] }) ∧
    ((readyFor 2).env.hwReady = List.replicate 2 true ++ false :: [] ∧ 2 < ({ readyFor 2 with frame := [0, 1, 2] } : State).frame.length ∧
      Accepts 2 2 { readyFor 2 with frame := [0, 1, 2] }) :=
  ⟨⟨rfl, by decide, (test_accepts_readyFor 0 0).congr rfl rfl rfl rfl⟩, rfl, by decide,
    (test_accepts_readyFor 2 2).congr rfl rfl rfl rfl⟩

/-- One pixel, `N_MAX` pixels, both brightness bounds, the smallest kind of frequency. -/
theorem test_constructible (b : Bool) :
    Constructible { plat with initFlush := b } 1 0 2 3 (1 / 1000) ∧ Constructible { plat with initFlush := b } 300 1 3 2 1000000 := by
  refine ⟨⟨⟨1, rfl, by decide, ?_⟩, by norm_num, by simp [arePins, plat], by norm_num⟩,
    ⟨300, rfl, by decide, ?_⟩, by norm_num, by simp [arePins, plat], by norm_num⟩ <;>
  · intro m h
    cases h
    decide

/-- Without the first flush and with it. -/
theorem test_witness_ConstructHardwareTimed :
    ∀ b, (freshWith b).lifecycle = .uninitialized ∧ Constructible (freshWith b).plat 300 1 3 2 1000000 ∧
      (freshWith b).env.hwInit = .ok 5 :: [] ∧ (freshWith b).plat.initFlush = b :=
  fun b => ⟨rfl, (test_constructible b).2, rfl, rfl⟩

/-- With the first flush and a channel that takes the thirteen bytes of one pixel's frame. -/
theorem test_witness_ConstructHardwareTimed_flush :
    (freshReady).lifecycle = .uninitialized ∧ Constructible freshReady.plat 1 0 2 3 (1 / 1000) ∧
    freshReady.env.hwInit = .ok 5 :: [] ∧ freshReady.plat.initFlush = true ∧
    (encodeFrame (PixelBuffer.replicate 1 ⟨0, 0, 0⟩) (BitVec.ofNat 5 (31 * (0 : Rat)).floor.toNat)).length = 13 ∧
    Accepts 13 13 { constructedFrom freshReady ⟨1, 2, 3, false, false, 0, 1 / 1000⟩ 0 (.hardwareTimed 0) with
      hwActive := true, hwq := [], env := { freshReady.env with hwInit := [] } } :=
  ⟨rfl, (test_constructible true).1, rfl, rfl, by decide +kernel, ⟨[], rfl⟩, fun d h => by cases h⟩

theorem test_witness_ConstructForcedSoftware :
    fresh.lifecycle = .uninitialized ∧ Constructible fresh.plat 1 0 2 3 (1 / 1000) ∧ fresh.env.pinClaim = true :: true :: [] :=
  ⟨rfl, (test_constructible false).1, rfl⟩

theorem test_witness_ConstructFallsBack :
    fresh.lifecycle = .uninitialized ∧ Constructible fresh.plat 1 0 2 3 (1 / 1000) ∧ fresh.env.hwInit = .fail 0 :: [] ∧
    fresh.env.pinClaim = true :: true :: [] := ⟨rfl, (test_constructible false).1, rfl, rfl⟩

/-- Forced, where no answer of `hw_init_outcome` is scripted; and after a failed initialisation. -/
theorem test_witness_ConstructWithoutPinsFails :
    (freshForced.lifecycle = .uninitialized ∧ Constructible freshForced.plat 1 0 2 3 (1 / 1000) ∧
      freshForced.env.pinClaim = true :: false :: [] ∧ freshForced.env.hwInit = [] ∧ (true && false) = false) ∧
    (freshNoPin.lifecycle = .uninitialized ∧ Constructible freshNoPin.plat 1 0 2 3 (1 / 1000) ∧
      freshNoPin.env.pinClaim = true :: false :: [] ∧ freshNoPin.env.hwInit = .fail 0 :: []) :=
  ⟨⟨rfl, (test_constructible false).1, rfl, rfl, rfl⟩, rfl, (test_constructible false).1, rfl, rfl⟩

/-- Each row of SELECT's table: the channel claimed; forced and both pins claimed; fallen back and both pins claimed; forced and fallen
back with a pin that cannot be claimed. And no answer at all scripted, as after reset. -/
theorem test_witness_ConstructFollowsSelect :
    ((freshWith false).lifecycle = .uninitialized ∧ Constructible (freshWith false).plat 1 0 2 3 (1 / 1000) ∧
      (takeHwInit (freshWith false).env).1 = .ok 5) ∧
    (fresh.lifecycle = .uninitialized ∧ Constructible fresh.plat 1 0 2 3 (1 / 1000) ∧
      ((takePinClaim fresh.env).1 && (takePinClaim (takePinClaim fresh.env).2).1) = true ∧
      (∃ e, takeHwInit fresh.env = (.fail 0, e) ∧ ((takePinClaim e).1 && (takePinClaim (takePinClaim e).2).1) = true)) ∧
    (((takePinClaim freshNoPin.env).1 && (takePinClaim (takePinClaim freshNoPin.env).2).1) = false ∧
      (∃ e, takeHwInit freshNoPin.env = (.fail 0, e) ∧ ((takePinClaim e).1 && (takePinClaim (takePinClaim e).2).1) = false)) ∧
    (({ fresh with env := Env.unscripted } : State).lifecycle = .uninitialized ∧
      Constructible ({ fresh with env := Env.unscripted } : State).plat 1 0 2 3 (1 / 1000)) :=
  ⟨⟨rfl, (test_constructible false).1, rfl⟩, ⟨rfl, (test_constructible false).1, rfl, _, rfl, rfl⟩, ⟨rfl, _, rfl, rfl⟩,
    rfl, (test_constructible false).1⟩

/-- Each check of CONSTRUCT: no pixel, too many, half a pixel; a brightness above 1; equal pins; the frequency 0. -/
theorem test_witness_ConstructRefusesBadOperands :
    fresh.lifecycle = .uninitialized ∧ ¬ isCount plat (.rat 0) ∧ ¬ isCount plat (.rat 301) ∧ ¬ isCount plat (.rat (1 / 2)) ∧
    isCount plat (.rat 300) ∧ ¬ isUnit (.rat (11 / 10)) ∧ isUnit (.rat 1) ∧ ¬ arePins plat 2 2 ∧ arePins plat 2 3 ∧
    (∀ q : Rat, 0 < q → Number.rat 0 ≠ .rat q) := by
  have no : ∀ x, pixelCount plat x = none → ¬ isCount plat x := fun x => (pixelCount_none plat x).mp
  refine ⟨rfl, no _ (by decide +kernel), no _ (by decide +kernel), no _ (by decide +kernel), (test_constructible false).2.count,
    (unitNumber_none _).mp (by decide +kernel), ⟨1, rfl, by norm_num, by norm_num⟩, by simp [arePins], by simp [arePins, plat], ?_⟩
  intro q hq h
  cases h
  exact lt_irrefl _ hq

theorem test_witness_ShutdownSoftware : soft.lifecycle = .active ∧ soft.transport = .softwareTimed 2 3 := ⟨rfl, rfl⟩
theorem test_witness_ShutdownHardware : hard.lifecycle = .active ∧ hard.transport = .hardwareTimed 0 := ⟨rfl, rfl⟩
theorem test_witness_ShutdownIsIdempotent : closed.lifecycle = .closed := rfl

/-- The first and the last index; colours at the bounds of [0, 1]. -/
theorem test_witness_SetPixelSoftware :
    Inv soft ∧ soft.lifecycle = .active ∧ soft.transport = .softwareTimed 2 3 ∧ 0 < (soft.cfg.n : Nat) ∧ 1 < (soft.cfg.n : Nat) :=
  ⟨test_inv_soft, rfl, rfl, by decide, by decide⟩

theorem test_witness_SetAllSoftware :
    soft.lifecycle = .active ∧ soft.transport = .softwareTimed 2 3 := ⟨rfl, rfl⟩

theorem test_witness_SetBufferSoftware :
    soft.lifecycle = .active ∧ soft.transport = .softwareTimed 2 3 ∧
    redGreen.colors.length = soft.cfg.n := ⟨rfl, rfl, rfl⟩

theorem test_witness_SetBrightnessAndFlushSoftware :
    soft.lifecycle = .active ∧ soft.transport = .softwareTimed 2 3 ∧ (0 : Rat) ≤ 0 ∧ (0 : Rat) ≤ 1 ∧ (1 : Rat) ≤ 1 :=
  ⟨rfl, rfl, by norm_num, by norm_num, by norm_num⟩

/-- Every write command has a write on `hard`. -/
theorem test_witness_WritesHardware :
    Inv hard ∧ hard.lifecycle = .active ∧ hard.transport = .hardwareTimed 0 ∧
    ([.setPixel 1 whiteOperand, .setAll whiteOperand, .setBuffer [whiteOperand, blackOperand], .setBrightness (.rat 1), .turnOn,
      .turnOff, .flush, .handleSet 0 blackOperand] : List Instr).map (fun i => (written i hard).isSome) = List.replicate 8 true :=
  ⟨test_inv_hard, rfl, rfl, by decide +kernel⟩

/-- A channel that takes the whole frame of a FLUSH. -/
theorem test_witness_WritesHardware_accepts :
    (readyFor 17).lifecycle = .active ∧ (readyFor 17).transport = .hardwareTimed 0 ∧ written .flush (readyFor 17) = some (readyFor 17) ∧
    Accepts (encodeFrame (readyFor 17).pix (readyFor 17).bright).length (encodeFrame (readyFor 17).pix (readyFor 17).bright).length
      (readyFor 17) := by
  have h : (encodeFrame (readyFor 17).pix (readyFor 17).bright).length = 17 := by decide +kernel
  rw [h]
  exact ⟨rfl, rfl, rfl, test_accepts_readyFor 17 17⟩

/-- A brightness above 1, the index `N`, the index 0 with a channel above 1, a short list, a list of the right length. -/
theorem test_witness_WritersRefuse :
    soft.lifecycle = .active ∧ ¬ isUnit (.rat (3 / 2)) ∧ (soft.cfg.n : Nat) ≤ 2 ∧ 0 < (soft.cfg.n : Nat) ∧
    (∀ c : Color, (⟨.rat 0, .rat 0, .rat (1001 / 1000)⟩ : ColorOperand) ≠ colorOperand c) ∧
    ([blackOperand] : List ColorOperand).length ≠ soft.cfg.n ∧
    ([blackOperand, ⟨.rat 0, .rat 0, .rat (1001 / 1000)⟩] : List ColorOperand).length = soft.cfg.n ∧
    (⟨.rat 0, .rat 0, .rat (1001 / 1000)⟩ : ColorOperand) ∈
      ([blackOperand, ⟨.rat 0, .rat 0, .rat (1001 / 1000)⟩] : List ColorOperand) :=
  ⟨rfl, (unitNumber_none _).mp (by decide +kernel), by decide, by decide, test_badColor, by decide, rfl, by simp⟩

/-- The last index below `N`, and `N`. -/
theorem test_witness_GetPixelAnswers : Inv soft ∧ soft.lifecycle = .active ∧ 1 < (soft.cfg.n : Nat) ∧ (soft.cfg.n : Nat) ≤ 2 :=
  ⟨test_inv_soft, rfl, by decide, by decide⟩

theorem test_witness_GetBufferAndBrightnessAnswer : Inv hard ∧ hard.lifecycle = .active := ⟨test_inv_hard, rfl⟩
theorem test_witness_AverageColorAnswers : Inv soft ∧ soft.lifecycle = .active := ⟨test_inv_soft, rfl⟩

theorem test_witness_ReadsArePure : ∃ t, isRead .averageColor = true ∧ exec .averageColor soft = .next t := ⟨_, rfl, rfl⟩

/-- The same index and another one. -/
theorem test_witness_SetThenGet :
    Inv soft ∧ soft.lifecycle = .active ∧ soft.transport = .softwareTimed 2 3 ∧ 1 < (soft.cfg.n : Nat) ∧ 0 < (soft.cfg.n : Nat) :=
  ⟨test_inv_soft, rfl, rfl, by decide, by decide⟩

theorem test_witness_BrightnessRoundTrip :
    soft.lifecycle = .active ∧ soft.transport = .softwareTimed 2 3 ∧ (0 : Rat) ≤ 4 / 125 ∧ (4 / 125 : Rat) ≤ 1 :=
  ⟨rfl, rfl, by norm_num, by norm_num⟩

/-- A closed block, a block before construction, CONSTRUCT on an active block. -/
theorem test_witness_LifecycleGuards :
    (isCommand .flush = true ∧ closed.lifecycle = .closed ∧ isConstruct .flush = false ∧ Instr.flush ≠ .shutdown) ∧
    (fresh.lifecycle = .uninitialized ∧ isConstruct .shutdown = false) ∧
    (soft.lifecycle ≠ .uninitialized ∧ isConstruct (.construct .nan .nan 0 0 false false 0 .nan) = true) :=
  ⟨⟨rfl, rfl, rfl, by simp⟩, ⟨rfl, rfl⟩, by simp [soft], rfl⟩

/-- An error that changes nothing, and the failed CONSTRUCT that emits a `Log`. -/
theorem test_witness_ErrorsWriteNothing :
    (∃ t, exec (.getPixel 2) soft = .next t ∧ t.responses = soft.responses ++ [.error (.validation .index)]) ∧
    view (fun s => (s.trace, s.responses)) (exec (.construct (.rat 1) (.rat 1) 2 3 false true 0 (.rat 1))
        freshNoPin) = some ([.log], [.error (.resource .pin)]) :=
  ⟨⟨_, rfl, rfl⟩, by decide +kernel⟩

/-- A command that answers, and one that waits. -/
theorem test_witness_OneResponsePerCommand :
    (∃ t, isCommand .getBuffer = true ∧ exec .getBuffer soft = .next t) ∧
    view (fun s => (s.responses, s.inFlight)) (exec .flush hard) = some ([], some .reply) := ⟨⟨_, rfl, rfl⟩, by decide +kernel⟩

theorem test_witness_OnlySettersWrite :
    ∃ t, exec .getBuffer soft = .next t ∧ writesPixels .getBuffer = false ∧ writesBright .getBuffer = false ∧
      isConstruct .getBuffer = false ∧ Instr.getBuffer ≠ .shutdown := ⟨_, rfl, rfl, rfl, rfl, by simp⟩

theorem test_witness_WithoutChannel : soft.lifecycle = .active ∧ suspends soft = false := ⟨rfl, rfl⟩
theorem test_witness_WithChannel : hard.lifecycle = .active ∧ suspends hard = true := ⟨rfl, rfl⟩

/-- Six of the eight stages supported, with their levels, without a channel and with one. -/
theorem test_witness_PinDriveCheck_scripted :
    env.modeSupported = [true, true, false, true, true, true, false, true] ++ [] ∧
    [true, true, false, true, true, true, false, true].length = 8 ∧
    ({ env with readBack := [true, false, true, false, true, false] } : Env).readBack = [true, false, true, false, true, false] ++ [] ∧
    [true, false, true, false, true, false].length = [true, true, false, true, true, true, false, true].count true ∧
    suspends { soft with env := { env with readBack := [true, false, true, false, true, false] } } = false ∧
    suspends { hard with env := { env with readBack := [true, false, true, false, true, false] } } = true :=
  ⟨rfl, rfl, rfl, rfl, rfl, rfl⟩

/-- Pixels 0, 1 and 2, the last lit one and the first black one. -/
theorem test_witness_TestPatternSoftware :
    Inv seven ∧ seven.lifecycle = .active ∧ seven.transport = .softwareTimed 2 3 ∧ 0 < (seven.cfg.n : Nat) ∧ 1 < (seven.cfg.n : Nat) ∧
    2 < (seven.cfg.n : Nat) ∧ 5 < (seven.cfg.n : Nat) ∧ 6 < (seven.cfg.n : Nat) :=
  ⟨by constructor <;> simp [seven, soft, redGreen, isHardwareTimed, isSoftwareTimed, ownerOf, handlesOf, fresh, State.reset],
    rfl, rfl, by decide, by decide, by decide, by decide, by decide⟩

/-- The three cases: waiting in the first frame, waiting in the second, both handed over. -/
theorem test_witness_TestPatternHardware :
    hard.lifecycle = .active ∧ hard.transport = .hardwareTimed 0 ∧
    view State.inFlight (exec .showTestPattern hard) = some (some (.restore redGreen)) ∧
    view State.inFlight (exec .showTestPattern (readyFor 17)) = some (some .reply) ∧
    view State.inFlight (exec .showTestPattern (readyFor 34)) = some none :=
  ⟨rfl, rfl, by decide +kernel, by decide +kernel, by decide +kernel⟩

/-- A channel that takes both frames. -/
theorem test_witness_TestPatternHardware_accepts :
    (readyFor 34).lifecycle = .active ∧ (readyFor 34).transport = .hardwareTimed 0 ∧
    (encodeFrame (testPattern 2) 31).length + (encodeFrame (readyFor 34).pix 31).length = 34 ∧ Accepts 34 35 (readyFor 34) :=
  ⟨rfl, rfl, by decide +kernel, test_accepts_readyFor 34 35⟩

/-- A step that waits on, and one that restores. -/
theorem test_witness_SnapshotIsRestored :
    (∃ t, waitingPattern.resetReq = false ∧ waitingPattern.inFlight = some (.restore redGreen) ∧
      step waitingPattern = .next t) ∧
    (∃ t, waitingPatternReady.resetReq = false ∧ waitingPatternReady.inFlight = some (.restore redGreen) ∧
      step waitingPatternReady = .next t ∧ waitingPatternReady.ser = some ⟨2, none, none⟩ ∧
      Accepts (waitingPatternReady.frame.length - 2) (waitingPatternReady.frame.length - 2) waitingPatternReady) := by
  have h : waitingPatternReady.frame.length - 2 = 15 := by decide +kernel
  rw [h]
  exact ⟨⟨_, rfl, rfl, rfl⟩, _, rfl, rfl, rfl, rfl, test_accepts_waitingPatternReady.mono (by decide) (by decide)⟩

end Sys2Proof.Machine.Tests
end

section
/-! The state family: what a step leaves unchanged, what it keeps of `Inv`, and the four statements that follow (10_state R11 to
R28). -/

namespace Sys2Proof.Machine

/-! ### What no output touches

Most of what a step does is output: the channel, the pins, the trace, the answers and the wait. `OutputOnly` says this once, so
that a lemma about a register that is none of these needs no look at the operation. -/

/-- `t` is `s` but for what putting out a frame, answering, waiting and testing the pins write. -/
def OutputOnly (s t : State) : Prop :=
  t = { s with dataLevel := t.dataLevel, clockLevel := t.clockLevel, dataDir := t.dataDir, clockDir := t.clockDir, ser := t.ser,
               hwq := t.hwq, headSent := t.headSent, trace := t.trace, responses := t.responses, inFlight := t.inFlight,
               env := t.env }

theorem OutputOnly.trans {s t u : State} (h : OutputOnly s t) (g : OutputOnly t u) : OutputOnly s u :=
  Eq.trans g (by rw [h])

theorem OutputOnly.respond (r : Response) (s : State) : OutputOnly s (respond r s) := rfl

theorem Handed.outputOnly {s t : State} {f : List Byte} (h : Handed s t f) : OutputOnly s t := by
  rw [OutputOnly, h.frame]

theorem channelRun_outputOnly (s : State) : OutputOnly s (channelRun s) := by
  obtain ⟨bits, hr⟩ := channelRun_ran s
  exact hr.handed.outputOnly

theorem channelRun_inFlight (s : State) : (channelRun s).inFlight = s.inFlight := by
  obtain ⟨bits, hr⟩ := channelRun_ran s
  rw [hr.1]

theorem replyWhenSent_outputOnly {s t : State} (h : replyWhenSent s = .next t) : OutputOnly s t := by
  cases hs : s.ser with
  | some p => rw [replyWhenSent_waits hs] at h; cases h; rfl
  | none => rw [replyWhenSent_sent hs] at h; cases h; rfl

theorem transmit_outputOnly {s t : State} (h : transmit s = .next t) : OutputOnly s t := by
  unfold transmit at h
  split at h
  · cases h
  · obtain ⟨_, -, hh, -⟩ := sendHardware_front s.frame 0 s
    cases h
    exact hh.outputOnly
  · cases h
    rw [OutputOnly, sendSoftware_eq]

theorem transmitOn_outputOnly {s t : State} (h : transmitOn s = .next t) : OutputOnly s t := by
  obtain ⟨_, p, -, -, rfl⟩ := transmitOn_next h
  obtain ⟨_, -, hh, -⟩ := sendHardware_front (s.frame.drop p.k) p.k s
  exact hh.outputOnly

/-- A commit assembles the frame, and the rest of it is output (42_strip_controller R113). -/
theorem commit_outputOnly {s t : State} (h : commit s = .next t) : OutputOnly (assembleFrame s) t := by
  obtain ⟨u, hu, ht⟩ := andThen_next h
  exact (transmit_outputOnly hu).trans (replyWhenSent_outputOnly ht)

/-- After the first frame of SHOW_TEST_PATTERN the wait goes on, or the snapshot is restored and committed (44_diagnostics R145). -/
theorem restoreWhenSent_outputOnly {cs : PixelBuffer} {s t : State} (h : restoreWhenSent cs s = .next t) :
    OutputOnly s t ∨ OutputOnly (assembleFrame (writePixels cs s)) t := by
  cases hs : s.ser with
  | some p => rw [restoreWhenSent_waits cs hs] at h; cases h; exact .inl rfl
  | none =>
    rw [restoreWhenSent_sent cs hs] at h
    have hrun : OutputOnly { s with inFlight := none } (channelRun { s with inFlight := none }) := channelRun_outputOnly _
    refine .inr (OutputOnly.trans ?_ (commit_outputOnly h))
    rw [OutputOnly, hrun]
    rfl

/-- A command in flight goes on with output only, but that the snapshot of SHOW_TEST_PATTERN may be restored and committed. -/
theorem resumeCommand_outputOnly {c : Cont} {s t : State} (h : resumeCommand c s = .next t) :
    OutputOnly s t ∨ ∃ cs, OutputOnly (assembleFrame (writePixels cs s)) t := by
  cases c with
  | reply =>
    obtain ⟨u, hu, ht⟩ := andThen_next h
    exact .inl ((transmitOn_outputOnly hu).trans (replyWhenSent_outputOnly ht))
  | restore cs =>
    obtain ⟨u, hu, ht⟩ := andThen_next h
    have hsu := transmitOn_outputOnly hu
    rcases restoreWhenSent_outputOnly ht with hut | hut
    · exact .inl (hsu.trans hut)
    · refine .inr ⟨cs, OutputOnly.trans ?_ hut⟩
      rw [OutputOnly, hsu]
      rfl

/-! ### The pin diagnostics -/

/-- `t` comes from `s` by PIN_TOGGLE_TEST or PIN_DRIVE_CHECK: the channel's queue is lost where it was suspended, and of the rest
only output has moved (44_diagnostics R140 to R143). -/
def Diagnosed (s t : State) : Prop :=
  t = { s with dataLevel := t.dataLevel, clockLevel := t.clockLevel, dataDir := t.dataDir, clockDir := t.clockDir,
               hwq := if suspends s then [] else s.hwq, headSent := if suspends s then 0 else s.headSent,
               trace := t.trace, responses := t.responses, env := t.env }

theorem Diagnosed.outputOnly {s t : State} (h : Diagnosed s t) : OutputOnly s t := by
  rw [OutputOnly, h]

/-- Whatever a diagnostic does to the pins between suspension and resumption, `HW_ACTIVE` is as before afterwards
(44_diagnostics R141). -/
theorem unsuspend_diagnosed {s v : State}
    (hv : v = { suspend s with dataLevel := v.dataLevel, clockLevel := v.clockLevel, dataDir := v.dataDir,
                               clockDir := v.clockDir, trace := v.trace, env := v.env }) :
    Diagnosed s (unsuspend s.hwActive v) := by
  cases hs : suspends s with
  | true =>
    have ⟨ht, ha⟩ : isHardwareTimed s.transport = true ∧ s.hwActive = true := by simpa [suspends] using hs
    obtain ⟨bits, e, -, hsus⟩ := suspend_active hs
    rw [hv, hsus]
    simp [Diagnosed, unsuspend, hs, ht, ha, emit]
  | false =>
    have hoff : (isHardwareTimed s.transport && s.hwActive) = false := hs
    rw [hv, suspend_inactive hs]
    simp [Diagnosed, unsuspend, hs, hoff]

@[simp] theorem suspend_dataDir (s : State) : (suspend s).dataDir = s.dataDir := by
  cases hs : suspends s with
  | true => obtain ⟨bits, e, -, h⟩ := suspend_active hs; rw [h]
  | false => rw [suspend_inactive hs]

@[simp] theorem suspend_clockDir (s : State) : (suspend s).clockDir = s.clockDir := by
  cases hs : suspends s with
  | true => obtain ⟨bits, e, -, h⟩ := suspend_active hs; rw [h]
  | false => rw [suspend_inactive hs]

/-- The bits that survive a suspension leave a low clock low (44_diagnostics R142). -/
theorem suspend_clockLow {s : State} (hc : s.clockLevel = false) : (suspend s).clockLevel = false := by
  cases hs : suspends s with
  | true => obtain ⟨bits, e, -, h⟩ := suspend_active hs; simp [h, hc]
  | false => rwa [suspend_inactive hs]

@[simp] theorem restoreOutput_clockLevel (p : Pin) (s : State) : (restoreOutput p s).clockLevel = s.clockLevel := by
  cases p <;> rfl

@[simp] theorem unsuspend_clockLevel (b : Bool) (s : State) : (unsuspend b s).clockLevel = s.clockLevel := by
  unfold unsuspend; split <;> rfl
@[simp] theorem unsuspend_dataDir (b : Bool) (s : State) : (unsuspend b s).dataDir = s.dataDir := by
  unfold unsuspend; split <;> rfl
@[simp] theorem unsuspend_clockDir (b : Bool) (s : State) : (unsuspend b s).clockDir = s.clockDir := by
  unfold unsuspend; split <;> rfl

/-- PIN_TOGGLE_TEST between suspension and resumption. -/
theorem toggleTest_diagnosed (s : State) (n : Nat) :
    Diagnosed s (unsuspend s.hwActive { toggleCycles n (suspend s) with clockLevel := false, dataLevel := false }) := by
  apply unsuspend_diagnosed
  rw [toggleCycles_eq]

/-- PIN_DRIVE_CHECK between suspension and resumption. -/
theorem driveCheck_diagnosed (s : State) (st : List (Pin × PinDir)) :
    Diagnosed s (unsuspend s.hwActive (restoreOutput .clock (restoreOutput .data (runStages st (suspend s)).2))) := by
  apply unsuspend_diagnosed
  rw [(runStages_eq st (suspend s)).2]
  rfl

/-! ### What a step that answers a next state did -/

theorem stepElement_next {w : FrameWord} {s t : State} (h : stepElement w s = .next t) : ∃ i, exec i s = .next t := by
  unfold stepElement at h
  split at h
  · exact ⟨_, h⟩
  · cases h

/-- A request is executed, or answered IllegalCommand (30_encoding R61). -/
theorem stepCommand_next {r : Request} {s t : State} (h : stepCommand r s = .next t) :
    t = respond (.error .illegal) (channelRun s) ∨ ∃ i, isCommand i = true ∧ exec i (channelRun s) = .next t := by
  unfold stepCommand at h
  split at h
  · next i hd => exact .inr ⟨i, decodeCommand_isCommand hd, h⟩
  · exact .inl (Host.Outcome.next.inj h).symm

/-- A step resets, goes on with the command in flight, executes a frame element, or gives the channel its chance and then does
nothing, refuses a request or executes a command. -/
theorem step_next {s t : State} (h : step s = .next t) :
    (s.resetReq = true ∧ t = applyReset s) ∨
    (s.resetReq = false ∧ ∃ c, s.inFlight = some c ∧ resumeCommand c s = .next t) ∨
    (s.resetReq = false ∧ s.inFlight = none ∧ ∃ w rest i, s.encq = w :: rest ∧ exec i { s with encq := rest } = .next t) ∨
    (s.resetReq = false ∧ s.inFlight = none ∧ s.encq = [] ∧ ∃ p,
      (t = channelRun { s with port := p } ∨ t = respond (.error .illegal) (channelRun { s with port := p }) ∨
        ∃ i, isCommand i = true ∧ exec i (channelRun { s with port := p }) = .next t)) := by
  rcases step_cases s with ⟨hr, hs⟩ | ⟨c, hr, hc, hs⟩ | ⟨w, rest, hr, hc, he, hs⟩ | ⟨r, rest, hr, hc, he, -, hs⟩ |
    ⟨hr, hc, he, -, hs⟩
  · exact .inl ⟨hr, (Host.Outcome.next.inj (hs.symm.trans h)).symm⟩
  · exact .inr (.inl ⟨hr, c, hc, hs.symm.trans h⟩)
  · obtain ⟨i, hx⟩ := stepElement_next (hs.symm.trans h)
    exact .inr (.inr (.inl ⟨hr, hc, w, rest, i, he, hx⟩))
  · exact .inr (.inr (.inr ⟨hr, hc, he, rest, .inr (stepCommand_next (hs.symm.trans h))⟩))
  · exact .inr (.inr (.inr ⟨hr, hc, he, s.port, .inl (Host.Outcome.next.inj (hs.symm.trans h)).symm⟩))

end Sys2Proof.Machine
end

section
/-! The invariant, one rule per operation of the state, and the statement that every step keeps it (10_state R11 to R23, R27). -/

namespace Sys2Proof.Machine

/-- What `Inv` does not read may change. -/
theorem Inv.unread {s t : State} (hi : Inv s)
    (h : t = { s with bright := t.bright, hwVariant := t.hwVariant, dataLevel := t.dataLevel, trace := t.trace,
                      responses := t.responses, encq := t.encq, port := t.port, resetReq := t.resetReq, env := t.env }) :
    Inv t := by
  rw [h]
  exact ⟨hi.pixels, hi.transport, hi.active, hi.handles, hi.owners, hi.outputs, hi.clockLow, hi.queue, hi.depth, hi.shifting,
    hi.waiting, hi.position, hi.snapshot⟩

theorem Inv.respond {s : State} (hi : Inv s) (r : Response) : Inv (respond r s) := hi.unread rfl

/-- `SER` is not alive while no command waits (10_state R21). -/
theorem Inv.ser_none {s : State} (hi : Inv s) (hf : s.inFlight = none) : s.ser = none := by
  simpa [hf] using hi.waiting

/-- A command waits only in an Active block (10_state R17, R21). -/
theorem Inv.active_of_inFlight {s : State} {c : Cont} (hi : Inv s) (hf : s.inFlight = some c) : s.lifecycle = .active := by
  obtain ⟨p, hp⟩ := Option.isSome_iff_exists.mp (hi.waiting.symm.trans (by rw [hf]; rfl))
  obtain ⟨ht, -⟩ := hi.position p hp
  refine hi.transport.mpr fun hn => ?_
  rw [hn] at ht
  cases ht

/-- Another frame, while no command waits at a byte of the present one. -/
theorem Inv.withFrame {s : State} (hi : Inv s) (hf : s.inFlight = none) (f : List Byte) : Inv { s with frame := f } :=
  ⟨hi.pixels, hi.transport, hi.active, hi.handles, hi.owners, hi.outputs, hi.clockLow, hi.queue, hi.depth, hi.shifting,
    hi.waiting, fun p hp => by simp [hi.ser_none hf] at hp, hi.snapshot⟩

/-- Another buffer of `N` entries, and another level (10_state R13). -/
theorem Inv.writes {s u : State} (hi : Inv s) (hu : u = { s with pix := u.pix, bright := u.bright })
    (hn : u.pix.colors.length = s.cfg.n) : Inv u := by
  rw [hu]
  exact ⟨fun _ => hn, hi.transport, hi.active, hi.handles, hi.owners, hi.outputs, hi.clockLow, hi.queue, hi.depth, hi.shifting,
    hi.waiting, hi.position, hi.snapshot⟩

/-- Bytes are handed to the hardware channel: what is left to say is that the command `c` that waits afterwards agrees with `SER`. -/
theorem Inv.handed {s u : State} {f : List Byte} {c : Option Cont} (hi : Inv s) (ht : isHardwareTimed s.transport = true)
    (hh : Handed s u f) (hwait : c.isSome = u.ser.isSome)
    (hpos : ∀ p, u.ser = some p → p.k < s.frame.length ∧ p.j = none ∧ p.p = none)
    (hsnap : ∀ cs : PixelBuffer, c = some (.restore cs) → cs.colors.length = s.cfg.n) : Inv { u with inFlight := c } := by
  have hshift := hh.shifting hi.shifting
  have hdepth := fun d hd => hh.depth d hd (hi.depth d hd)
  have hsoft : isSoftwareTimed s.transport ≠ true := by
    cases hs : s.transport <;> simp [hs, isHardwareTimed, isSoftwareTimed] at ht ⊢
  rw [hh.frame]
  exact ⟨hi.pixels, hi.transport, hi.active, hi.handles, hi.owners, hi.outputs, fun h => absurd h hsoft,
    fun h => by simp [ht] at h, hdepth, hshift, hwait, fun p hp => ⟨ht, hpos p hp⟩, hsnap⟩

/-- The channel puts out bits (41_transport R97). -/
theorem Inv.ran {s t : State} {bits : List Bool} (hi : Inv s) (ht : isHardwareTimed s.transport = true)
    (hr : ChannelRan s t bits) : Inv t := by
  have hser : t.ser = s.ser := by rw [hr.1]
  have hfl : t.inFlight = s.inFlight := by rw [hr.1]
  exact hi.handed ht hr.handed (c := t.inFlight) (by rw [hser, hfl, hi.waiting])
    (fun p hp => (hi.position p (hser ▸ hp)).2) (fun cs hc => hi.snapshot cs (hfl ▸ hc))

/-- The channel's chance to run: without an active channel it does nothing (41_transport R97). -/
theorem Inv.channelRun {s : State} (hi : Inv s) : Inv (channelRun s) := by
  cases ht : isHardwareTimed s.transport with
  | false => rwa [channelRun_inactive (hi.active.trans ht)]
  | true =>
    obtain ⟨bits, hr⟩ := channelRun_ran s
    exact hi.ran ht hr

/-- A hardware-timed TRANSMIT of the bytes from offset `k` on, with the command `c` left to wait where it stops (41_transport R96,
R98). -/
theorem Inv.sendHardware {s : State} (hi : Inv s) (ht : isHardwareTimed s.transport = true) (k : Nat) (c : Cont)
    (hsnap : ∀ cs : PixelBuffer, c = .restore cs → cs.colors.length = s.cfg.n) :
    Inv { sendHardware (s.frame.drop k) k s with
      inFlight := if (sendHardware (s.frame.drop k) k s).ser.isSome then some c else none } := by
  obtain ⟨j, -, hh, hend⟩ := sendHardware_front (s.frame.drop k) k s
  rcases hend with ⟨-, hser⟩ | ⟨hj, hser⟩
  · refine hi.handed ht hh ?_ ?_ ?_ <;> simp [hser]
  · rw [List.length_drop] at hj
    refine hi.handed ht hh ?_ ?_ ?_
    · simp [hser]
    · intro p hp
      obtain rfl : ⟨k + j, none, none⟩ = p := Option.some.inj (hser.symm.trans hp)
      exact ⟨by simp only; omega, rfl, rfl⟩
    · simpa [hser] using hsnap

/-- A software-timed TRANSMIT keeps a low clock low, and nothing waits after it (41_transport R99, R101). -/
theorem Inv.sendSoftware {s : State} (hi : Inv s) (bs : List Byte) (k : Nat) :
    Inv { sendSoftware bs k s with inFlight := none } := by
  rw [sendSoftware_eq]
  exact ⟨hi.pixels, hi.transport, hi.active, hi.handles, hi.owners, hi.outputs, fun ht => by simp [hi.clockLow ht], hi.queue,
    hi.depth, hi.shifting, rfl, by simp, by simp⟩

/-- TRANSMIT and its end: with the wait of `c` recorded where there is one, the invariant holds again (41_transport R95). -/
theorem Inv.transmit {s u : State} (hi : Inv s) (c : Cont)
    (hsnap : ∀ cs : PixelBuffer, c = .restore cs → cs.colors.length = s.cfg.n) (h : transmit s = .next u) :
    Inv { u with inFlight := if u.ser.isSome then some c else none } := by
  cases ht : s.transport with
  | none => simp [Machine.transmit, ht] at h
  | hardwareTimed i =>
    simp only [Machine.transmit, ht] at h
    cases h
    simpa using hi.sendHardware (by simp [ht, isHardwareTimed]) 0 c hsnap
  | softwareTimed d c' =>
    simp only [Machine.transmit, ht] at h
    cases h
    have hser : (Machine.sendSoftware s.frame 0 s).ser = none := by rw [sendSoftware_eq]
    simpa [hser] using hi.sendSoftware s.frame 0

/-- The wait of `c` goes on (41_transport R96, R98). -/
theorem Inv.transmitOn {s u : State} {c : Cont} (hi : Inv s) (hf : s.inFlight = some c) (h : transmitOn s = .next u) :
    Inv { u with inFlight := if u.ser.isSome then some c else none } := by
  obtain ⟨i, p, ht, -, rfl⟩ := transmitOn_next h
  exact hi.sendHardware (by simp [ht, isHardwareTimed]) p.k c fun cs hc => hi.snapshot cs (hc ▸ hf)

/-- The response after TRANSMIT, or the wait (D23). -/
theorem Inv.replyWhenSent {u t : State} (hi : Inv { u with inFlight := if u.ser.isSome then some .reply else none })
    (h : replyWhenSent u = .next t) : Inv t := by
  cases hs : u.ser with
  | some p =>
    rw [replyWhenSent_waits hs] at h
    cases h
    simpa [hs] using hi
  | none =>
    rw [replyWhenSent_sent hs] at h
    cases h
    refine Inv.unread (s := { u with inFlight := none }) ?_ rfl
    simpa [hs] using hi

/-- The commit of a write command (42_strip_controller R113). -/
theorem Inv.commit {s t : State} (hi : Inv s) (hf : s.inFlight = none) (h : commit s = .next t) : Inv t := by
  obtain ⟨u, hu, ht⟩ := andThen_next h
  exact ((hi.withFrame hf (encodeFrame s.pix s.bright)).transmit .reply (by simp) hu).replyWhenSent ht

/-- After the first frame of SHOW_TEST_PATTERN: the wait, or the hold, the snapshot and its commit (44_diagnostics R145). -/
theorem Inv.restoreWhenSent {cs : PixelBuffer} {u t : State} (hn : cs.colors.length = u.cfg.n)
    (hi : Inv { u with inFlight := if u.ser.isSome then some (.restore cs) else none }) (h : restoreWhenSent cs u = .next t) :
    Inv t := by
  cases hs : u.ser with
  | some p =>
    rw [restoreWhenSent_waits cs hs] at h
    cases h
    simpa [hs] using hi
  | none =>
    rw [restoreWhenSent_sent cs hs] at h
    have hi0 : Inv { u with inFlight := none } := by simpa [hs] using hi
    have hrun : OutputOnly { u with inFlight := none } (Machine.channelRun { u with inFlight := none }) :=
      channelRun_outputOnly _
    have hheld : Inv (emit (.delay (.hold u.plat.patternHold.val)) (Machine.channelRun { u with inFlight := none })) :=
      hi0.channelRun.unread rfl
    exact (hheld.writes (u := writePixels cs _) rfl (hn.trans (by rw [emit_cfg, hrun]))).commit (channelRun_inFlight _) h

/-- A step of a command in flight. -/
theorem Inv.resumeCommand {c : Cont} {s t : State} (hi : Inv s) (hf : s.inFlight = some c)
    (h : resumeCommand c s = .next t) : Inv t := by
  cases c with
  | reply =>
    obtain ⟨u, hu, ht⟩ := andThen_next h
    exact (hi.transmitOn hf hu).replyWhenSent ht
  | restore cs =>
    obtain ⟨u, hu, ht⟩ := andThen_next h
    have hcfg : u.cfg = s.cfg := by rw [transmitOn_outputOnly hu]
    exact Inv.restoreWhenSent (by rw [hcfg]; exact hi.snapshot cs hf) (hi.transmitOn hf hu) ht

/-- SHUTDOWN of an active block (41_transport R105, 42_strip_controller R125). -/
theorem Inv.shutdown {s u : State} (hi : Inv s) (hf : s.inFlight = none) (h : release s = .next u) :
    Inv { u with lifecycle := .closed } := by
  have hser := hi.ser_none hf
  rcases release_cases h with ⟨d, c, ht, rfl⟩ | ⟨i, bits, dl, cl, e, ht, -, rfl⟩
  · have hq : s.hwq = [] := hi.queue (by simp [ht, isHardwareTimed])
    have ha : s.hwActive = false := by rw [hi.active, ht]; rfl
    constructor <;> simp [hq, ha, hi.shifting hq, hf, hser, isHardwareTimed, isSoftwareTimed, handlesOf, ownerOf]
  · constructor <;> simp [hf, hser, isHardwareTimed, isSoftwareTimed, handlesOf, ownerOf]

/-- The pin diagnostics leave the pins outputs, and the clock low under the software-timed transport (44_diagnostics R141, R143). -/
theorem Inv.diagnosed {s t : State} (hi : Inv s) (h : Diagnosed s t)
    (hout : s.transport ≠ .none → t.dataDir = .output ∧ t.clockDir = .output)
    (hclk : isSoftwareTimed s.transport = true → t.clockLevel = false) : Inv t := by
  rw [h]
  refine ⟨hi.pixels, hi.transport, hi.active, hi.handles, hi.owners, hout, hclk, ?_, ?_, ?_, hi.waiting, hi.position, hi.snapshot⟩
  · intro ht
    simp [hi.queue ht]
  · intro d hd
    have := hi.depth d hd
    show (if suspends s then [] else s.hwq).length ≤ (d : Nat)
    split
    · simp
    · exact this
  · show (if suspends s then [] else s.hwq) = [] → (if suspends s then 0 else s.headSent) = 0
    split
    · exact fun _ => rfl
    · exact hi.shifting

/-- CONSTRUCT with the hardware channel claimed (41_transport R88). -/
theorem Inv.constructedHardware {s : State} (hi : Inv s) (hf : s.inFlight = none) (cfg : Cfg) (l : Level) (v : Nat) (e : Env)
    (hfs : cfg.forceSoftware = false) :
    Inv (constructed cfg l (.hardwareTimed cfg.hwChannelId)
      (claimHardware v cfg.hwChannelId cfg.hwFreqHz cfg.dataPin cfg.clockPin { s with env := e })) := by
  have hser := hi.ser_none hf
  constructor <;> simp [constructed, claimHardware, setPinOwners, emit, hf, hser, hfs, isHardwareTimed, isSoftwareTimed,
    handlesOf, ownerOf]

/-- CONSTRUCT with the pins claimed: there was no transport before, so the queue is empty (41_transport R88). -/
theorem Inv.constructedSoftware {s : State} (hi : Inv s) (hf : s.inFlight = none) (hl : s.lifecycle = .uninitialized)
    (cfg : Cfg) (l : Level) (e : Env) (evs : List Event) :
    Inv (constructed cfg l (.softwareTimed cfg.dataPin cfg.clockPin)
      (claimSoftware cfg.dataPin cfg.clockPin { s with env := e, trace := evs })) := by
  have hser := hi.ser_none hf
  have htr : s.transport = .none := by
    have := hi.transport
    simpa [hl] using this
  have hq : s.hwq = [] := hi.queue (by simp [htr, isHardwareTimed])
  have ha : s.hwActive = false := by rw [hi.active, htr]; rfl
  constructor <;> simp [constructed, claimSoftware_eq, hf, hser, hq, ha, hi.shifting hq, isHardwareTimed, isSoftwareTimed,
    handlesOf, ownerOf]

/-- CONSTRUCT after its checks (42_strip_controller R110). -/
theorem Inv.constructWith {cfg : Cfg} {l : Level} {s t : State} (hi : Inv s) (hf : s.inFlight = none)
    (hl : s.lifecycle = .uninitialized) (h : constructWith cfg l s = .next t) : Inv t := by
  rcases constructWith_cases h with ⟨e, rfl | rfl⟩ | ⟨tr, u, hclaim, hend⟩
  · exact hi.unread rfl
  · exact hi.unread rfl
  · have ⟨hbuilt, hbf⟩ : Inv (constructed cfg l tr u) ∧ (constructed cfg l tr u).inFlight = none := by
      rcases hclaim with ⟨v, e, hfs, rfl, rfl⟩ | ⟨e, lg, rfl, rfl⟩
      · exact ⟨hi.constructedHardware hf cfg l v e hfs, hf⟩
      · exact ⟨hi.constructedSoftware hf hl cfg l e _, by simp [constructed, claimSoftware_eq, hf]⟩
    rcases hend with ⟨-, hc⟩ | ⟨-, rfl⟩
    · exact hbuilt.commit hbf hc
    · exact hbuilt.respond _

/-- Every instruction keeps the invariant, at a boundary where no command waits. -/
theorem Inv.exec {i : Instr} {s t : State} (hi : Inv s) (hf : s.inFlight = none) (h : exec i s = .next t) : Inv t := by
  rcases exec_cases h with ⟨-, bs, rfl⟩ | ⟨-, r, -, rfl⟩ | ⟨hl, u, hw, hc⟩ | ⟨-, hl, cfg, x, hc⟩ | ⟨-, -, u, hr, rfl⟩ |
    ⟨-, -, rfl⟩ | ⟨-, -, rfl⟩ | ⟨-, hl, u, hu, hr⟩
  · exact hi.withFrame hf _
  · exact hi.respond r
  · have hu := written_frame hw
    exact (hi.writes hu (written_length hi hl hw)).commit (by rw [hu]; exact hf) hc
  · exact hi.constructWith hf hl hc
  · exact (hi.shutdown hf hr).respond _
  · refine (hi.diagnosed (toggleTest_diagnosed s _) ?_ ?_).respond _
    · rw [unsuspend_dataDir, unsuspend_clockDir, toggleCycles_eq]
      simpa using hi.outputs
    · rw [unsuspend_clockLevel]
      exact fun _ => rfl
  · refine (hi.diagnosed (driveCheck_diagnosed s _) ?_ ?_).respond _
    · rw [unsuspend_dataDir, unsuspend_clockDir]
      exact fun _ => ⟨rfl, rfl⟩
    · rw [unsuspend_clockLevel, restoreOutput_clockLevel, restoreOutput_clockLevel, (runStages_eq _ _).2]
      exact fun ht => suspend_clockLow (hi.clockLow ht)
  · have hcfg : u.cfg = s.cfg := by rw [transmit_outputOnly hu]; rfl
    have hpat : Inv (assembleFrame (writePixels (testPattern s.cfg.n) s)) :=
      (hi.writes (u := writePixels (testPattern s.cfg.n) s) rfl (by simp)).withFrame hf _
    refine Inv.restoreWhenSent (by rw [hcfg]; exact hi.pixels hl) (hpat.transmit _ ?_ hu) hr
    rintro cs ⟨⟩
    exact hi.pixels hl

/-- The platform's reset (70_reset_and_hazards R175, R176). -/
theorem Inv.applyReset (s : State) : Inv (applyReset s) := by
  constructor <;> simp [Machine.applyReset, State.reset, isHardwareTimed, isSoftwareTimed, handlesOf, ownerOf]

/-- Settles O14: each way a step can go is one operation, and each operation keeps the invariant. -/
theorem stepKeepsTheInvariant : Obligations.StepKeepsTheInvariant := by
  intro s t hi h
  rcases step_next h with ⟨-, rfl⟩ | ⟨-, c, hc, hr⟩ | ⟨-, hc, w, rest, i, -, hx⟩ | ⟨-, hc, -, p, hend⟩
  · exact Inv.applyReset s
  · exact hi.resumeCommand hc hr
  · exact Inv.exec (s := { s with encq := rest }) (hi.unread rfl) hc hx
  · have hrun : Inv (channelRun { s with port := p }) := Inv.channelRun (s := { s with port := p }) (hi.unread rfl)
    rcases hend with rfl | rfl | ⟨i, -, hx⟩
    · exact hrun
    · exact hrun.respond _
    · exact hrun.exec ((channelRun_inFlight _).trans hc) hx

end Sys2Proof.Machine
end

section
/-! What each instruction may write, and the statements about the lifecycle, the frame and the setters (10_state R11, R12, R17, R27,
R28; 20_memory R43; 42_strip_controller R128). -/

namespace Sys2Proof.Machine

/-- Where an instruction is no setter, its own write leaves `PIX` (10_state R13). -/
theorem written_pix {i : Instr} {s u : State} (hw : written i s = some u) (h : writesPixels i = false) : u.pix = s.pix := by
  cases i <;> simp [writesPixels] at h <;> simp [written, -Subtype.exists] at hw
  case setBrightness x => obtain ⟨_, -, rfl⟩ := hw; rfl
  case flush => rw [hw]

/-- Only SET_BRIGHTNESS among the write commands writes `BRIGHT` (10_state R16). -/
theorem written_bright {i : Instr} {s u : State} (hw : written i s = some u) (h : writesBright i = false) :
    u.bright = s.bright := by
  cases i <;> simp [writesBright] at h <;> simp [written, -Subtype.exists] at hw
  case setPixel k c => obtain ⟨-, _, -, rfl⟩ := hw; rfl
  case handleSet k c => obtain ⟨-, _, -, rfl⟩ := hw; rfl
  case setAll c => obtain ⟨_, -, rfl⟩ := hw; rfl
  case setBuffer cs => obtain ⟨-, _, -, rfl⟩ := hw; rfl
  case turnOn => rw [← hw]
  case turnOff => rw [← hw]
  case flush => rw [hw]

/-- CONSTRUCT writes both `PIX` and `BRIGHT` (42_strip_controller R110). -/
theorem writes_of_isConstruct {i : Instr} (h : isConstruct i = true) : writesPixels i = true ∧ writesBright i = true := by
  cases i <;> simp [isConstruct] at h
  exact ⟨rfl, rfl⟩

/-- CONSTRUCT after its checks: output only, where it fails; else an Active block, with the frame that was there unless it committed
one (42_strip_controller R110). -/
theorem constructWith_changes {cfg : Cfg} {l : Level} {s t : State} (h : constructWith cfg l s = .next t) :
    OutputOnly s t ∨
    ∃ u, u.lifecycle = .active ∧ u.frame = s.frame ∧ u.encq = s.encq ∧ u.plat = s.plat ∧
      (OutputOnly u t ∨ OutputOnly (assembleFrame u) t) := by
  rcases constructWith_cases h with ⟨e, rfl | rfl⟩ | ⟨tr, u, hclaim, hend⟩
  · exact .inl rfl
  · exact .inl rfl
  · refine .inr ⟨constructed cfg l tr u, rfl, ?_⟩
    have ⟨hfr, hq, hp⟩ : u.frame = s.frame ∧ u.encq = s.encq ∧ u.plat = s.plat := by
      rcases hclaim with ⟨v, e, -, -, rfl⟩ | ⟨e, lg, -, rfl⟩
      · exact ⟨rfl, rfl, rfl⟩
      · simp [claimSoftware_eq]
    refine ⟨hfr, hq, hp, ?_⟩
    rcases hend with ⟨-, hc⟩ | ⟨-, rfl⟩
    · exact .inr (commit_outputOnly hc)
    · exact .inl rfl

/-- What RELEASE writes but output: the transport, the owners and `HW_ACTIVE` (41_transport R105). -/
theorem release_changes {s u : State} (h : release s = .next u) :
    OutputOnly { s with transport := .none, hwActive := u.hwActive, dataOwner := .unclaimed, clockOwner := .unclaimed } u := by
  rcases release_cases h with ⟨d, c, -, rfl⟩ | ⟨i, bits, dl, cl, e, -, -, rfl⟩
  · rfl
  · rfl

/-- Everything an instruction can write besides output: bytes of the frame; nothing; `PIX` and `BRIGHT`, with a new frame; what
CONSTRUCT sets up; what SHUTDOWN gives back. -/
theorem exec_changes {i : Instr} {s t : State} (h : exec i s = .next t) :
    (isCommand i = false ∧ ∃ bs, t = appendFrame bs s) ∨
    OutputOnly s t ∨
    (s.lifecycle = .active ∧ ∃ u, u = { s with pix := u.pix, bright := u.bright } ∧
      (writesPixels i = false → u.pix = s.pix) ∧ (writesBright i = false → u.bright = s.bright) ∧
      OutputOnly (assembleFrame u) t) ∨
    (isConstruct i = true ∧ s.lifecycle = .uninitialized ∧
      ∃ u, u.lifecycle = .active ∧ u.frame = s.frame ∧ u.encq = s.encq ∧ u.plat = s.plat ∧
        (OutputOnly u t ∨ OutputOnly (assembleFrame u) t)) ∨
    (i = .shutdown ∧ s.lifecycle = .active ∧
      OutputOnly { s with lifecycle := .closed, transport := .none, hwActive := t.hwActive, dataOwner := .unclaimed,
                          clockOwner := .unclaimed } t) := by
  rcases exec_cases h with ⟨hi, bs, rfl⟩ | ⟨-, r, -, rfl⟩ | ⟨hl, u, hw, hc⟩ | ⟨hi, hl, cfg, x, hc⟩ | ⟨rfl, hl, u, hr, rfl⟩ |
    ⟨-, -, rfl⟩ | ⟨-, -, rfl⟩ | ⟨rfl, hl, u, hu, hr⟩
  · exact .inl ⟨hi, bs, rfl⟩
  · exact .inr (.inl (.respond r s))
  · exact .inr (.inr (.inl ⟨hl, u, written_frame hw, written_pix hw, written_bright hw, commit_outputOnly hc⟩))
  · rcases constructWith_changes hc with ho | hb
    · exact .inr (.inl ho)
    · exact .inr (.inr (.inr (.inl ⟨hi, hl, hb⟩)))
  · refine .inr (.inr (.inr (.inr ⟨rfl, hl, ?_⟩)))
    rw [OutputOnly, release_changes hr]
    rfl
  · exact .inr (.inl ((toggleTest_diagnosed s _).outputOnly.trans (.respond _ _)))
  · exact .inr (.inl ((driveCheck_diagnosed s _).outputOnly.trans (.respond _ _)))
  · have hsu := transmit_outputOnly hu
    refine .inr (.inr (.inl ⟨hl, ?_⟩))
    rcases restoreWhenSent_outputOnly hr with hut | hut
    · exact ⟨writePixels (testPattern s.cfg.n) s, rfl, nofun, fun _ => rfl, hsu.trans hut⟩
    · refine ⟨writePixels s.pix s, rfl, nofun, fun _ => rfl, OutputOnly.trans ?_ hut⟩
      rw [OutputOnly, hsu]
      rfl

/-- Settles O53: what an instruction writes besides output is its own write, CONSTRUCT's setup or SHUTDOWN's release. -/
theorem onlySettersWrite : Obligations.OnlySettersWrite := by
  intro i s t h
  rcases exec_changes h with ⟨-, bs, rfl⟩ | ho | ⟨-, u, hu, hp, hb, ho⟩ | ⟨hc, -⟩ | ⟨rfl, -, ho⟩
  · exact ⟨fun _ => rfl, fun _ => rfl, fun _ => ⟨rfl, rfl, fun _ => ⟨rfl, rfl, rfl, rfl, rfl⟩⟩⟩
  · rw [ho]
    exact ⟨fun _ => rfl, fun _ => rfl, fun _ => ⟨rfl, rfl, fun _ => ⟨rfl, rfl, rfl, rfl, rfl⟩⟩⟩
  · rw [ho]
    refine ⟨hp, hb, fun _ => ?_⟩
    rw [hu]
    exact ⟨rfl, rfl, fun _ => ⟨rfl, rfl, rfl, rfl, rfl⟩⟩
  · obtain ⟨hp, hb⟩ := writes_of_isConstruct hc
    simp [hc, hp, hb]
  · rw [ho]
    exact ⟨fun _ => rfl, fun _ => rfl, fun _ => ⟨rfl, rfl, fun hi => absurd rfl hi⟩⟩

/-- What a step may do to the lifecycle: nothing, on the way into Active, or on the way into Closed (10_state R11, R12, R17). -/
def MovesForward (s t : State) : Prop :=
  t.plat = s.plat ∧
  ((t.lifecycle = s.lifecycle ∧ t.cfg = s.cfg ∧ t.transport = s.transport) ∨
   (s.lifecycle = .uninitialized ∧ t.lifecycle = .active) ∨
   (s.lifecycle = .active ∧ t.lifecycle = .closed ∧ t.cfg = s.cfg ∧ t.transport = .none))

theorem OutputOnly.movesForward {s t : State} (h : OutputOnly s t) : MovesForward s t := by
  rw [h]
  exact ⟨rfl, .inl ⟨rfl, rfl, rfl⟩⟩

theorem exec_movesForward {i : Instr} {s t : State} (h : exec i s = .next t) : MovesForward s t := by
  rcases exec_changes h with ⟨-, bs, rfl⟩ | ho | ⟨-, u, hu, -, -, ho⟩ | ⟨-, hl, u, hul, -, -, hup, ho⟩ | ⟨-, hl, ho⟩
  · exact ⟨rfl, .inl ⟨rfl, rfl, rfl⟩⟩
  · exact ho.movesForward
  · rw [ho, hu]
    exact ⟨rfl, .inl ⟨rfl, rfl, rfl⟩⟩
  · rcases ho with ho | ho <;> rw [ho] <;> exact ⟨hup, .inr (.inl ⟨hl, hul⟩)⟩
  · rw [ho]
    exact ⟨rfl, .inr (.inr ⟨hl, rfl, rfl, rfl⟩)⟩

/-- Settles O16: a command in flight and the channel write output only, so what moves the lifecycle is an instruction. -/
theorem lifecycleAndTransportNeverGoBack : Obligations.LifecycleAndTransportNeverGoBack := by
  intro s t hreset h
  show MovesForward s t
  rcases step_next h with ⟨hr, -⟩ | ⟨-, c, -, hr⟩ | ⟨-, -, w, rest, i, -, hx⟩ | ⟨-, -, -, p, hend⟩
  · rw [hreset] at hr; cases hr
  · rcases resumeCommand_outputOnly hr with ho | ⟨cs, ho⟩
    · exact ho.movesForward
    · exact OutputOnly.movesForward (s := assembleFrame (writePixels cs s)) ho
  · exact exec_movesForward (s := { s with encq := rest }) hx
  · have hrun := channelRun_outputOnly { s with port := p }
    show MovesForward { s with port := p } t
    rcases hend with rfl | rfl | ⟨i, -, hx⟩
    · exact hrun.movesForward
    · exact (hrun.trans (.respond _ _)).movesForward
    · have hm := exec_movesForward hx
      rw [hrun] at hm
      exact hm

/-- Output leaves the frame and what it encodes. -/
theorem OutputOnly.freshFrame {s t : State} (h : OutputOnly s t) (hf : FreshFrame s) : FreshFrame t := by
  rw [h]
  exact hf

/-- A frame just assembled encodes the present `PIX` and `BRIGHT` (42_strip_controller R113). -/
theorem assembleFrame_freshFrame {s : State} (h : s.lifecycle ≠ .uninitialized) : FreshFrame (assembleFrame s) :=
  .inr ⟨h, rfl⟩

/-- Every command keeps the frame fresh and places no frame element. -/
theorem exec_freshFrame {i : Instr} {s t : State} (hf : FreshFrame s) (hi : isCommand i = true) (h : exec i s = .next t) :
    FreshFrame t ∧ t.encq = s.encq := by
  rcases exec_changes h with ⟨hn, -⟩ | ho | ⟨hl, u, hu, -, -, ho⟩ | ⟨-, hl, u, hul, hfr, hq, -, ho⟩ | ⟨-, hl, ho⟩
  · rw [hi] at hn; cases hn
  · exact ⟨ho.freshFrame hf, by rw [ho]⟩
  · have hul : u.lifecycle ≠ .uninitialized := by rw [hu]; simp [hl]
    exact ⟨ho.freshFrame (assembleFrame_freshFrame hul), by rw [ho, hu]; rfl⟩
  · have hnil : s.frame = [] := hf.resolve_right fun hr => hr.1 hl
    rcases ho with ho | ho
    · exact ⟨ho.freshFrame (.inl (hfr.trans hnil)), by rw [ho, hq]⟩
    · exact ⟨ho.freshFrame (assembleFrame_freshFrame (by simp [hul])), by rw [ho]; exact hq⟩
  · exact ⟨ho.freshFrame (hf.imp_right fun hr => ⟨nofun, hr.2⟩), by rw [ho]⟩

/-- Settles O17: every write of `PIX` or `BRIGHT` ends in a frame assembled from them, also where a wait stops it. -/
theorem frameIsNeverStale : Obligations.FrameIsNeverStale := by
  intro s t hinv hf he h
  rcases step_next h with ⟨-, rfl⟩ | ⟨-, c, hc, hr⟩ | ⟨-, -, w, rest, i, hw, -⟩ | ⟨-, -, -, p, hend⟩
  · exact ⟨.inl rfl, rfl⟩
  · rcases resumeCommand_outputOnly hr with ho | ⟨cs, ho⟩
    · exact ⟨ho.freshFrame hf, by rw [ho]; exact he⟩
    · have hl : (writePixels cs s).lifecycle ≠ .uninitialized := by simp [hinv.active_of_inFlight hc]
      exact ⟨ho.freshFrame (assembleFrame_freshFrame hl), by rw [ho]; exact he⟩
  · rw [he] at hw; cases hw
  · have hrun := channelRun_outputOnly { s with port := p }
    have hfr : FreshFrame (channelRun { s with port := p }) := hrun.freshFrame hf
    have hqr : (channelRun { s with port := p }).encq = [] := by rw [hrun]; exact he
    rcases hend with rfl | rfl | ⟨i, hi, hx⟩
    · exact ⟨hfr, hqr⟩
    · exact ⟨hfr, hqr⟩
    · obtain ⟨hft, hqt⟩ := exec_freshFrame hfr hi hx
      exact ⟨hft, hqt.trans hqr⟩

end Sys2Proof.Machine
end

section
/-! The memory family: the order in which the hardware channel puts the written bytes on the wire, and the frame of a read
(20_memory R38, R41; 41_transport R92, R96, R97; 42_strip_controller R117 to R119, R121). -/

namespace Sys2Proof.Machine

/-! ### Observing events that drive no pin

Without a `Pin` event the wire bits are those of the channel alone, whatever the levels were, so they add up over appended lists. -/

/-- The bit an event of the channel puts on the wire (10_state R26). -/
def wireBitOf : Event → Option Bool
  | .wireBit v => some v
  | _ => none

theorem wireBitsFrom_of_no_pin {es : List Event} (h : ∀ p v, Event.pin p v ∉ es) (clk dat : Bool) :
    wireBitsFrom clk dat es = es.filterMap wireBitOf := by
  induction es generalizing clk dat with
  | nil => rfl
  | cons e es ih =>
    have ih := ih fun p v hm => h p v (List.mem_cons_of_mem _ hm)
    cases e with
    | pin p v => exact absurd (List.mem_cons_self ..) (h p v)
    | _ => simp [wireBitsFrom, List.filterMap_cons, wireBitOf, ih]

@[simp] theorem writtenBytes_append (es fs : List Event) : writtenBytes (es ++ fs) = writtenBytes es ++ writtenBytes fs := by
  induction es with
  | nil => rfl
  | cons e es ih => cases e <;> simp [writtenBytes, ih]

/-- The channel's own events write no byte. -/
theorem writtenBytes_filter_isControllerEvent (es : List Event) :
    writtenBytes (es.filter isControllerEvent) = writtenBytes es := by
  induction es with
  | nil => rfl
  | cons e es ih => cases e <;> simp [List.filter_cons, isControllerEvent, writtenBytes, ih]

theorem writtenBytes_map_hwWrite (f : List Byte) : writtenBytes (f.map Event.hwWrite) = f := by
  induction f with
  | nil => rfl
  | cons b f ih => simp [writtenBytes, ih]

/-! ### The order of the wire -/

/-- From `s` to `t`, unless the channel was suspended, no pin was driven, and the bits put out and those still queued are those queued
before and those of the bytes written, in order (20_memory R41, 41_transport R97). -/
def KeepsOrder (s t : State) : Prop :=
  ∃ ev, t.trace = s.trace ++ ev ∧
    (Event.hwSuspend ∉ ev →
      (∀ p v, Event.pin p v ∉ ev) ∧
      ev.filterMap wireBitOf ++ queuedBits t = queuedBits s ++ frameBits (writtenBytes ev))

/-- What changes neither the trace nor the queue keeps the order. -/
theorem KeepsOrder.of_eq {s t : State} (htrace : t.trace = s.trace) (hq : queuedBits t = queuedBits s) : KeepsOrder s t :=
  ⟨[], by simp [htrace, hq, writtenBytes, frameBits]⟩

theorem KeepsOrder.trans {s t u : State} (h : KeepsOrder s t) (g : KeepsOrder t u) : KeepsOrder s u := by
  obtain ⟨ev, htrace, hev⟩ := h
  obtain ⟨ev', htrace', hev'⟩ := g
  refine ⟨ev ++ ev', by rw [htrace', htrace, List.append_assoc], fun hn => ?_⟩
  rw [List.mem_append, not_or] at hn
  obtain ⟨hpin, hbits⟩ := hev hn.1
  obtain ⟨hpin', hbits'⟩ := hev' hn.2
  refine ⟨fun p v hm => (List.mem_append.mp hm).elim (hpin p v) (hpin' p v), ?_⟩
  calc (ev ++ ev').filterMap wireBitOf ++ queuedBits u
      = ev.filterMap wireBitOf ++ (ev'.filterMap wireBitOf ++ queuedBits u) := by simp
    _ = (ev.filterMap wireBitOf ++ queuedBits t) ++ frameBits (writtenBytes ev') := by rw [hbits', List.append_assoc]
    _ = queuedBits s ++ frameBits (writtenBytes (ev ++ ev')) := by
      rw [hbits, writtenBytes_append, frameBits_append, List.append_assoc]

/-- Handing bytes to the hardware channel keeps the order, whatever the channel puts out meanwhile (41_transport R96, R97). -/
theorem Handed.keepsOrder {s t : State} {f : List Byte} (h : Handed s t f) : KeepsOrder s t := by
  obtain ⟨ev, hhw, htrace, hwrites, hbits⟩ := h.moved
  have hpin : ∀ p v, Event.pin p v ∉ ev := fun p v hm => by simpa [isHardwareEvent] using hhw _ hm
  have hf : writtenBytes ev = f := by
    rw [← writtenBytes_filter_isControllerEvent, hwrites, writtenBytes_map_hwWrite]
  exact ⟨ev, htrace, fun _ => ⟨hpin, by rw [← wireBitsFrom_of_no_pin hpin false false, hbits, hf]⟩⟩

theorem channelRun_keepsOrder (s : State) : KeepsOrder s (channelRun s) := by
  obtain ⟨bits, hr⟩ := channelRun_ran s
  exact hr.handed.keepsOrder

/-- A hold only waits (44_diagnostics R145). -/
theorem emit_delay_keepsOrder (d : Duration) (s : State) : KeepsOrder s (emit (.delay d) s) :=
  ⟨[.delay d], rfl, fun _ => ⟨by simp, by simp [wireBitOf, writtenBytes, frameBits, queuedBits]⟩⟩

theorem transmit_keepsOrder {s t : State} (ht : isHardwareTimed s.transport = true) (h : transmit s = .next t) :
    KeepsOrder s t := by
  unfold transmit at h
  split at h
  · cases h
  · obtain ⟨_, -, hh, -⟩ := sendHardware_front s.frame 0 s
    cases h
    exact hh.keepsOrder
  · next hs => rw [hs] at ht; cases ht

theorem transmitOn_keepsOrder {s t : State} (h : transmitOn s = .next t) : KeepsOrder s t := by
  obtain ⟨_, p, -, -, rfl⟩ := transmitOn_next h
  obtain ⟨_, -, hh, -⟩ := sendHardware_front (s.frame.drop p.k) p.k s
  exact hh.keepsOrder

theorem replyWhenSent_keepsOrder {s t : State} (h : replyWhenSent s = .next t) : KeepsOrder s t := by
  cases hs : s.ser with
  | some p => rw [replyWhenSent_waits hs] at h; cases h; exact .of_eq rfl rfl
  | none => rw [replyWhenSent_sent hs] at h; cases h; exact .of_eq rfl rfl

theorem commit_keepsOrder {s t : State} (ht : isHardwareTimed s.transport = true) (h : commit s = .next t) :
    KeepsOrder s t := by
  obtain ⟨u, hu, hend⟩ := andThen_next h
  have hframe : KeepsOrder s (assembleFrame s) := .of_eq rfl rfl
  exact hframe.trans ((transmit_keepsOrder (s := assembleFrame s) ht hu).trans (replyWhenSent_keepsOrder hend))

/-- After the first frame of SHOW_TEST_PATTERN: the wait, or the channel's chance, the hold, the snapshot and its commit
(44_diagnostics R145). -/
theorem restoreWhenSent_keepsOrder {cs : PixelBuffer} {s t : State} (ht : isHardwareTimed s.transport = true)
    (h : restoreWhenSent cs s = .next t) : KeepsOrder s t := by
  cases hs : s.ser with
  | some p => rw [restoreWhenSent_waits cs hs] at h; cases h; exact .of_eq rfl rfl
  | none =>
    rw [restoreWhenSent_sent cs hs] at h
    have hrun : OutputOnly { s with inFlight := none } (channelRun { s with inFlight := none }) := channelRun_outputOnly _
    have hran : KeepsOrder s (channelRun { s with inFlight := none }) :=
      channelRun_keepsOrder { s with inFlight := none }
    have hcommit := commit_keepsOrder (by rw [writePixels_transport, emit_transport, hrun]; exact ht) h
    exact hran.trans ((emit_delay_keepsOrder _ _).trans hcommit)

/-- A step of a command in flight. -/
theorem resumeCommand_keepsOrder {c : Cont} {s t : State} (ht : isHardwareTimed s.transport = true)
    (h : resumeCommand c s = .next t) : KeepsOrder s t := by
  cases c with
  | reply =>
    obtain ⟨u, hu, hend⟩ := andThen_next h
    exact (transmitOn_keepsOrder hu).trans (replyWhenSent_keepsOrder hend)
  | restore cs =>
    obtain ⟨u, hu, hend⟩ := andThen_next h
    have hut : isHardwareTimed u.transport = true := by rw [transmitOn_outputOnly hu]; exact ht
    exact (transmitOn_keepsOrder hu).trans (restoreWhenSent_keepsOrder hut hend)

/-! ### The instructions -/

/-- After a suspension `KeepsOrder` asks for no more than a trace that grows (44_diagnostics R141, R142). -/
theorem KeepsOrder.of_suspend {s t : State} (h : suspends s = true) (ht : (suspend s).trace <+: t.trace) : KeepsOrder s t := by
  obtain ⟨bits, e, -, hs⟩ := suspend_active h
  obtain ⟨ev, hev⟩ := ht
  rw [hs] at hev
  exact ⟨.hwSuspend :: bits.map .wireBit ++ ev, by simpa using hev.symm, fun hn => absurd (by simp) hn⟩

theorem trace_prefix_unsuspend (b : Bool) (s : State) : s.trace <+: (unsuspend b s).trace := by
  unfold unsuspend
  split
  · exact List.prefix_append ..
  · exact List.prefix_rfl

theorem trace_prefix_toggleCycles (n : Nat) (s : State) : s.trace <+: (toggleCycles n s).trace := by
  rw [toggleCycles_eq]
  exact List.prefix_append ..

theorem trace_prefix_runStages (st : List (Pin × PinDir)) (s : State) : s.trace <+: (runStages st s).2.trace := by
  rw [(runStages_eq st s).2]
  exact List.prefix_append ..

theorem trace_prefix_restoreOutput (p : Pin) (s : State) : s.trace <+: (restoreOutput p s).trace := by
  cases p <;> exact List.prefix_append ..

/-- Every instruction that leaves the hardware-timed transport in place: CONSTRUCT meets none, SHUTDOWN drops it, the pin diagnostics
suspend its channel, and the others only hand bytes to it. -/
theorem exec_keepsOrder {i : Instr} {s t : State} (hi : Inv s) (ht : isHardwareTimed s.transport = true)
    (hkept : t.transport = s.transport) (h : exec i s = .next t) : KeepsOrder s t := by
  have hsus : suspends s = true := by simp [suspends, hi.active, ht]
  have hne : s.transport ≠ .none := fun hn => by rw [hn] at ht; cases ht
  rcases exec_cases h with ⟨-, bs, rfl⟩ | ⟨-, r, -, rfl⟩ | ⟨-, u, hw, hc⟩ | ⟨-, hl, -⟩ | ⟨-, -, u, hr, rfl⟩ |
    ⟨-, -, rfl⟩ | ⟨-, -, rfl⟩ | ⟨-, -, u, hu, hr⟩
  · exact .of_eq rfl rfl
  · exact .of_eq rfl rfl
  · have hu := written_frame hw
    have hsu : KeepsOrder s u := .of_eq (by rw [hu]) (by rw [hu]; rfl)
    exact hsu.trans (commit_keepsOrder (by rw [hu]; exact ht) hc)
  · have hactive := hi.transport.mpr hne
    rw [hl] at hactive
    cases hactive
  · have hnone : u.transport = .none := by rw [release_changes hr]
    exact absurd (hkept.symm.trans hnone) hne
  · exact .of_suspend hsus ((trace_prefix_toggleCycles s.plat.toggleCycles _).trans (trace_prefix_unsuspend s.hwActive
      { toggleCycles s.plat.toggleCycles (suspend s) with clockLevel := false, dataLevel := false }))
  · exact .of_suspend hsus ((trace_prefix_runStages checkStages _).trans ((trace_prefix_restoreOutput .data _).trans
      ((trace_prefix_restoreOutput .clock _).trans (trace_prefix_unsuspend s.hwActive _))))
  · have hut : isHardwareTimed u.transport = true := by rw [transmit_outputOnly hu]; exact ht
    have hpat : KeepsOrder s (assembleFrame (writePixels (testPattern s.cfg.n) s)) := .of_eq rfl rfl
    exact hpat.trans ((transmit_keepsOrder (s := assembleFrame (writePixels (testPattern s.cfg.n) s)) ht hu).trans
      (restoreWhenSent_keepsOrder hut hr))

/-- Every step without a reset that leaves the hardware-timed transport in place. -/
theorem step_keepsOrder {s t : State} (hi : Inv s) (ht : isHardwareTimed s.transport = true) (hreset : s.resetReq = false)
    (hkept : t.transport = s.transport) (h : step s = .next t) : KeepsOrder s t := by
  rcases step_next h with ⟨hr, -⟩ | ⟨-, c, -, hr⟩ | ⟨-, -, w, rest, i, -, hx⟩ | ⟨-, -, -, p, hend⟩
  · rw [hreset] at hr; cases hr
  · exact resumeCommand_keepsOrder ht hr
  · exact exec_keepsOrder (s := { s with encq := rest }) (hi.unread rfl) ht hkept hx
  · have hran : KeepsOrder s (channelRun { s with port := p }) := channelRun_keepsOrder { s with port := p }
    have hinv : Inv (channelRun { s with port := p }) := Inv.channelRun (s := { s with port := p }) (hi.unread rfl)
    have htr : (channelRun { s with port := p }).transport = s.transport := by
      rw [channelRun_outputOnly { s with port := p }]
    rcases hend with rfl | rfl | ⟨i, -, hx⟩
    · exact hran
    · exact hran.trans (.of_eq rfl rfl)
    · exact hran.trans (exec_keepsOrder hinv (by rw [htr]; exact ht) (hkept.trans htr.symm) hx)

/-- Settles O18: each operation of a step keeps the order, and the order is kept by one after the other. -/
theorem channelKeepsTheOrder : Obligations.ChannelKeepsTheOrder := by
  intro s t hi ht hreset hkept h
  obtain ⟨ev, htrace, hev⟩ := step_keepsOrder hi ht hreset hkept h
  refine ⟨ev, htrace, fun hn => ?_⟩
  obtain ⟨hpin, hbits⟩ := hev hn
  exact ⟨by rw [wireBitsFrom_of_no_pin hpin]; exact hbits, hpin⟩

/-! ### Reads -/

/-- A read is a command that neither constructs nor writes anything to commit (42_strip_controller R117 to R119, R121). -/
theorem noWrite_of_isRead {i : Instr} (h : isRead i = true) :
    isCommand i = true ∧ isConstruct i = false ∧ ∀ s, written i s = none := by
  cases i <;> simp [isRead] at h <;> exact ⟨rfl, rfl, fun _ => rfl⟩

/-- A read does nothing but respond. -/
theorem exec_read {i : Instr} {s t : State} (hi : isRead i = true) (h : exec i s = .next t) : ∃ r, t = respond r s := by
  obtain ⟨hcmd, hcon, hwr⟩ := noWrite_of_isRead hi
  rcases exec_cases h with ⟨hn, -⟩ | ⟨-, r, -, ht⟩ | ⟨-, u, hw, -⟩ | ⟨hc, -⟩ | ⟨rfl, -⟩ | ⟨rfl, -⟩ | ⟨rfl, -⟩ | ⟨rfl, -⟩
  · rw [hcmd] at hn; cases hn
  · exact ⟨r, ht⟩
  · rw [hwr] at hw; cases hw
  · rw [hcon] at hc; cases hc
  all_goals cases hi

/-- Settles O47: a read does nothing but respond. -/
theorem readsArePure : Obligations.ReadsArePure := by
  intro i s t hi h
  obtain ⟨r, rfl⟩ := exec_read hi h
  rfl

end Sys2Proof.Machine
end

section
/-! The encoding family, the codes: the decoder and the encoder against each other, and what a step does with a request (30_encoding R45
to R48, R59 to R62; 60_exceptions R150, R161). -/

namespace Sys2Proof

/-! ### The fields of a LED word (30_encoding R47) -/

theorem ledWord_level (l : Level) (b g r : Byte) : (0b111#3 ++ l ++ b ++ g ++ r : BitVec 32).extractLsb' 24 5 = l := by
  show (0b111#3 ++ l ++ b ++ g ++ r : BitVec (3 + 5 + 8 + 8 + 8)).extractLsb' 24 5 = l
  rw [BitVec.extractLsb'_append_eq_of_le (by decide), BitVec.extractLsb'_append_eq_of_le (by decide),
    BitVec.extractLsb'_append_eq_of_le (by decide), BitVec.extractLsb'_append_eq_of_add_le (by decide), BitVec.extractLsb'_eq_self]

theorem ledWord_blue (l : Level) (b g r : Byte) : (0b111#3 ++ l ++ b ++ g ++ r : BitVec 32).extractLsb' 16 8 = b := by
  show (0b111#3 ++ l ++ b ++ g ++ r : BitVec (3 + 5 + 8 + 8 + 8)).extractLsb' 16 8 = b
  rw [BitVec.extractLsb'_append_eq_of_le (by decide), BitVec.extractLsb'_append_eq_of_le (by decide),
    BitVec.extractLsb'_append_eq_of_add_le (by decide), BitVec.extractLsb'_eq_self]

theorem ledWord_green (l : Level) (b g r : Byte) : (0b111#3 ++ l ++ b ++ g ++ r : BitVec 32).extractLsb' 8 8 = g := by
  show (0b111#3 ++ l ++ b ++ g ++ r : BitVec (3 + 5 + 8 + 8 + 8)).extractLsb' 8 8 = g
  rw [BitVec.extractLsb'_append_eq_of_le (by decide), BitVec.extractLsb'_append_eq_of_add_le (by decide), BitVec.extractLsb'_eq_self]

theorem ledWord_red (l : Level) (b g r : Byte) : (0b111#3 ++ l ++ b ++ g ++ r : BitVec 32).extractLsb' 0 8 = r := by
  show (0b111#3 ++ l ++ b ++ g ++ r : BitVec (3 + 5 + 8 + 8 + 8)).extractLsb' 0 8 = r
  rw [BitVec.extractLsb'_append_eq_of_add_le (by decide), BitVec.extractLsb'_eq_self]

/-- No word is both START and a LED block: the top bits of a LED block are not zero (R46, R47). -/
theorem ne_zero_of_ledPrefix {w : BitVec 32} (h : w.extractLsb' 29 3 = 0b111#3) : w ≠ 0#32 := by
  rintro rfl
  exact absurd h (by decide)

/-- A word with the top bits of a LED block decodes to its four fields. -/
theorem decodeFrame_of_ledPrefix {w : BitVec 32} (h : w.extractLsb' 29 3 = 0b111#3) :
    decodeFrame (.word w)
      = .ok (.led (w.extractLsb' 24 5) (w.extractLsb' 16 8) (w.extractLsb' 8 8) (w.extractLsb' 0 8)) := by
  rw [decodeFrame, if_neg (ne_zero_of_ledPrefix h), if_pos h]

theorem decodeFrame_ledWord (l : Level) (b g r : Byte) :
    decodeFrame (.word (0b111#3 ++ l ++ b ++ g ++ r)) = .ok (.led l b g r) := by
  rw [decodeFrame_of_ledPrefix (ledWord_prefix l b g r), ledWord_level, ledWord_blue, ledWord_green, ledWord_red]

/-- Settles O2: a command and a frame element without fields are looked up as the encoder writes them, and a LED word gives its fields
back. -/
theorem decodeOfEncode : Obligations.DecodeOfEncode := by
  intro i
  cases i with
  | led l b g r => exact decodeFrame_ledWord l b g r
  | _ => rfl

/-! ### From a code that decodes back to the code -/

theorem encode_of_decodeFrame {w : FrameWord} {i : Instr} (h : decodeFrame w = .ok i) : encode i = .frame w := by
  cases w with
  | word w =>
    simp only [decodeFrame] at h
    split at h
    · next hw => cases h; rw [hw]; rfl
    · split at h
      · next hp => cases h; rw [encode, ← hp, ledWord_fields]
      · cases h
  | byte b =>
    simp only [decodeFrame] at h
    split at h
    · next hb => cases h; rw [hb]; rfl
    · cases h

/-- A request is its opcode's number and its operands. -/
theorem cmd_eq {r : Request} {op : Byte} {args : List Operand} (hop : r.opcode.toNat = op.toNat) (hargs : r.operands = args) :
    Code.cmd ⟨op, args⟩ = .cmd r := by
  obtain ⟨op', args'⟩ := r
  obtain rfl : op' = op := BitVec.eq_of_toNat_eq hop
  obtain rfl : args' = args := hargs
  rfl

theorem encode_of_decodeCommand {r : Request} {i : Instr} (h : decodeCommand r = .ok i) : encode i = .cmd r := by
  unfold decodeCommand at h
  split at h
  case h_19 => split at h <;> cases h
  all_goals
    next hop hargs =>
      cases h
      exact cmd_eq hop hargs

/-- Settles O3, in each of the two formats. -/
theorem encodeOfDecode : Obligations.EncodeOfDecode := by
  intro c i h
  cases c with
  | cmd r => exact encode_of_decodeCommand h
  | frame w => exact encode_of_decodeFrame h

/-! ### The well-formed codes (30_encoding R59, R61, R62) -/

/-- The encoder writes well-formed codes only. -/
theorem encode_wellFormed (i : Instr) : (encode i).wellFormed = true := by
  cases i with
  | led l b g r => exact Laws.EncodedWellFormed.led l b g r
  | _ => rfl

theorem kind_eq_natural {o : Operand} : o.kind = .natural ↔ ∃ n, o = .natural n := by cases o <;> simp [Operand.kind]
theorem kind_eq_number {o : Operand} : o.kind = .number ↔ ∃ x, o = .number x := by cases o <;> simp [Operand.kind]
theorem kind_eq_color {o : Operand} : o.kind = .color ↔ ∃ c, o = .color c := by cases o <;> simp [Operand.kind]
theorem kind_eq_colors {o : Operand} : o.kind = .colors ↔ ∃ cs, o = .colors cs := by cases o <;> simp [Operand.kind]
theorem kind_eq_pin {o : Operand} : o.kind = .pin ↔ ∃ p, o = .pin p := by cases o <;> simp [Operand.kind]
theorem kind_eq_flag {o : Operand} : o.kind = .flag ↔ ∃ b, o = .flag b := by cases o <;> simp [Operand.kind]
theorem kind_eq_ident {o : Operand} : o.kind = .ident ↔ ∃ id, o = .ident id := by cases o <;> simp [Operand.kind]

/-- A request whose operands are those of its opcode's row decodes. The cases are the rows of R59, by how many operands they have. -/
theorem decodeCommand_of_wellFormed {r : Request} (h : r.wellFormed = true) : ∃ i, decodeCommand r = .ok i := by
  obtain ⟨op, args⟩ := r
  have hs : some (args.map Operand.kind) = signature op := (of_decide_eq_true h).symm
  unfold signature at hs
  split at hs
  all_goals
    simp only [Option.some.injEq, reduceCtorEq, List.map_eq_cons_iff, List.map_eq_nil_iff, kind_eq_natural, kind_eq_number,
      kind_eq_color, kind_eq_colors, kind_eq_pin, kind_eq_flag, kind_eq_ident] at hs
  case h_1 hop =>
    obtain ⟨_, _, rfl, ⟨n, rfl⟩, _, _, rfl, ⟨x, rfl⟩, _, _, rfl, ⟨d, rfl⟩, _, _, rfl, ⟨c, rfl⟩, _, _, rfl, ⟨fs, rfl⟩,
      _, _, rfl, ⟨dbg, rfl⟩, _, _, rfl, ⟨id, rfl⟩, _, _, rfl, ⟨f, rfl⟩, rfl⟩ := hs
    simp [decodeCommand, hop]
  case h_2 hop | h_15 hop =>
    obtain ⟨_, _, rfl, ⟨i, rfl⟩, _, _, rfl, ⟨c, rfl⟩, rfl⟩ := hs
    simp [decodeCommand, hop]
  case h_3 hop | h_4 hop | h_5 hop | h_8 hop | h_14 hop =>
    obtain ⟨_, _, rfl, ⟨x, rfl⟩, rfl⟩ := hs
    simp [decodeCommand, hop]
  all_goals
    next hop =>
      obtain rfl := hs
      simp [decodeCommand, hop]

theorem decodeFrame_of_wellFormed {w : FrameWord} (h : w.wellFormed = true) : ∃ i, decodeFrame w = .ok i := by
  cases w with
  | word w =>
    simp only [FrameWord.wellFormed, Bool.or_eq_true, decide_eq_true_eq] at h
    rcases h with rfl | hp
    · exact ⟨.start, rfl⟩
    · exact ⟨_, decodeFrame_of_ledPrefix hp⟩
  | byte b =>
    obtain rfl : b = 0#8 := of_decide_eq_true h
    exact ⟨.pad, rfl⟩

/-- A code decodes exactly when it is well formed: what decodes is what the encoder writes. -/
theorem decode_ok_iff (c : Code) : (∃ i, decode c = .ok i) ↔ c.wellFormed = true := by
  constructor
  · rintro ⟨i, h⟩
    rw [← encodeOfDecode c i h]
    exact encode_wellFormed i
  · intro h
    cases c with
    | cmd r => exact decodeCommand_of_wellFormed h
    | frame w => exact decodeFrame_of_wellFormed h

/-- The reserved opcodes (R61). -/
theorem signature_eq_none_iff (op : Byte) : signature op = none ↔ (op = 0x0F#8 ∨ 0x13 ≤ op.toNat) := by
  have hlit : op = 0x0F#8 ↔ op.toNat = 0x0F := BitVec.toNat_inj.symm
  rw [hlit]
  unfold signature
  split
  case h_19 =>
    simp only [imp_false, true_iff] at *
    omega
  all_goals
    simp only [reduceCtorEq, false_iff]
    omega

/-- Settles O4: what decodes is what the encoder writes, and each row of R59 reads operands of its types. -/
theorem decodeAcceptsWellFormed : Obligations.DecodeAcceptsWellFormed := ⟨decode_ok_iff, signature_eq_none_iff⟩

/-- Settles O1: seven of the eight codes are what the encoder writes for their instruction, the other is evaluated. -/
theorem someWordsDecode : Obligations.SomeWordsDecode :=
  ⟨rfl, rfl, rfl, rfl, rfl, decodeOfEncode (.led 0b01111#5 0xBF#8 0x3F#8 0x7F#8), rfl, rfl⟩

end Sys2Proof

namespace Sys2Proof.Machine

/-! ### A step on a request -/

theorem stepCommand_decoded {r : Request} {i : Instr} (s : State) (h : decodeCommand r = .ok i) :
    stepCommand r s = exec i (channelRun s) := by
  simp only [stepCommand, h]

/-- A request that is no command is answered IllegalCommand (60_exceptions R150, R161). -/
theorem stepCommand_illFormed {r : Request} (s : State) (h : r.wellFormed = false) :
    stepCommand r s = .next (answered (channelRun s) (.error .illegal)) := by
  cases hd : decodeCommand r with
  | ok i =>
    have hw : r.wellFormed = true := (decode_ok_iff (.cmd r)).mp ⟨i, hd⟩
    rw [hw] at h
    cases h
  | error e =>
    simp only [stepCommand, hd]
    rfl

/-- Settles O5: an idle step takes the request, and a request that decodes is executed. -/
theorem stepRunsCommand : Obligations.StepRunsCommand := by
  rintro s r rest i ⟨hreset, hflight, hencq⟩ hport hd
  rw [step_command hreset hflight hencq hport, stepCommand_decoded _ hd]

/-- Settles O7: an idle step takes the request, and a request that is not well formed does not decode. -/
theorem undecodableCommandIsIllegal : Obligations.UndecodableCommandIsIllegal := by
  rintro s r rest ⟨hreset, hflight, hencq⟩ hport hw
  rw [step_command hreset hflight hencq hport, stepCommand_illFormed _ hw]

end Sys2Proof.Machine
end

section
/-! The encoding family, the frame and the numbers: the frame elements against ENCODE, what a frame determines, and the conversions
of 30_encoding section 2 (R45 to R57, 40_frame_encoder R72, R80). -/

namespace Sys2Proof.Machine

/-! ### The frame elements as instructions -/

/-- The bytes a frame element writes; a command is none (30_encoding R46 to R48). -/
def elementBytes : Instr → List Byte
  | .start => startBytes
  | .led l b g r => ledBytes l b g r
  | .pad => padBytes
  | _ => []

/-- A frame element appends its bytes. -/
theorem exec_element {i : Instr} (h : isCommand i = false) (s : State) : exec i s = .next (appendFrame (elementBytes i) s) := by
  cases i with
  | start => rfl
  | led l b g r => rfl
  | pad => rfl
  | _ => cases h

/-- Settles O19: the bytes are those of the elements, the header written as R53 writes it. -/
theorem frameElementsAppend : Obligations.FrameElementsAppend := by
  intro s l b g r
  refine ⟨rfl, ?_, rfl⟩
  rw [← headerByte_eq]
  rfl

/-- Frame elements one after the other append their bytes in order. -/
theorem execAll_elements {is : List Instr} (h : ∀ i ∈ is, isCommand i = false) (s : State) :
    execAll is s = .next (appendFrame (is.flatMap elementBytes) s) := by
  induction is generalizing s with
  | nil => simp [execAll, appendFrame]
  | cons i is ih =>
    rw [execAll, exec_element (h i List.mem_cons_self)]
    show execAll is (appendFrame (elementBytes i) s) = _
    rw [ih fun j hj => h j (List.mem_cons_of_mem i hj)]
    simp [appendFrame]

/-- ENCODE's instructions are frame elements (30_encoding R45). -/
theorem frameProgram_elements (pixels : PixelBuffer) (l : Level) : ∀ i ∈ frameProgram pixels l, isCommand i = false := by
  intro i hi
  simp only [frameProgram, List.mem_append, List.mem_singleton, List.mem_map, List.mem_replicate] at hi
  rcases hi with (rfl | ⟨c, -, rfl⟩) | ⟨-, rfl⟩ <;> rfl

/-- The bytes of ENCODE's instructions are the frame (40_frame_encoder R72). -/
theorem frameProgram_bytes (pixels : PixelBuffer) (l : Level) :
    (frameProgram pixels l).flatMap elementBytes = encodeFrame pixels l := by
  have hpads (k : Nat) : (List.replicate k Instr.pad).flatMap elementBytes = List.replicate k 0#8 :=
    List.flatMap_replicate.trans List.flatten_replicate_singleton
  rw [frameProgram, encodeFrame, List.flatMap_append, List.flatMap_append, List.flatMap_singleton, List.flatMap_map, hpads]
  rfl

/-- Settles O20: ENCODE's elements append their bytes, and these bytes are the frame. -/
theorem elementsAssembleTheFrame : Obligations.ElementsAssembleTheFrame := by
  intro s pixels l h
  rw [execAll_elements (frameProgram_elements pixels l), frameProgram_bytes, appendFrame, h, List.nil_append]

/-! ### What a frame determines (30_encoding R51) -/

theorem headerByte_injective {l m : Level} (h : headerByte l = headerByte m) : l = m := by
  have hlow : ∀ k : Level, (headerByte k).extractLsb' 0 5 = k := fun k =>
    (BitVec.extractLsb'_append_eq_of_add_le (by decide)).trans BitVec.extractLsb'_eq_self
  rw [← hlow l, h, hlow m]

/-- Equal LED blocks, one after the other, have the same bytes, and where there is one they have the same level. -/
theorem ledBlocks_injective {l m : Level} {cs ds : List Color} (hlen : cs.length = ds.length)
    (h : cs.flatMap (ledBlock l) = ds.flatMap (ledBlock m)) :
    (cs ≠ [] → l = m) ∧
      cs.map (fun c => (chanByte c.r, chanByte c.g, chanByte c.b)) = ds.map (fun c => (chanByte c.r, chanByte c.g, chanByte c.b)) := by
  induction cs generalizing ds with
  | nil =>
    obtain rfl := List.eq_nil_of_length_eq_zero hlen.symm
    exact ⟨nofun, rfl⟩
  | cons c cs ih =>
    obtain ⟨d, ds, rfl⟩ := List.exists_cons_of_length_eq_add_one hlen.symm
    obtain ⟨hhead, hb, hg, hr, hrest⟩ : headerByte l = headerByte m ∧ chanByte c.b = chanByte d.b ∧
        chanByte c.g = chanByte d.g ∧ chanByte c.r = chanByte d.r ∧ cs.flatMap (ledBlock l) = ds.flatMap (ledBlock m) := by
      simpa [ledBlock, ledBytes] using h
    refine ⟨fun _ => headerByte_injective hhead, ?_⟩
    rw [List.map_cons, List.map_cons, hb, hg, hr, (ih (by simpa using hlen) hrest).2]

/-- Settles O23: buffers of one length have one start marker and one padding, so their LED blocks are equal. -/
theorem frameDeterminesItsFields : Obligations.FrameDeterminesItsFields := by
  intro p q l m hlen h
  rw [encodeFrame, encodeFrame, hlen] at h
  have hblocks := List.append_cancel_left (List.append_cancel_right h)
  obtain ⟨hlevel, hbytes⟩ := ledBlocks_injective hlen hblocks
  exact ⟨hlevel p.nonempty, hbytes⟩

/-! ### Numbers as words (30_encoding R52, R56, R57)

`chan_byte` and `level_of` are one operation at two widths: a normalized number times the largest number of the word, rounded
down. -/

section Scaled

variable {w n : Nat} (hn : n < 2 ^ w)
include hn

/-- The word holds the rounded number: it is neither negative nor above `n`. -/
theorem toNat_ofInt_floor (x : Normalized) : ((BitVec.ofInt w (n * (x : Rat)).floor).toNat : Int) = (n * (x : Rat)).floor := by
  obtain ⟨h0, h1⟩ := x.2
  have hlow : 0 ≤ (n * (x : Rat)).floor := Rat.le_floor_iff.mpr (by push_cast; positivity)
  have hhigh : (n * (x : Rat)).floor < n + 1 := Rat.floor_lt_iff.mpr (by push_cast; nlinarith)
  have hmod : (n * (x : Rat)).floor % ((2 ^ w : Nat) : Int) = (n * (x : Rat)).floor := Int.emod_eq_of_lt hlow (by omega)
  rw [BitVec.toNat_ofInt, hmod, Int.toNat_of_nonneg hlow]

/-- The word is `k` exactly on `[k/n, (k+1)/n)`. -/
theorem toNat_ofInt_floor_eq_iff (x : Normalized) (k : Nat) :
    (BitVec.ofInt w (n * (x : Rat)).floor).toNat = k ↔ (k : Rat) ≤ n * x ∧ n * (x : Rat) < k + 1 := by
  rw [← Int.natCast_inj, toNat_ofInt_floor hn x]
  exact_mod_cast Int.floor_eq_iff (a := n * (x : Rat)) (z := k)

/-- The word is `n` exactly at 1. -/
theorem toNat_ofInt_floor_eq_max_iff (hpos : 0 < n) (x : Normalized) :
    (BitVec.ofInt w (n * (x : Rat)).floor).toNat = n ↔ x = 1 := by
  have hp : (0 : Rat) < n := by exact_mod_cast hpos
  rw [toNat_ofInt_floor_eq_iff hn x n]
  constructor
  · rintro ⟨h, -⟩
    exact Subtype.ext (le_antisymm x.2.2 (le_of_mul_le_mul_left (by simpa using h) hp))
  · rintro rfl
    simp

/-- The larger number has the larger word. -/
theorem toNat_ofInt_floor_monotone {x y : Normalized} (h : (x : Rat) ≤ y) :
    (BitVec.ofInt w (n * (x : Rat)).floor).toNat ≤ (BitVec.ofInt w (n * (y : Rat)).floor).toNat := by
  rw [← Int.ofNat_le, toNat_ofInt_floor hn x, toNat_ofInt_floor hn y]
  exact Rat.floor_monotone (mul_le_mul_of_nonneg_left h n.cast_nonneg)

end Scaled

theorem chanByte_toNat (v : Normalized) : ((chanByte v).toNat : Int) = (255 * (v : Rat)).floor :=
  toNat_ofInt_floor (n := 255) (by decide) v

theorem chanByte_toNat_eq_iff (v : Normalized) (k : Nat) :
    (chanByte v).toNat = k ↔ (k : Rat) ≤ 255 * v ∧ 255 * (v : Rat) < k + 1 :=
  toNat_ofInt_floor_eq_iff (n := 255) (by decide) v k

/-- Settles O24: the laws of a scaled and rounded number, at 255 and eight bits. -/
theorem chanByteLaws : Obligations.ChanByteLaws := by
  refine ⟨chanByte_toNat, fun v k _ => ?_, toNat_ofInt_floor_eq_max_iff (n := 255) (by decide) (by decide),
    fun u v h => toNat_ofInt_floor_monotone (n := 255) (by decide) h⟩
  rw [chanByte_toNat_eq_iff, div_le_iff₀' (by norm_num), lt_div_iff₀' (by norm_num)]

theorem levelOf_toNat (x : Normalized) : ((levelOf x).toNat : Int) = (31 * (x : Rat)).floor :=
  toNat_ofInt_floor (n := 31) (by decide) x

theorem levelOf_toNat_eq_iff (x : Normalized) (k : Nat) :
    (levelOf x).toNat = k ↔ (k : Rat) ≤ 31 * x ∧ 31 * (x : Rat) < k + 1 :=
  toNat_ofInt_floor_eq_iff (n := 31) (by decide) x k

/-- What is read back is at most what was written, and less than `1/31` below it. -/
theorem normOf_levelOf (x : Normalized) : 0 ≤ x - normOf (levelOf x) ∧ x - normOf (levelOf x) < 1 / 31 := by
  obtain ⟨hle, hlt⟩ := (levelOf_toNat_eq_iff x _).mp rfl
  simp only [normOf]
  constructor <;> linarith

/-- The norm of a level is a normalized number. -/
theorem normOf_mem (l : Level) : normOf l ∈ Normalized := by
  have hl : (l.toNat : Rat) ≤ 31 := by exact_mod_cast Nat.le_of_lt_succ l.isLt
  exact ⟨by unfold normOf; positivity, (div_le_one (by norm_num)).mpr hl⟩

/-- A level is the level of its norm. -/
theorem levelOf_normOf (l : Level) : levelOf ⟨normOf l, normOf_mem l⟩ = l := by
  apply BitVec.eq_of_toNat_eq
  have h : 31 * normOf l = l.toNat := mul_div_cancel₀ _ (by norm_num)
  rw [levelOf_toNat_eq_iff, h]
  exact ⟨le_rfl, lt_add_one _⟩

/-- Settles O25: the laws of a scaled and rounded number, at 31 and five bits, and the two round trips. -/
theorem levelLaws : Obligations.LevelLaws :=
  ⟨levelOf_toNat, toNat_ofInt_floor_eq_max_iff (n := 31) (by decide) (by decide), normOf_levelOf,
    fun l => ⟨⟨normOf l, normOf_mem l⟩, rfl, levelOf_normOf l⟩⟩

end Sys2Proof.Machine
end

section
/-! The encoding family, the response: a command answers once or waits for the hardware channel (30_encoding R60, 41_transport R98,
60_exceptions R151, R155). -/

namespace Sys2Proof.Machine

/-! ### What answers nothing -/

@[simp] theorem channelRun_responses (s : State) : (channelRun s).responses = s.responses := by
  obtain ⟨bits, hr⟩ := channelRun_ran s
  rw [hr.1]

/-- TRANSMIT answers nothing, and `SER` is alive after it only under the hardware-timed transport (10_state R21). -/
theorem transmit_unanswered {s t : State} (h : transmit s = .next t) :
    t.responses = s.responses ∧ (t.ser ≠ none → isHardwareTimed t.transport = true) := by
  unfold transmit at h
  split at h
  · cases h
  · next i ht =>
    cases h
    obtain ⟨_, -, hh, -⟩ := sendHardware_front s.frame 0 s
    rw [hh.frame]
    exact ⟨rfl, fun _ => by rw [ht]; rfl⟩
  · cases h
    rw [sendSoftware_eq]
    exact ⟨rfl, nofun⟩

theorem release_responses {s u : State} (h : release s = .next u) : u.responses = s.responses := by
  rcases release_cases h with ⟨d, c, -, rfl⟩ | ⟨i, bits, dl, cl, e, -, -, rfl⟩ <;> rfl

@[simp] theorem suspend_responses (s : State) : (suspend s).responses = s.responses := by
  cases hs : suspends s with
  | true => obtain ⟨bits, e, -, h⟩ := suspend_active hs; rw [h]
  | false => rw [suspend_inactive hs]

@[simp] theorem unsuspend_responses (b : Bool) (s : State) : (unsuspend b s).responses = s.responses := by
  unfold unsuspend; split <;> rfl

@[simp] theorem toggleCycles_responses (n : Nat) (s : State) : (toggleCycles n s).responses = s.responses := by
  rw [toggleCycles_eq]

@[simp] theorem runStages_responses (st : List (Pin × PinDir)) (s : State) : (runStages st s).2.responses = s.responses := by
  rw [(runStages_eq st s).2]

@[simp] theorem restoreOutput_responses (p : Pin) (s : State) : (restoreOutput p s).responses = s.responses := by
  cases p <;> rfl

/-! ### One response, or a wait -/

/-- From `s` to `t` there is one response, of those a command returns, or none and a command waits for the channel. -/
def AnswersOrWaits (s t : State) : Prop :=
  (∃ r, plainResponse r ∧ t.responses = s.responses ++ [r]) ∨
  (t.responses = s.responses ∧ t.inFlight ≠ none ∧ isHardwareTimed t.transport = true)

/-- What came before the answer may be anything that answers nothing. -/
theorem AnswersOrWaits.of_responses_eq {s u t : State} (h : AnswersOrWaits u t) (hu : u.responses = s.responses) :
    AnswersOrWaits s t := by
  rw [AnswersOrWaits, hu] at h
  exact h

theorem respond_answersOrWaits {r : Response} (hr : plainResponse r) (s : State) : AnswersOrWaits s (respond r s) :=
  .inl ⟨r, hr, rfl⟩

theorem plainResponse_ok (v : Value) : plainResponse (.ok v) := ⟨nofun, nofun⟩

theorem plainResponse_pin : plainResponse (.error (.resource .pin)) := ⟨nofun, nofun⟩

/-- A commit answers OK, or waits on the hardware-timed transport (42_strip_controller R113). -/
theorem commit_answersOrWaits {s t : State} (h : commit s = .next t) : AnswersOrWaits s t := by
  rcases commit_cases h with ⟨-, hf⟩ | ⟨d, c, -, ht⟩ | ⟨i, t', htr, ht, k, u, -, hh, hend⟩
  · cases hf
  · cases ht
    exact .inl ⟨_, plainResponse_ok _, rfl⟩
  · cases ht
    rcases hend with ⟨-, -, rfl⟩ | ⟨-, -, rfl⟩
    · exact .inl ⟨_, plainResponse_ok _, rfl⟩
    · refine .inr ⟨?_, nofun, ?_⟩
      · rw [hh.frame]
      · rw [hh.frame]
        exact congrArg isHardwareTimed htr

/-- After its first frame SHOW_TEST_PATTERN waits, or commits the snapshot (44_diagnostics R145). -/
theorem restoreWhenSent_answersOrWaits {cs : PixelBuffer} {s t : State} (hs : s.ser ≠ none → isHardwareTimed s.transport = true)
    (h : restoreWhenSent cs s = .next t) : AnswersOrWaits s t := by
  cases hser : s.ser with
  | some p =>
    rw [restoreWhenSent_waits cs hser] at h
    cases h
    exact .inr ⟨rfl, nofun, hs (by rw [hser]; nofun)⟩
  | none =>
    rw [restoreWhenSent_sent cs hser] at h
    exact (commit_answersOrWaits h).of_responses_eq (channelRun_responses _)

/-- CONSTRUCT after its checks answers the missing pin, or as its first commit does, or OK (42_strip_controller R110). -/
theorem constructWith_answersOrWaits {cfg : Cfg} {l : Level} {s t : State} (h : constructWith cfg l s = .next t) :
    AnswersOrWaits s t := by
  rcases constructWith_cases h with ⟨e, rfl | rfl⟩ | ⟨tr, u, hclaim, hend⟩
  · exact respond_answersOrWaits plainResponse_pin { s with env := e }
  · exact respond_answersOrWaits plainResponse_pin { s with env := e, trace := s.trace ++ [.log] }
  · have hu : (constructed cfg l tr u).responses = s.responses := by
      rcases hclaim with ⟨v, e, -, -, rfl⟩ | ⟨e, lg, -, rfl⟩
      · rfl
      · simp [constructed, claimSoftware_eq]
    rcases hend with ⟨-, hc⟩ | ⟨-, rfl⟩
    · exact (commit_answersOrWaits hc).of_responses_eq hu
    · exact (respond_answersOrWaits (plainResponse_ok _) _).of_responses_eq hu

/-- Every command answers once or waits. -/
theorem exec_answersOrWaits {i : Instr} {s t : State} (hi : isCommand i = true) (h : exec i s = .next t) : AnswersOrWaits s t := by
  have ok (v : Value) (u : State) := respond_answersOrWaits (plainResponse_ok v) u
  rcases exec_cases h with ⟨hn, -⟩ | ⟨-, r, hr, rfl⟩ | ⟨-, u, hw, hc⟩ | ⟨-, -, cfg, x, hc⟩ | ⟨-, -, u, hr, rfl⟩ |
    ⟨-, -, rfl⟩ | ⟨-, -, rfl⟩ | ⟨-, -, u, hu, hr⟩
  · rw [hi] at hn; cases hn
  · exact respond_answersOrWaits hr s
  · exact (commit_answersOrWaits hc).of_responses_eq (by rw [written_frame hw])
  · exact constructWith_answersOrWaits hc
  · exact (ok _ _).of_responses_eq (release_responses hr :)
  · exact (ok _ _).of_responses_eq (by simp)
  · exact (ok _ _).of_responses_eq (by simp)
  · obtain ⟨hresp, hser⟩ := transmit_unanswered hu
    exact (restoreWhenSent_answersOrWaits hser hr).of_responses_eq hresp

/-- Settles O52: by what `exec` can do, each command ends in a response or in a commit. -/
theorem oneResponsePerCommand : Obligations.OneResponsePerCommand := by
  intro i s t hi h
  rcases exec_answersOrWaits hi h with ⟨r, ⟨htransport, hchannel⟩, ht⟩ | hwait
  · exact .inl ⟨r, ht, htransport, hchannel⟩
  · exact .inr hwait

end Sys2Proof.Machine
end

section
/-! The encoder family: a step on a frame element, the length of a frame, and what stands at each of its positions (20_memory R36,
30_encoding R45 to R49, 40_frame_encoder R72 to R78). -/

namespace Sys2Proof.Machine

/-! ### A step on a frame element -/

theorem stepElement_decoded {w : FrameWord} {i : Instr} (s : State) (h : decodeFrame w = .ok i) : stepElement w s = exec i s := by
  simp only [stepElement, h]

/-- Settles O6: with nothing in flight a step takes the frame element, and an element that decodes is executed. -/
theorem stepRunsElement : Obligations.StepRunsElement := by
  intro s w rest i hreset hflight hencq hd
  rw [step_element hreset hflight hencq, stepElement_decoded _ hd]

/-! ### The parts of a frame -/

/-- `ceil(n / 16)` is the least integer not below `n / 16` (30_encoding R49). -/
theorem ceilDiv16_le_iff (n m : Nat) : ceilDiv16 n ≤ m ↔ n ≤ 16 * m := by
  unfold ceilDiv16
  omega

@[simp] theorem startBytes_length : startBytes.length = 4 := List.length_replicate

@[simp] theorem ledBlock_length (l : Level) (c : Color) : (ledBlock l c).length = 4 := rfl

/-- LED blocks one after the other take four bytes a pixel. -/
theorem ledBlocks_length (l : Level) (cs : List Color) : (cs.flatMap (ledBlock l)).length = 4 * cs.length := by
  simp [List.length_flatMap, Nat.mul_comm]

/-- Of LED blocks one after the other, block `i` stands at `4*i` on. -/
theorem ledBlocks_getElem? (l : Level) {cs : List Color} {i j : Nat} {c : Color} (hc : cs[i]? = some c) (hj : j < 4) :
    (cs.flatMap (ledBlock l))[4 * i + j]? = (ledBlock l c)[j]? := by
  induction cs generalizing i with
  | nil => cases hc
  | cons d ds ih =>
    rw [List.flatMap_cons]
    cases i with
    | zero =>
      obtain rfl : d = c := by simpa using hc
      rw [Nat.mul_zero, Nat.zero_add, List.getElem?_append_left hj]
    | succ i =>
      have hpast : 4 * (i + 1) + j = (ledBlock l d).length + (4 * i + j) := by rw [ledBlock_length]; omega
      rw [hpast, List.getElem?_append_right (Nat.le_add_right _ _), Nat.add_sub_cancel_left]
      exact ih (by simpa using hc)

/-! ### The length of a frame -/

/-- The three parts of a frame, added up (40_frame_encoder R78). -/
theorem encodeFrame_length (pixels : PixelBuffer) (l : Level) :
    (encodeFrame pixels l).length = 4 + 4 * pixels.colors.length + padCount pixels.colors.length := by
  rw [encodeFrame, List.length_append, List.length_append, startBytes_length, ledBlocks_length, List.length_replicate]

/-- Settles O21: the length of the three parts, with one pixel or more. -/
theorem frameLength : Obligations.FrameLength := by
  intro pixels l
  have hone : 1 ≤ pixels.colors.length := List.length_pos_iff.mpr pixels.nonempty
  have hceil : ¬ ceilDiv16 pixels.colors.length ≤ 0 := by rw [ceilDiv16_le_iff]; omega
  refine ⟨ceilDiv16 pixels.colors.length, ceilDiv16_le_iff _, ?_⟩
  rw [encodeFrame_length, padCount]
  refine ⟨by omega, by omega, by omega, fun hN => ?_⟩
  rw [hN]
  rfl

/-! ### The positions of a frame -/

/-- The start marker (40_frame_encoder R73). -/
theorem encodeFrame_getElem?_start (pixels : PixelBuffer) (l : Level) {k : Nat} (hk : k < 4) :
    (encodeFrame pixels l)[k]? = some 0#8 := by
  rw [encodeFrame, List.append_assoc, List.getElem?_append_left (by simpa using hk)]
  exact List.getElem?_replicate_of_lt hk

/-- LED block `i` (40_frame_encoder R74). -/
theorem encodeFrame_getElem?_led {pixels : PixelBuffer} (l : Level) {i j : Nat} {c : Color} (hc : pixels.colors[i]? = some c)
    (hj : j < 4) : (encodeFrame pixels l)[4 + (4 * i + j)]? = (ledBlock l c)[j]? := by
  have hi : i < pixels.colors.length := (List.getElem?_eq_some_iff.mp hc).1
  rw [encodeFrame, List.append_assoc, List.getElem?_append_right (by simp), startBytes_length, Nat.add_sub_cancel_left,
    List.getElem?_append_left (by rw [ledBlocks_length]; omega), ledBlocks_getElem? l hc hj]

/-- The padding (40_frame_encoder R75). -/
theorem encodeFrame_getElem?_pad (pixels : PixelBuffer) (l : Level) (k : Nat) :
    (encodeFrame pixels l)[4 + 4 * pixels.colors.length + k]? = (List.replicate (padCount pixels.colors.length) 0#8)[k]? := by
  have hlen : (startBytes ++ pixels.colors.flatMap (ledBlock l)).length = 4 + 4 * pixels.colors.length := by
    rw [List.length_append, startBytes_length, ledBlocks_length]
  rw [encodeFrame, List.getElem?_append_right (by omega), hlen, Nat.add_sub_cancel_left]

/-- Settles O22: each position lies in the start marker, in a LED block or in the padding, and the frame ends with the padding. -/
theorem frameLayout : Obligations.FrameLayout := by
  intro pixels l
  refine ⟨fun k hk => encodeFrame_getElem?_start pixels l hk, fun i c hc => ?_,
    ceilDiv16 pixels.colors.length, ceilDiv16_le_iff _, fun k hk => ?_, ?_⟩
  · have hled (j : Nat) (hj : j < 4) : (encodeFrame pixels l)[4 + j + 4 * i]? = (ledBlock l c)[j]? := by
      rw [← encodeFrame_getElem?_led l hc hj, Nat.add_comm (4 * i), Nat.add_assoc]
    rw [← headerByte_eq]
    exact ⟨hled 0 (by decide), hled 1 (by decide), hled 2 (by decide), hled 3 (by decide)⟩
  · rw [encodeFrame_getElem?_pad]
    exact List.getElem?_replicate_of_lt hk
  · rw [encodeFrame_getElem?_pad]
    exact List.getElem?_eq_none List.length_replicate.le

end Sys2Proof.Machine
end

section
/-! The transport family, the hardware channel and the two forms of TRANSMIT: an idle step, the events and the wire bits of the
software-timed TRANSMIT, where the hardware-timed one ends, and how a wait goes on or ends (10_state R21, R23, 41_transport R96 to
R104, 44_diagnostics R145, 60_exceptions R163, 70_reset_and_hazards R176). -/

namespace Sys2Proof.Machine

/-! ### The channel's chance to run with a scripted number of bits -/

theorem channelRun_scripted {s : State} {k : Nat} {rest : List Nat} (ha : s.hwActive = true) (hq : s.hwq ≠ [])
    (hk : s.env.channelBits = k :: rest) :
    channelRun s = serveBits k { s with env := { s.env with channelBits := rest } } := by
  simp [channelRun, ha, hasQueued, hq, takeChannelBits, drawFrom, hk]

theorem serveBits_queuedBits (k : Nat) (s : State) : queuedBits (serveBits k s) = (queuedBits s).drop k := by
  obtain ⟨-, hbits, -⟩ := serveBits_ran k s
  exact List.append_cancel_left (hbits.trans (List.take_append_drop k _).symm)

/-- With a bit queued the clock is low after the channel has put out one or more. -/
theorem serveBits_clockLevel (k : Nat) {s : State} (hq : s.hwq ≠ []) :
    (serveBits k s).clockLevel = if k = 0 then s.clockLevel else false := by
  have hqueued : queuedBits s ≠ [] := queuedBits_eq_nil.not.mpr hq
  rw [(serveBits_ran k s).1]
  cases k <;> simp [hqueued]

/-- Settles O8: an idle step is the channel's chance to run, and with a scripted answer it serves that number of bits. -/
theorem idleStepOnlyRunsChannel : Obligations.IdleStepOnlyRunsChannel := by
  rintro s ⟨hreset, hflight, hencq⟩ hport
  obtain ⟨bits, hran⟩ := channelRun_ran s
  refine ⟨_, step_idle hreset hflight hencq hport, hran.handed.handedOver, by rw [hran.1], channelRun_inactive,
    fun k rest ha hq hk => ?_⟩
  rw [channelRun_scripted ha hq hk]
  have hserve := (serveBits_ran k { s with env := { s.env with channelBits := rest } }).1
  refine ⟨by rw [hserve]; rfl, serveBits_queuedBits k _, serveBits_hwq k _, ?_, serveBits_clockLevel k hq, serveBits_env k _⟩
  rw [hserve, List.getLastD_eq_getLast?]
  rfl

/-! ### The software-timed TRANSMIT (R99) -/

/-- Its whole effect, whatever the bytes in `FRAME`. -/
theorem transmit_softwareTimed {s : State} (ht : isSoftwareTimed s.transport = true) :
    transmit s = .next { s with
      ser := none, dataLevel := (frameBits s.frame).getLast?.getD s.dataLevel,
      clockLevel := s.clockLevel && s.frame.isEmpty,
      trace := s.trace ++ frameEvents s.plat.bitDelayUs.val s.frame } := by
  cases h : s.transport with
  | softwareTimed d c => simp only [transmit, h, sendSoftware_eq s.frame]
  | none => simp [h, isSoftwareTimed] at ht
  | hardwareTimed i => simp [h, isSoftwareTimed] at ht

theorem frameBits_ne_nil {f : List Byte} (h : f ≠ []) : frameBits f ≠ [] := by
  have hpos : 0 < f.length := List.length_pos_iff.mpr h
  rw [← List.length_pos_iff, frameBits_length]
  omega

/-- Five events a bit, eight bits a byte. -/
theorem frameEvents_length (delay : Rat) (f : List Byte) : (frameEvents delay f).length = 40 * f.length := by
  have hbit (v : Bool) : (bitEvents delay v).length = 5 := rfl
  simp only [frameEvents, List.length_flatMap, hbit, List.map_const', List.sum_replicate, frameBits_length, smul_eq_mul]
  omega

/-- Settles O26: the effect of the software-timed TRANSMIT, where a frame that is not empty has a last bit. -/
theorem softwareTransmitEvents : Obligations.SoftwareTransmitEvents := by
  intro s d c ht hf
  refine ⟨?_, frameEvents_length _ _⟩
  have hsoft : isSoftwareTimed s.transport = true := by rw [ht]; rfl
  have hlast : (frameBits s.frame).getLast?.getD s.dataLevel = (frameBits s.frame).getLastD false := by
    rw [List.getLastD_eq_getLast?, List.getLast?_eq_some_getLast (frameBits_ne_nil hf)]
    rfl
  have hclock : (s.clockLevel && s.frame.isEmpty) = false := by simp [hf]
  rw [transmit_softwareTimed hsoft, hlast, hclock]

/-- From a low clock the events of a bit raise the clock once, with the data level at the bit (R103). -/
theorem wireBitsFrom_bitEvents (delay : Rat) (v dat : Bool) (es : List Event) :
    wireBitsFrom false dat (bitEvents delay v ++ es) = v :: wireBitsFrom false v es := by
  simp [bitEvents, wireBitsFrom]

theorem wireBitsFrom_flatMap_bitEvents (delay : Rat) (vs : List Bool) (dat : Bool) :
    wireBitsFrom false dat (vs.flatMap (bitEvents delay)) = vs := by
  induction vs generalizing dat with
  | nil => rfl
  | cons v vs ih => rw [List.flatMap_cons, wireBitsFrom_bitEvents, ih]

/-- Settles O27: the events TRANSMIT adds are those of the frame's bits, each of which is one wire bit from a low clock. -/
theorem softwareWireBits : Obligations.SoftwareWireBits := by
  intro s t ht hc h
  rw [transmit_softwareTimed ht] at h
  cases h
  exact ⟨_, rfl, by rw [hc]; exact wireBitsFrom_flatMap_bitEvents _ _ _, by simp [hc]⟩

/-! ### The hardware-timed TRANSMIT (R96) -/

/-- Where the environment accepts every byte left, all are handed over. -/
theorem sendHardware_sent {bs : List Byte} (k : Nat) {s : State} (h : Accepts bs.length bs.length s) :
    SentHanded s (sendHardware bs k s) bs := by
  rcases sendHardware_handed bs k s with hsent | ⟨j, -, -, hser, -⟩
  · exact hsent
  · rw [(sendHardware_accepts bs k 0 0 s h).1] at hser
    cases hser

/-- Settles O28: TRANSMIT ends or waits, and which of the two is decided by how many bytes the environment accepts. -/
theorem hardwareTransmitHandsOver : Obligations.HardwareTransmitHandsOver := by
  intro s h ht
  refine ⟨sendHardware s.frame 0 s, by simp only [transmit, ht], ?_, fun ha => (sendHardware_sent 0 ha).sentAll,
    fun j rest hr hj ha => (sendHardware_stops s.frame 0 j s rest hj ha hr).waitsAt⟩
  rcases sendHardware_handed s.frame 0 s with hsent | ⟨j, hwaits⟩
  · exact .inl hsent.sentAll
  · exact .inr ⟨j, hwaits.waitsAt⟩

/-! ### A command in flight -/

/-- `SER` is alive only under the hardware-timed transport (R21). -/
theorem Inv.hardwareTimed_of_ser {s : State} {p : SerPos} (hi : Inv s) (hp : s.ser = some p) :
    ∃ i, s.transport = .hardwareTimed i := by
  obtain ⟨ht, -⟩ := hi.position p hp
  cases h : s.transport with
  | hardwareTimed i => exact ⟨i, rfl⟩
  | none => simp [h, isHardwareTimed] at ht
  | softwareTimed d c => simp [h, isHardwareTimed] at ht

theorem resumeCommand_reply {s u : State} (h : transmitOn s = .next u) : resumeCommand .reply s = replyWhenSent u := by
  simp only [resumeCommand, h, andThen]

theorem resumeCommand_restore {s u : State} (cs : PixelBuffer) (h : transmitOn s = .next u) :
    resumeCommand (.restore cs) s = restoreWhenSent cs u := by
  simp only [resumeCommand, h, andThen]

/-- A command whose frame has not gone stays in flight as it is (R98). -/
theorem resumeCommand_waits {c : Cont} {s u : State} {p : SerPos} (h : transmitOn s = .next u) (hp : u.ser = some p)
    (hc : u.inFlight = some c) : resumeCommand c s = .next u := by
  cases c with
  | reply => rw [resumeCommand_reply h, replyWhenSent_waits hp, ← hc]
  | restore cs => rw [resumeCommand_restore cs h, restoreWhenSent_waits cs hp, ← hc]

/-- Settles O9: the byte at which `SER` stands is polled, the poll answers no, and the command waits at it as before. -/
theorem notReadyKeepsWaiting : Obligations.NotReadyKeepsWaiting := by
  intro s p c rest hi hreset hc hp hr
  obtain ⟨-, hk, hj, hphase⟩ := hi.position p hp
  obtain ⟨i, ht⟩ := hi.hardwareTimed_of_ser hp
  have hon := transmitOn_hardware ht hp
  rw [List.drop_eq_getElem_cons hk] at hon
  obtain ⟨hh, hser⟩ := sendHardware_notReady s.frame[p.k] (s.frame.drop (p.k + 1)) p.k s rest hr
  generalize sendHardware _ p.k s = u at hon hh hser
  have hpos : (⟨p.k, none, none⟩ : SerPos) = p := by cases p; cases hj; cases hphase; rfl
  rw [hpos] at hser
  have hflight : u.inFlight = some c := by rw [hh.frame]; exact hc
  have hstep : step s = .next u := by rw [step_inFlight hreset hc, resumeCommand_waits hon hser hflight]
  refine ⟨u, hstep, hh.handedOver, hser, hflight, ?_, ?_, ?_⟩ <;> rw [hh.frame]

/-- Settles O10: the accepting channel takes the rest of the frame, and what the command still had to do follows. -/
theorem readyEndsTheWait : Obligations.ReadyEndsTheWait := by
  intro s p hi hreset hp ha
  obtain ⟨i, ht⟩ := hi.hardwareTimed_of_ser hp
  have hon := transmitOn_hardware ht hp
  rw [← List.length_drop] at ha
  have hsent := sendHardware_sent p.k ha
  have haccepts_more := fun n c => sendHardware_accepts (s.frame.drop p.k) p.k n c s
  generalize sendHardware (s.frame.drop p.k) p.k s = u at hon hsent haccepts_more
  have ⟨hh, hser, _⟩ := hsent
  refine ⟨fun hc => ⟨u, hsent.sentAll, ?_⟩, fun cs hc => ?_⟩
  · have hresponses : u.responses = s.responses := by rw [hh.frame]
    rw [step_inFlight hreset hc, resumeCommand_reply hon, replyWhenSent_sent hser, hresponses]
  · have ht' : u.transport = .hardwareTimed i := by rw [hh.frame]; exact ht
    have hbright : u.bright = s.bright := by rw [hh.frame]
    obtain ⟨v, t, hheld, hrestore, hcommitted, hready⟩ := restoreWhenSent_hardware cs ht' hser
    refine ⟨u, v, t, hsent.sentAll, hheld, ?_, hcommitted, fun hboth => hready (haccepts_more _ _ ?_).2⟩
    · rw [step_inFlight hreset hc, resumeCommand_restore cs hon, hrestore]
    · rw [hbright]
      exact hboth.mono (by rw [List.length_drop]) (by rw [List.length_drop]; omega)

end Sys2Proof.Machine
end

section
/-! The transport family, SELECT: a CONSTRUCT that falls back to the software-timed transport, and one that gets no transport
(41_transport R87 to R92, 42_strip_controller R110, 60_exceptions R153, R156). -/

namespace Sys2Proof.Machine

/-! ### SELECT with scripted answers (R88) -/

/-- Both pins can be claimed. -/
theorem selectSoftware_claims {s : State} (d c : Nat) {rest : List Bool} (h : s.env.pinClaim = true :: true :: rest) :
    selectSoftware d c s
      = (some (.softwareTimed d c), claimSoftware d c { s with env := { s.env with pinClaim := rest } }) := by
  simp [selectSoftware, takePinClaim, drawFrom, h]

/-- One of the pins, both of which are drawn, cannot be claimed (R91). -/
theorem selectSoftware_refuses {s : State} (d c : Nat) {pd pc : Bool} {rest : List Bool}
    (h : s.env.pinClaim = pd :: pc :: rest) (hno : (pd && pc) = false) :
    selectSoftware d c s = (none, { s with env := { s.env with pinClaim := rest } }) := by
  simp [selectSoftware, takePinClaim, drawFrom, h, hno]

/-- A forced SELECT draws nothing for the hardware (R90). -/
theorem select_forced (dbg : Bool) (id : Nat) (f : Rat) (d c : Nat) (s : State) :
    select true dbg id f d c s = selectSoftware d c s := rfl

/-- A failed hardware initialisation leaves at most a `Log` (R89, R92). -/
theorem select_hwInit_fail {s : State} {why : Nat} {restH : List HwInit} (dbg : Bool) (id : Nat) (f : Rat) (d c : Nat)
    (h : s.env.hwInit = .fail why :: restH) :
    select false dbg id f d c s = selectSoftware d c
      { s with env := { s.env with hwInit := restH }, trace := s.trace ++ if dbg then [.log] else [] } := by
  cases dbg <;> simp [select, takeHwInit, drawFrom, h, emit]

/-! ### CONSTRUCT after SELECT (42_strip_controller R110) -/

theorem exec_construct_good {s : State} {n : ℕ+} {x : Rat} {d c : Nat} {f : Rat} (fs dbg : Bool) (id : Nat)
    (hl : s.lifecycle = .uninitialized) (h : Constructible s.plat n x d c f) :
    exec (.construct (.rat n) (.rat x) d c fs dbg id (.rat f)) s
      = constructWith ⟨n, d, c, fs, dbg, id, f⟩ (levelOf ⟨x, h.brightness⟩) s :=
  execConstruct_good fs dbg id hl h

theorem constructWith_none {cfg : Cfg} {s u : State} (l : Level)
    (h : select cfg.forceSoftware cfg.debug cfg.hwChannelId cfg.hwFreqHz cfg.dataPin cfg.clockPin s = (none, u)) :
    constructWith cfg l s = .next (answered u (.error (.resource .pin))) := by
  simp only [constructWith, h]
  rfl

/-- What CONSTRUCT leaves on the software-timed transport, before a first commit, where SELECT claimed the pins in `w`. -/
def constructedSoftware (w : State) (cfg : Cfg) (x : Rat) (d c : Nat) : State :=
  { constructedFrom w cfg x (.softwareTimed d c) with
    dataOwner := .gpio
    clockOwner := .gpio
    trace := w.trace ++ [.pinClaim d, .pinClaim c, .pin .clock false, .pin .data false] }

theorem constructed_claimSoftware (cfg : Cfg) (x : Normalized) (d c : Nat) (w : State) :
    constructed cfg (levelOf x) (.softwareTimed d c) (claimSoftware d c w) = constructedSoftware w cfg x d c := by
  rw [claimSoftware_eq, levelOf_ofNat]
  rfl

theorem constructWith_claimSoftware {cfg : Cfg} {s w : State} {d c : Nat} (x : Normalized)
    (h : select cfg.forceSoftware cfg.debug cfg.hwChannelId cfg.hwFreqHz cfg.dataPin cfg.clockPin s
      = (some (.softwareTimed d c), claimSoftware d c w)) :
    constructWith cfg (levelOf x) s = .next (if w.plat.initFlush then softwareCommitted (constructedSoftware w cfg x d c)
      else answered (constructedSoftware w cfg x d c) (.ok .none)) := by
  simp only [constructWith, h, constructed_claimSoftware]
  rw [show (constructedSoftware w cfg x d c).plat = w.plat from rfl]
  split
  · exact commit_software rfl
  · rfl

/-- Settles O31: the failed initialisation is drawn, then both pins are claimed. -/
theorem constructFallsBack : Obligations.ConstructFallsBack := by
  intro s n x d c dbg id f why restH rest hl h hH hP
  have hselect := (select_hwInit_fail dbg id f d c hH).trans (selectSoftware_claims d c hP)
  have hconstruct := constructWith_claimSoftware (cfg := ⟨n, d, c, false, dbg, id, f⟩) ⟨x, h.brightness⟩ hselect
  exact ⟨_, rfl, (exec_construct_good false dbg id hl h).trans hconstruct⟩

/-- Settles O32: a pin that cannot be claimed leaves no transport, forced or after the failed initialisation. -/
theorem constructWithoutPinsFails : Obligations.ConstructWithoutPinsFails := by
  intro s n x d c dbg id f pd pc rest hl h hP hno
  refine ⟨?_, fun why restH hH => ?_⟩
  · have hselect := (select_forced dbg id f d c s).trans (selectSoftware_refuses d c hP hno)
    exact (exec_construct_good true dbg id hl h).trans (constructWith_none _ hselect)
  · have hselect := (select_hwInit_fail dbg id f d c hH).trans (selectSoftware_refuses d c hP hno)
    exact (exec_construct_good false dbg id hl h).trans (constructWith_none _ hselect)

end Sys2Proof.Machine
end

section
/-! The strip controller family, CONSTRUCT and SHUTDOWN: the order of CONSTRUCT's checks, its transport for every answer of the
environment, and RELEASE (42_strip_controller R110, R125; 41_transport R87 to R91, R105, R106; 60_exceptions R159). -/

namespace Sys2Proof.Machine

/-! ### SELECT with the answers drawn (R88) -/

/-- Both pins are drawn before either answer counts. -/
theorem selectSoftware_drawn (d c : Nat) (s : State) :
    selectSoftware d c s =
      if (takePinClaim s.env).1 && (takePinClaim (takePinClaim s.env).2).1 then
        (some (.softwareTimed d c), claimSoftware d c { s with env := (takePinClaim (takePinClaim s.env).2).2 })
      else (none, { s with env := (takePinClaim (takePinClaim s.env).2).2 }) := rfl

theorem select_hwInit_ok {s : State} {v : Nat} (dbg : Bool) (id : Nat) (f : Rat) (d c : Nat)
    (h : (takeHwInit s.env).1 = .ok v) :
    select false dbg id f d c s
      = (some (.hardwareTimed id), claimHardware v id f d c { s with env := (takeHwInit s.env).2 }) := by
  have hdraw : takeHwInit s.env = (.ok v, (takeHwInit s.env).2) := Prod.ext h rfl
  simp only [select, Bool.false_eq_true, if_false]
  rw [hdraw]

/-- SELECT takes the software-timed path with the environment `e`, after the events `lg`: forced, or after a failed hardware
initialisation (R89, R90). -/
def TriesSoftware (fs dbg : Bool) (s : State) (e : Env) (lg : List Event) : Prop :=
  (fs = true ∧ e = s.env ∧ lg = []) ∨
  (fs = false ∧ (∃ why, takeHwInit s.env = (.fail why, e)) ∧ lg = if dbg then [.log] else [])

theorem select_triesSoftware {fs dbg : Bool} {s : State} {e : Env} {lg : List Event} (id : Nat) (f : Rat) (d c : Nat)
    (h : TriesSoftware fs dbg s e lg) :
    select fs dbg id f d c s = selectSoftware d c { s with env := e, trace := s.trace ++ lg } := by
  rcases h with ⟨rfl, rfl, rfl⟩ | ⟨rfl, ⟨why, hdraw⟩, rfl⟩
  · rw [select_forced, List.append_nil]
  · simp only [select, Bool.false_eq_true, if_false, hdraw]
    cases dbg <;> simp [emit]

/-! ### CONSTRUCT after SELECT (42_strip_controller R110) -/

/-- What CONSTRUCT leaves on the hardware-timed transport, before a first commit, where SELECT claimed the channel in `w`. -/
def constructedHardware (w : State) (cfg : Cfg) (x : Rat) (v : Nat) : State :=
  { constructedFrom w cfg x (.hardwareTimed cfg.hwChannelId) with
    hwActive := true
    hwVariant := v
    hwq := []
    headSent := 0
    dataOwner := .peripheral
    clockOwner := .peripheral
    trace := w.trace ++ [.hwClaim cfg.hwChannelId cfg.hwFreqHz cfg.dataPin cfg.clockPin] }

theorem constructed_claimHardware (cfg : Cfg) (x : Normalized) (v : Nat) (w : State) :
    constructed cfg (levelOf x) (.hardwareTimed cfg.hwChannelId)
      (claimHardware v cfg.hwChannelId cfg.hwFreqHz cfg.dataPin cfg.clockPin w) = constructedHardware w cfg x v := by
  rw [levelOf_ofNat]
  rfl

theorem constructWith_claimHardware {cfg : Cfg} {s w : State} {v : Nat} (x : Normalized)
    (h : select cfg.forceSoftware cfg.debug cfg.hwChannelId cfg.hwFreqHz cfg.dataPin cfg.clockPin s
      = (some (.hardwareTimed cfg.hwChannelId),
          claimHardware v cfg.hwChannelId cfg.hwFreqHz cfg.dataPin cfg.clockPin w)) :
    constructWith cfg (levelOf x) s = if w.plat.initFlush then commit (constructedHardware w cfg x v)
      else .next (answered (constructedHardware w cfg x v) (.ok .none)) := by
  simp only [constructWith, h, constructed_claimHardware]
  rfl

/-- CONSTRUCT with good operands on a platform that initialises the hardware channel: the channel is claimed, and the first commit or
the response follows (R88, R110). -/
theorem exec_construct_hardware {s : State} {n : ℕ+} {x : Rat} {d c : Nat} {f : Rat} {v : Nat} (dbg : Bool) (id : Nat)
    (hl : s.lifecycle = .uninitialized) (h : Constructible s.plat n x d c f) (hv : (takeHwInit s.env).1 = .ok v) :
    exec (.construct (.rat n) (.rat x) d c false dbg id (.rat f)) s =
      if s.plat.initFlush then
        commit (constructedHardware { s with env := (takeHwInit s.env).2 } ⟨n, d, c, false, dbg, id, f⟩ x v)
      else .next (answered (constructedHardware { s with env := (takeHwInit s.env).2 } ⟨n, d, c, false, dbg, id, f⟩ x v)
        (.ok .none)) := by
  have hselect := select_hwInit_ok dbg id f d c hv
  rw [exec_construct_good false dbg id hl h,
    constructWith_claimHardware (cfg := ⟨n, d, c, false, dbg, id, f⟩) ⟨x, h.brightness⟩ hselect]

/-- Settles O29: the channel is claimed, and a first commit is one on the hardware-timed transport. -/
theorem constructHardwareTimed : Obligations.ConstructHardwareTimed := by
  intro s n x d c dbg id f v rest hl h hH
  have hdraw : takeHwInit s.env = (.ok v, { s.env with hwInit := rest }) := by simp [takeHwInit, drawFrom, hH]
  have hexec := exec_construct_hardware dbg id hl h (congrArg Prod.fst hdraw)
  rw [hdraw] at hexec
  refine ⟨_, rfl, fun hflush => ?_, fun hflush => ?_⟩
  · rw [hexec, hflush]
    rfl
  · rw [hexec, hflush]
    exact commit_hardware rfl

/-- Settles O30: nothing is drawn for the hardware, and both pins are claimed. -/
theorem constructForcedSoftware : Obligations.ConstructForcedSoftware := by
  intro s n x d c dbg id f rest hl h hP
  have hselect := (select_forced dbg id f d c s).trans (selectSoftware_claims d c hP)
  have hconstruct := constructWith_claimSoftware (cfg := ⟨n, d, c, true, dbg, id, f⟩) ⟨x, h.brightness⟩ hselect
  exact ⟨_, rfl, (exec_construct_good true dbg id hl h).trans hconstruct⟩

/-- Settles O33: the first draw decides whether the channel is claimed; else the two draws for the pins decide. -/
theorem constructFollowsSelect : Obligations.ConstructFollowsSelect := by
  intro s n x d c fs dbg id f hl h
  refine ⟨fun v hfs hv => ?_, fun e lg hsoft hclaimed => ?_, fun e lg hsoft hrefused => ?_⟩
  · subst hfs
    have hexec := exec_construct_hardware dbg id hl h hv
    cases hflush : s.plat.initFlush with
    | true =>
      rw [hflush] at hexec
      obtain ⟨t, ht, hcommitted, -⟩ := commit_hardware (h := id)
        (s := constructedHardware { s with env := (takeHwInit s.env).2 } ⟨n, d, c, false, dbg, id, f⟩ x v) rfl
      exact ⟨_, t, rfl, hexec.trans ht, hcommitted⟩
    | false =>
      rw [hflush] at hexec
      exact ⟨_, _, rfl, hexec, rfl⟩
  · have hselect := select_triesSoftware id f d c hsoft
    rw [selectSoftware_drawn, if_pos hclaimed] at hselect
    have hconstruct := constructWith_claimSoftware (cfg := ⟨n, d, c, fs, dbg, id, f⟩) ⟨x, h.brightness⟩ hselect
    exact ⟨_, rfl, (exec_construct_good fs dbg id hl h).trans hconstruct⟩
  · have hselect := select_triesSoftware id f d c hsoft
    rw [selectSoftware_drawn, if_neg (Bool.eq_false_iff.mp hrefused)] at hselect
    exact (exec_construct_good fs dbg id hl h).trans (constructWith_none _ hselect)

/-! ### CONSTRUCT's checks (42_strip_controller R110, 60_exceptions R159) -/

theorem positiveNumber_none (x : Number) : positiveNumber x = none ↔ ∀ q, 0 < q → x ≠ .rat q := by
  simp only [Option.eq_none_iff_forall_ne_some, ne_eq, positiveNumber_iff, not_and]
  exact forall_congr' fun q => imp_not_comm

/-- Settles O34: each check is reached where those before it pass, and is the first that fails. -/
theorem constructRefusesBadOperands : Obligations.ConstructRefusesBadOperands := by
  intro s n x f d c id fs dbg hl
  have hcount (h : isCount s.plat n) : ∃ k, pixelCount s.plat n = some k :=
    Option.ne_none_iff_exists'.mp fun hnone => (pixelCount_none _ _).mp hnone h
  have hunit (h : isUnit x) : ∃ v, unitNumber x = some v :=
    Option.ne_none_iff_exists'.mp fun hnone => (unitNumber_none _).mp hnone h
  simp only [exec, execConstruct, hl, ne_eq, not_true, if_false]
  refine ⟨fun hn => ?_, fun hn hx => ?_, fun hn hx hp => ?_, fun hn hx hp hf => ?_⟩
  · rw [(pixelCount_none _ _).mpr hn]
    rfl
  · obtain ⟨k, hk⟩ := hcount hn
    rw [hk, (unitNumber_none _).mpr hx]
    rfl
  · obtain ⟨k, hk⟩ := hcount hn
    obtain ⟨v, hv⟩ := hunit hx
    rw [hk, hv]
    exact if_neg (hp ∘ (pinsUsable_iff _ _ _).mp)
  · obtain ⟨k, hk⟩ := hcount hn
    obtain ⟨v, hv⟩ := hunit hx
    rw [hk, hv, (positiveNumber_none f).mpr hf]
    exact if_pos ((pinsUsable_iff _ _ _).mpr hp)

/-! ### SHUTDOWN (R125) and RELEASE (41_transport R105) -/

/-- SHUTDOWN of an active block closes it after RELEASE. -/
theorem exec_shutdown_active {s u : State} (hl : s.lifecycle = .active) (h : release s = .next u) :
    exec .shutdown s = .next (answered { u with lifecycle := .closed } (.ok .none)) := by
  simp only [exec, execShutdown, hl, h]
  rfl

theorem release_software {s : State} {d c : Nat} (h : s.transport = .softwareTimed d c) :
    release s = .next { s with transport := .none, dataOwner := .unclaimed, clockOwner := .unclaimed } := by
  simp only [release, h]
  rfl

/-- RELEASE of a hardware channel: a front of the queued bits goes out, the rest is lost, the levels are open (R106, U18). -/
theorem release_hardware {s : State} {h : Nat} (ht : s.transport = .hardwareTimed h) :
    ∃ bits dl cl e, bits <+: queuedBits s ∧
      release s = .next { s with
        trace := s.trace ++ .hwRelease :: bits.map .wireBit, hwActive := false, hwq := [], headSent := 0, transport := .none,
        dataOwner := .unclaimed, clockOwner := .unclaimed, dataLevel := dl, clockLevel := cl, env := e } := by
  obtain ⟨u, hu⟩ : ∃ u, release s = .next u := by
    simp only [release, ht]
    exact ⟨_, rfl⟩
  rcases release_cases hu with ⟨d, c, hsoft, -⟩ | ⟨i, bits, dl, cl, e, -, hbits, rfl⟩
  · rw [ht] at hsoft
    cases hsoft
  · exact ⟨bits, dl, cl, e, hbits, hu⟩

/-- Settles O35: RELEASE of the pins, then the block is closed. -/
theorem shutdownSoftware : Obligations.ShutdownSoftware := by
  intro s d c hl ht
  exact exec_shutdown_active hl (release_software ht)

/-- Settles O36: RELEASE of the channel, then the block is closed. -/
theorem shutdownHardware : Obligations.ShutdownHardware := by
  intro s h hl ht
  obtain ⟨bits, dl, cl, e, hbits, hrelease⟩ := release_hardware ht
  exact ⟨bits, _, exec_shutdown_active hl hrelease, hbits, rfl⟩

/-- Settles O37: SHUTDOWN does not ask for an active block, and releases nothing in a closed one. -/
theorem shutdownIsIdempotent : Obligations.ShutdownIsIdempotent := by
  intro t hl
  simp only [exec, execShutdown, hl]
  rfl

end Sys2Proof.Machine
end

section
/-! The strip controller family, writing: the write commands with valid operands on each transport, and the operands they refuse
(42_strip_controller R112 to R116, R120, R122 to R124; 43_pixel_handle R137; 60_exceptions R156, R159). -/

namespace Sys2Proof.Machine

/-! ### Valid operands: the write, then a commit (R113) -/

theorem exec_setPixel_valid {s : State} {i : Nat} {col : Color} (hi : Inv s) (hl : s.lifecycle = .active) (h : i < s.cfg.n) :
    exec (.setPixel i (colorOperand col)) s = commit { s with pix := s.pix.set i col } := setPixel_valid hi hl h

/-- HANDLE_SET is SET_PIXEL (43_pixel_handle R137). -/
theorem exec_handleSet (i : Nat) (op : ColorOperand) (s : State) : exec (.handleSet i op) s = exec (.setPixel i op) s := rfl

theorem exec_setAll_valid {s : State} {col : Color} (hl : s.lifecycle = .active) :
    exec (.setAll (colorOperand col)) s = commit { s with pix := PixelBuffer.replicate s.cfg.n col } := setAll_valid hl

theorem exec_turnOn (s : State) : exec .turnOn s = exec (.setAll (colorOperand ⟨1, 1, 1⟩)) s := rfl

theorem exec_turnOff (s : State) : exec .turnOff s = exec (.setAll (colorOperand ⟨0, 0, 0⟩)) s := rfl

theorem exec_setBuffer_valid {s : State} {cols : PixelBuffer} (hl : s.lifecycle = .active) (h : cols.colors.length = s.cfg.n) :
    exec (.setBuffer (cols.colors.map colorOperand)) s = commit { s with pix := cols } := by
  have hvalid : validBuffer (cols.colors.map colorOperand) = some cols := (validBuffer_iff _ _).mpr rfl
  simp only [exec, execSetBuffer, requireActive_active _ hl, List.length_map, h, ne_eq, not_true, if_false, hvalid]
  rfl

theorem exec_setBrightness_valid {s : State} (x : Normalized) (hl : s.lifecycle = .active) :
    exec (.setBrightness (.rat x)) s = commit { s with bright := levelOf x } := by
  simp only [exec, execSetBrightness, requireActive_active _ hl, unitNumber_rat x.2]

theorem exec_flush_active {s : State} (hl : s.lifecycle = .active) : exec .flush s = commit s :=
  requireActive_active _ hl

/-! ### The commit on each transport -/

/-- Settles O38: the entry is written, and the commit is one on the software-timed transport. -/
theorem setPixelSoftware : Obligations.SetPixelSoftware := by
  intro s i d c col hi hl ht h
  have hset := (exec_setPixel_valid (col := col) hi hl h).trans (commit_software ht)
  exact ⟨hset, (exec_handleSet i _ s).trans hset⟩

/-- Settles O39: ON and OFF are SET_ALL of a colour. -/
theorem setAllSoftware : Obligations.SetAllSoftware := by
  intro s d c col hl ht
  have hset (col : Color) : exec (.setAll (colorOperand col)) s
      = .next (softwareCommitted { s with pix := PixelBuffer.replicate s.cfg.n col }) :=
    (exec_setAll_valid hl).trans (commit_software ht)
  exact ⟨hset col, (exec_turnOn s).trans (hset _), (exec_turnOff s).trans (hset _)⟩

/-- Settles O40: the buffer is written, and the commit is one on the software-timed transport. -/
theorem setBufferSoftware : Obligations.SetBufferSoftware := by
  intro s d c cols hl ht h
  exact (exec_setBuffer_valid hl h).trans (commit_software ht)

/-- Settles O41: the level is written, or nothing, and the commit is one on the software-timed transport. -/
theorem setBrightnessAndFlushSoftware : Obligations.SetBrightnessAndFlushSoftware := by
  intro s d c x hl ht h0 h1
  refine ⟨?_, (exec_flush_active hl).trans (commit_software ht)⟩
  rw [← levelOf_ofNat ⟨x, h0, h1⟩]
  exact (exec_setBrightness_valid ⟨x, h0, h1⟩ hl).trans (commit_software ht)

/-- Settles O42: a valid write command is its write, which keeps the transport, and a commit. -/
theorem writesHardware : Obligations.WritesHardware := by
  intro s u h i hi hl ht hw
  have hu : u.transport = .hardwareTimed h := by rw [written_frame hw]; exact ht
  rw [exec_written hi hl hw]
  exact commit_hardware hu

/-! ### Refusals (R112, R159) -/

/-- An index that is not below `N` is refused before the colour is looked at. -/
theorem exec_setPixel_index {s : State} {i : Nat} (op : ColorOperand) (hl : s.lifecycle = .active) (h : s.cfg.n ≤ i) :
    exec (.setPixel i op) s = .next (answered s (.error (.validation .index))) := by
  simp only [exec, execSetPixel, setPixel, requireActive_active _ hl]
  exact if_pos h

theorem exec_setPixel_channel {s : State} {i : Nat} {op : ColorOperand} (hl : s.lifecycle = .active) (h : i < s.cfg.n)
    (hop : ∀ c : Color, op ≠ colorOperand c) :
    exec (.setPixel i op) s = .next (answered s (.error (.validation .channel))) := by
  simp only [exec, execSetPixel, setPixel, requireActive_active _ hl, (validColor_none op).mpr hop]
  exact if_neg (Nat.not_le.mpr h)

theorem exec_setAll_channel {s : State} {op : ColorOperand} (hl : s.lifecycle = .active)
    (hop : ∀ c : Color, op ≠ colorOperand c) :
    exec (.setAll op) s = .next (answered s (.error (.validation .channel))) := by
  simp only [exec, execSetAll, setAll, requireActive_active _ hl, (validColor_none op).mpr hop]
  rfl

/-- A list of the wrong length is refused before its colours are looked at. -/
theorem exec_setBuffer_length {s : State} {ops : List ColorOperand} (hl : s.lifecycle = .active) (h : ops.length ≠ s.cfg.n) :
    exec (.setBuffer ops) s = .next (answered s (.error (.validation .length))) := by
  simp only [exec, execSetBuffer, requireActive_active _ hl]
  exact if_pos h

theorem exec_setBuffer_channel {s : State} {op : ColorOperand} {ops : List ColorOperand} (hl : s.lifecycle = .active)
    (h : ops.length = s.cfg.n) (hmem : op ∈ ops) (hop : ∀ c : Color, op ≠ colorOperand c) :
    exec (.setBuffer ops) s = .next (answered s (.error (.validation .channel))) := by
  have hinvalid : validBuffer ops = none := by rw [validBuffer, validColors_none ops op hmem hop]; rfl
  simp only [exec, execSetBuffer, requireActive_active _ hl, hinvalid]
  exact if_neg (not_not.mpr h)

theorem exec_setBrightness_refused {s : State} {x : Number} (hl : s.lifecycle = .active) (h : ¬ isUnit x) :
    exec (.setBrightness x) s = .next (answered s (.error (.validation .brightness))) := by
  simp only [exec, execSetBrightness, requireActive_active _ hl, (unitNumber_none x).mpr h]
  rfl

/-- Settles O43: each refusal of each writer, HANDLE_SET's being those of SET_PIXEL. -/
theorem writersRefuse : Obligations.WritersRefuse := by
  intro s i op ops x hl
  refine ⟨exec_setBrightness_refused hl, fun h => ?_, fun h hop => ?_, exec_setAll_channel hl, exec_setBuffer_length hl,
    exec_setBuffer_channel hl⟩
  · rw [exec_handleSet]
    exact ⟨exec_setPixel_index op hl h, exec_setPixel_index op hl h⟩
  · rw [exec_handleSet]
    exact ⟨exec_setPixel_channel hl h hop, exec_setPixel_channel hl h hop⟩

end Sys2Proof.Machine
end

section
/-! The strip controller family, reading and the lifecycle: what the getters answer, also after a setter, and the lifecycle guards of
all commands (42_strip_controller R110, R111, R117 to R121, R126; 43_pixel_handle R136; 60_exceptions R160). -/

namespace Sys2Proof.Machine

/-! ### The getters (R117 to R121) -/

theorem exec_getPixel_stored {s : State} {i : Nat} {c : Color} (hl : s.lifecycle = .active) (h : i < s.cfg.n)
    (hc : s.pix.colors[i]? = some c) : exec (.getPixel i) s = .next (answered s (.ok (.color c))) := by
  simp only [exec, execGetPixel, getPixel, requireActive_active _ hl, readPixel, hc]
  exact if_neg (Nat.not_le.mpr h)

theorem exec_getPixel_index {s : State} {i : Nat} (hl : s.lifecycle = .active) (h : s.cfg.n ≤ i) :
    exec (.getPixel i) s = .next (answered s (.error (.validation .index))) := by
  simp only [exec, execGetPixel, getPixel, requireActive_active _ hl]
  exact if_pos h

/-- HANDLE_GET is GET_PIXEL (43_pixel_handle R136). -/
theorem exec_handleGet (i : Nat) (s : State) : exec (.handleGet i) s = exec (.getPixel i) s := rfl

theorem exec_getBuffer_active {s : State} (hl : s.lifecycle = .active) :
    exec .getBuffer s = .next (answered s (.ok (.colors s.pix.colors))) := by
  rw [exec, execGetBuffer, requireActive_active _ hl]
  rfl

theorem exec_getBrightness_active {s : State} (hl : s.lifecycle = .active) :
    exec .getBrightness s = .next (answered s (.ok (.brightness (normOf s.bright)))) := by
  rw [exec, execGetBrightness, requireActive_active _ hl]
  rfl

theorem exec_averageColor_active {s : State} (hl : s.lifecycle = .active) :
    exec .averageColor s = .next (answered s (.ok (.color (meanColor s.pix)))) := by
  rw [exec, execAverageColor, requireActive_active _ hl]
  rfl

/-- Every index below `N` has an entry in an Active block (10_state R13, R27). -/
theorem Inv.pixel_stored {s : State} {i : Nat} (hi : Inv s) (hl : s.lifecycle = .active) (h : i < s.cfg.n) :
    ∃ c, s.pix.colors[i]? = some c :=
  ⟨_, List.getElem?_eq_getElem (by rw [hi.pixels hl]; exact h)⟩

/-- Settles O44: an index below `N` has an entry, which is answered; another index is refused. -/
theorem getPixelAnswers : Obligations.GetPixelAnswers := by
  intro s i hi hl
  rw [exec_handleGet]
  refine ⟨fun h => ?_, fun h => ⟨exec_getPixel_index hl h, exec_getPixel_index hl h⟩⟩
  obtain ⟨c, hc⟩ := hi.pixel_stored hl h
  exact ⟨c, hc, exec_getPixel_stored hl h hc, exec_getPixel_stored hl h hc⟩

/-- Settles O45: the buffer, which has `N` entries, and the level's norm are answered. -/
theorem getBufferAndBrightnessAnswer : Obligations.GetBufferAndBrightnessAnswer := by
  intro s hi hl
  exact ⟨hi.pixels hl, exec_getBuffer_active hl, exec_getBrightness_active hl⟩

/-! ### The mean (R119) -/

/-- The mean times the count is the sum, where there is something to count. -/
theorem mean_mul_length {vs : List Normalized} (h : vs ≠ []) :
    (mean vs : Rat) * vs.length = (vs.map Subtype.val).sum := by
  have hlen : (vs.length : Rat) ≠ 0 := by simpa using h
  exact div_mul_cancel₀ _ hlen

theorem mean_singleton (v : Normalized) : mean [v] = v := by
  apply Subtype.ext
  simp [mean]

/-- One channel of the mean colour of a buffer. -/
theorem mean_channel_mul_length (pixels : PixelBuffer) (channel : Color → Normalized) :
    (mean (pixels.colors.map channel) : Rat) * pixels.colors.length
      = (pixels.colors.map (fun c => (channel c : Rat))).sum := by
  have h := mean_mul_length (vs := pixels.colors.map channel) (by simpa using pixels.nonempty)
  rwa [List.length_map, List.map_map] at h

/-- The mean of one pixel is that pixel. -/
theorem meanColor_singleton {pixels : PixelBuffer} (h : pixels.colors.length = 1) : pixels.colors = [meanColor pixels] := by
  obtain ⟨c, hc⟩ := List.length_eq_one_iff.mp h
  simp only [meanColor, hc, List.map_cons, List.map_nil, mean_singleton]

/-- Settles O46: the mean of each channel, over the `N` entries of the buffer. -/
theorem averageColorAnswers : Obligations.AverageColorAnswers := by
  intro s hi hl
  have hlen := hi.pixels hl
  have hmean := mean_channel_mul_length s.pix
  rw [hlen] at hmean
  refine ⟨meanColor s.pix, exec_averageColor_active hl, hmean Color.r, hmean Color.g, hmean Color.b, fun hone => ?_⟩
  exact meanColor_singleton (by rw [hlen, hone]; rfl)

/-! ### A setter, then its getter -/

/-- Settles O48: SET_PIXEL leaves an Active block whose buffer is written at `i` only, and GET_PIXEL answers its entry. -/
theorem setThenGet : Obligations.SetThenGet := by
  intro s i j d c col hi hl ht hin hjn
  obtain ⟨old, hold⟩ := hi.pixel_stored hl hjn
  have hentry : (s.pix.set i col).colors[j]? = some (if i = j then col else old) := by
    have hread := readPixel_writePixel i j col s (by rw [hi.pixels hl]; exact hin)
    simp only [readPixel, writePixel_pix, hold] at hread
    rw [hread]
    split <;> rfl
  refine ⟨_, _, if i = j then col else old, (exec_setPixel_valid hi hl hin).trans (commit_software ht),
    exec_getPixel_stored hl hjn hentry, rfl, fun hji => if_pos hji.symm, fun hji => ?_⟩
  rw [hold, if_neg (Ne.symm hji)]

/-- Settles O49: SET_BRIGHTNESS leaves an Active block at the level of `x`, and GET_BRIGHTNESS answers the norm of this level. -/
theorem brightnessRoundTrip : Obligations.BrightnessRoundTrip := by
  intro s d c x hl ht h0 h1
  obtain ⟨hle, hlt⟩ := normOf_levelOf ⟨x, h0, h1⟩
  exact ⟨_, _, _, (exec_setBrightness_valid ⟨x, h0, h1⟩ hl).trans (commit_software ht), exec_getBrightness_active hl, rfl, hle, hlt⟩

/-! ### The lifecycle guards (R111, R126) -/

theorem requireActive_closed {s : State} (k : State → Result) (h : s.lifecycle = .closed) :
    requireActive k s = .next (answered s (.error .closed)) := by
  simp only [requireActive, h]
  rfl

theorem requireActive_uninitialized {s : State} (k : State → Result) (h : s.lifecycle = .uninitialized) :
    requireActive k s = .next (answered s (.error .illegal)) := by
  simp only [requireActive, h]
  rfl

/-- Every command but CONSTRUCT and SHUTDOWN begins with the lifecycle check (R111). -/
theorem exec_requiresActive {i : Instr} (hcmd : isCommand i = true) (hcon : isConstruct i = false) (hi : i ≠ .shutdown)
    (s : State) : ∃ k, exec i s = requireActive k s := by
  cases i with
  | start | led | pad => cases hcmd
  | construct => cases hcon
  | shutdown => exact absurd rfl hi
  | setPixel | handleSet => simp only [exec, execSetPixel, execHandleSet, setPixel]; exact ⟨_, rfl⟩
  | setAll | turnOn | turnOff => simp only [exec, execSetAll, execTurnOn, execTurnOff, setAll]; exact ⟨_, rfl⟩
  | getPixel | handleGet => simp only [exec, execGetPixel, execHandleGet, getPixel]; exact ⟨_, rfl⟩
  | _ => rw [exec]; exact ⟨_, rfl⟩

theorem exec_shutdown_uninitialized {s : State} (h : s.lifecycle = .uninitialized) :
    exec .shutdown s = .next (answered s (.error .illegal)) := by
  simp only [exec, execShutdown, h]
  rfl

theorem exec_construct_again {i : Instr} {s : State} (hi : isConstruct i = true) (h : s.lifecycle ≠ .uninitialized) :
    exec i s = .next (answered s (.error .illegal)) := by
  cases i with
  | construct => exact if_pos h
  | _ => cases hi

/-- Settles O50: the lifecycle check, or SHUTDOWN's or CONSTRUCT's own, is the first thing a command does. -/
theorem lifecycleGuards : Obligations.LifecycleGuards := by
  intro i s hcmd
  refine ⟨fun hl hcon hi => ?_, fun hl hcon => ?_, fun hl hcon => exec_construct_again hcon hl⟩
  · obtain ⟨k, hk⟩ := exec_requiresActive hcmd hcon hi s
    rw [hk, requireActive_closed k hl]
  · by_cases hi : i = .shutdown
    · rw [hi, exec_shutdown_uninitialized hl]
    · obtain ⟨k, hk⟩ := exec_requiresActive hcmd hcon hi s
      rw [hk, requireActive_uninitialized k hl]

end Sys2Proof.Machine
end

section
/-! The diagnostics family: PIN_TOGGLE_TEST and PIN_DRIVE_CHECK with and without an active channel, SHOW_TEST_PATTERN on each
transport, and the snapshot a waiting SHOW_TEST_PATTERN holds (44_diagnostics R141 to R145). -/

namespace Sys2Proof.Machine

/-! ### Suspension and resumption (R141) -/

@[simp] theorem suspend_plat (s : State) : (suspend s).plat = s.plat := by
  cases hs : suspends s with
  | true => obtain ⟨bits, e, -, h⟩ := suspend_active hs; rw [h]
  | false => rw [suspend_inactive hs]

/-- With no active channel to suspend there is none to resume. -/
theorem unsuspend_inactive {s v : State} (h : suspends s = false) (ht : v.transport = s.transport) :
    unsuspend s.hwActive v = v := by
  have hoff : (isHardwareTimed v.transport && s.hwActive) = false := by rw [ht]; exact h
  exact if_neg (Bool.eq_false_iff.mp hoff)

/-- A channel that was suspended is resumed. -/
theorem unsuspend_active {s v : State} (h : suspends s = true) (ht : v.transport = s.transport) :
    unsuspend s.hwActive v = { v with trace := v.trace ++ [.hwResume], hwActive := true } := by
  have hon : (isHardwareTimed v.transport && s.hwActive) = true := by rw [ht]; exact h
  exact if_pos hon

/-! ### PIN_TOGGLE_TEST (R141) -/

/-- In an active block: the cycles and both pins low, between suspension and resumption. -/
theorem exec_pinToggleTest_active {s : State} (hl : s.lifecycle = .active) :
    exec .pinToggleTest s = .next (respond (.ok .none) (unsuspend s.hwActive { suspend s with
      trace := (suspend s).trace ++ (List.replicate s.plat.toggleCycles (toggleEvents s.plat.toggleDelayMs.val)).flatten
      dataLevel := false
      clockLevel := false })) := by
  simp only [exec, execPinToggleTest, requireActive_active _ hl, toggleCycles_eq, suspend_plat]

/-- Settles O54: nothing is suspended and nothing resumed. -/
theorem pinToggleWithoutChannel : Obligations.PinToggleWithoutChannel := by
  intro s hl hs
  rw [exec_pinToggleTest_active hl, suspend_inactive hs, unsuspend_inactive hs]
  · rfl
  · rfl

/-- Settles O55: the cycles follow what the suspension leaves, and the resumption follows the cycles. -/
theorem pinToggleWithChannel : Obligations.PinToggleWithChannel := by
  intro s hl hs
  obtain ⟨bits, e, hbits, hsus⟩ := suspend_active hs
  refine ⟨bits, _, exec_pinToggleTest_active hl, hbits, ?_⟩
  rw [hsus, unsuspend_active hs]
  · rfl
  · rfl

/-! ### PIN_DRIVE_CHECK (R143) -/

theorem checkStages_eq : checkStages = driveStages := rfl

/-- Whatever directions the stages leave, both pins are outputs afterwards, DATA first (D24). -/
theorem restoreOutput_both (s : State) :
    restoreOutput .clock (restoreOutput .data s) = { s with
      trace := s.trace ++ [.pinMode .data .output, .pinMode .clock .output], dataDir := .output, clockDir := .output } := by
  simp [restoreOutput, setPinDir, emit]

/-- In an active block: the stages the environment supports and both pins outputs, between suspension and resumption. -/
theorem exec_pinDriveCheck_active {s : State} (hl : s.lifecycle = .active) :
    exec .pinDriveCheck s = .next (respond (.ok (.checks (checkedBy driveStages (suspend s).env).1))
      (unsuspend s.hwActive { suspend s with
        trace := (suspend s).trace ++ (checkedBy driveStages (suspend s).env).1.map (fun e => .pinMode e.1.1 e.1.2)
          ++ [.pinMode .data .output, .pinMode .clock .output]
        dataDir := .output
        clockDir := .output
        env := (checkedBy driveStages (suspend s).env).2 })) := by
  obtain ⟨hresult, hstate⟩ := runStages_eq driveStages (suspend s)
  simp only [exec, execPinDriveCheck, requireActive_active _ hl, checkStages_eq, hresult, restoreOutput_both]
  rw [hstate]

/-- With scripted answers the result pairs the supported stages with the scripted levels (U6, U7). -/
theorem checkedBy_driveStages_scripted {e : Env} {supported levels restS restL : List Bool}
    (hs : e.modeSupported = supported ++ restS) (hn : supported.length = 8) (hl : e.readBack = levels ++ restL)
    (hc : levels.length = supported.count true) :
    checkedBy driveStages e = ((supportedStages supported).zip levels,
      { e with modeSupported := restS, readBack := restL }) :=
  checkedBy_scripted driveStages supported levels restS restL e hs hn hl hc

/-- Settles O56: nothing is suspended and nothing resumed. -/
theorem pinDriveCheckWithoutChannel : Obligations.PinDriveCheckWithoutChannel := by
  intro s hl hs
  refine ⟨?_, fun supported levels restS restL => checkedBy_driveStages_scripted⟩
  rw [exec_pinDriveCheck_active hl, suspend_inactive hs, unsuspend_inactive hs]
  · rfl
  · rfl

/-- The suspension draws no answer of a stage. -/
theorem suspend_env_stages {s : State} (h : suspends s = true) :
    (suspend s).env.modeSupported = s.env.modeSupported ∧ (suspend s).env.readBack = s.env.readBack := by
  rw [suspend_env h]
  split
  · exact ⟨rfl, rfl⟩
  · exact ⟨rfl, rfl⟩

/-- Settles O57: the stages follow what the suspension leaves, with the answers it has not drawn. -/
theorem pinDriveCheckWithChannel : Obligations.PinDriveCheckWithChannel := by
  intro s hl hs
  obtain ⟨bits, e, hbits, hsus⟩ := suspend_active hs
  have henv : (suspend s).env = e := by rw [hsus]
  obtain ⟨hmode, hread⟩ := suspend_env_stages hs
  rw [henv] at hmode hread
  have hclock : (s.clockLevel && bits.isEmpty) = if bits = [] then s.clockLevel else false := by cases bits <;> simp
  refine ⟨bits, e, hbits, henv.symm.trans (suspend_env hs), ?_, fun supported levels restS restL hS hn hL hc =>
    checkedBy_driveStages_scripted (hmode.trans hS) hn (hread.trans hL) hc⟩
  rw [exec_pinDriveCheck_active hl, hsus, unsuspend_active hs, List.getLastD_eq_getLast?, ← hclock, respond, answered]
  · simp only [List.append_assoc, List.cons_append, List.nil_append]
  · rfl

/-! ### SHOW_TEST_PATTERN (R145) -/

/-- Red, green, blue repeating on the first `min(6, N)` pixels, the rest black. -/
theorem testPattern_entry {n : ℕ+} {i : Nat} (h : i < n) :
    (testPattern n).colors[i]? = some (if 6 ≤ i then ⟨0, 0, 0⟩ else if i % 3 = 0 then ⟨1, 0, 0⟩
      else if i % 3 = 1 then ⟨0, 1, 0⟩ else ⟨0, 0, 1⟩) := by
  have hentry : (testPattern n).colors[i]? = some (patternColor (min 6 n) i) := by simp [h]
  rw [hentry, patternColor]
  by_cases hi : 6 ≤ i
  · rw [if_pos hi, if_neg (by omega)]
    rfl
  · rw [if_neg hi, if_pos (by omega)]

theorem testPattern_length (n : ℕ+) : (testPattern n).colors.length = n := by simp

/-- In an active block: the pattern written and its frame sent, and what follows it. -/
theorem exec_showTestPattern_active {s u : State} (hl : s.lifecycle = .active)
    (hu : transmit (assembleFrame (writePixels (testPattern s.cfg.n) s)) = .next u) :
    exec .showTestPattern s = restoreWhenSent s.pix u := by
  simp only [exec, execShowTestPattern, requireActive_active _ hl, hu, andThen]

/-- After the first frame, where the channel is not active: the hold, the snapshot written, its commit. -/
theorem restoreWhenSent_software {u : State} {d c : Nat} (cs : PixelBuffer) (ht : u.transport = .softwareTimed d c)
    (ha : u.hwActive = false) (hs : u.ser = none) :
    restoreWhenSent cs u = .next (softwareCommitted { u with
      pix := cs, trace := u.trace ++ [.delay (.hold u.plat.patternHold.val)], inFlight := none }) := by
  have hrun : channelRun { u with inFlight := none } = { u with inFlight := none } := channelRun_inactive ha
  rw [restoreWhenSent_sent cs hs, hrun]
  exact commit_software ht

/-- Settles O58: two frames and the hold between them; the second frame is that of the old buffer. -/
theorem testPatternSoftware : Obligations.TestPatternSoftware := by
  intro s d c hi hl ht
  have hinactive : s.hwActive = false := by rw [hi.active, ht]; rfl
  refine ⟨testPattern s.cfg.n, testPattern_length _, fun _ => testPattern_entry, ?_⟩
  have hfirst := transmit_software (s := writePixels (testPattern s.cfg.n) s) ht
  rw [exec_showTestPattern_active hl hfirst, restoreWhenSent_software (d := d) (c := c)]
  · simp only [softwareCommitted, answered, writePixels, List.append_assoc, List.cons_append, List.nil_append]
  · exact ht
  · exact hinactive
  · rfl

/-- Settles O59: the first frame ends or waits; where it has ended, the hold, the snapshot and its commit follow. -/
theorem testPatternHardware : Obligations.TestPatternHardware := by
  intro s h hl ht
  obtain ⟨u, hu, hfirst, haccepts⟩ := transmit_hardware (s := writePixels (testPattern s.cfg.n) s) ht
  have hexec := exec_showTestPattern_active hl hu
  refine ⟨testPattern s.cfg.n, ?_⟩
  rw [Nat.add_assoc, Nat.add_comm 1]
  have haccepts_second := fun hboth => haccepts (encodeFrame s.pix s.bright).length ((encodeFrame s.pix s.bright).length + 1)
    (Accepts.congr (s := s) hboth rfl rfl rfl rfl)
  rcases hfirst with hsent | ⟨k, hwaits⟩
  · have ⟨hhanded, hser, _⟩ := hsent
    have htransport : u.transport = .hardwareTimed h := by rw [hhanded.frame]; exact ht
    have hbright : u.bright = s.bright := by rw [hhanded.frame]; rfl
    obtain ⟨v, t, hheld, hrestore, hcommitted, hready⟩ := restoreWhenSent_hardware s.pix htransport hser
    rw [hbright] at hready
    exact ⟨t, testPattern_length _, fun _ => testPattern_entry, hexec.trans hrestore,
      .inr ⟨u, v, hsent.sentAll, hheld, hcommitted⟩,
      fun hboth => ⟨u, v, hsent.sentAll, hheld, hready (haccepts_second hboth).2⟩⟩
  · have ⟨_, _, hser, _⟩ := hwaits
    refine ⟨_, testPattern_length _, fun _ => testPattern_entry, hexec.trans (restoreWhenSent_waits s.pix hser),
      .inl ⟨k, u, hwaits.waitsAt, rfl⟩, fun hboth => ?_⟩
    rw [(haccepts_second hboth).1] at hser
    cases hser

/-! ### The snapshot of a waiting SHOW_TEST_PATTERN (R145) -/

/-- A commit ends, or waits with nothing left but its answer: it never holds a snapshot. -/
theorem commit_holds_no_snapshot {s t : State} (h : commit s = .next t) (cs : PixelBuffer) :
    t.inFlight ≠ some (.restore cs) := by
  obtain ⟨u, -, hreply⟩ := andThen_next h
  cases hs : u.ser with
  | some p => rw [replyWhenSent_waits hs] at hreply; cases hreply; simp
  | none => rw [replyWhenSent_sent hs] at hreply; cases hreply; simp

/-- Once the first frame has gone the buffer is the snapshot, which is no longer held. -/
theorem restoreWhenSent_restores {cs : PixelBuffer} {u t : State} (hs : u.ser = none) (h : restoreWhenSent cs u = .next t) :
    t.pix = cs ∧ t.inFlight ≠ some (.restore cs) := by
  rw [restoreWhenSent_sent cs hs] at h
  refine ⟨?_, commit_holds_no_snapshot h cs⟩
  rw [commit_outputOnly h]
  rfl

/-- Settles O60: while the first frame waits the snapshot is held; once it has gone the snapshot is the buffer. -/
theorem snapshotIsRestored : Obligations.SnapshotIsRestored := by
  intro s t cs hreset hflight hstep
  rw [step_inFlight hreset hflight] at hstep
  obtain ⟨u, hon, hrestore⟩ := andThen_next hstep
  refine ⟨?_, fun p hp haccepts => restoreWhenSent_restores ?_ hrestore⟩
  · cases hs : u.ser with
    | some p => rw [restoreWhenSent_waits cs hs] at hrestore; cases hrestore; exact .inl rfl
    | none => exact .inr (restoreWhenSent_restores hs hrestore).1
  · obtain ⟨i, q, -, hq, rfl⟩ := transmitOn_next hon
    obtain rfl : p = q := Option.some.inj (hp.symm.trans hq)
    rw [← List.length_drop] at haccepts
    exact (sendHardware_accepts _ p.k 0 0 s haccepts).1

end Sys2Proof.Machine
end

section
/-! The exceptions family: every step from a state that meets `Inv` answers a next state, and an error writes nothing (60_exceptions
R156, R157, R163). -/

namespace Sys2Proof.Machine

/-! ### Operations that go on -/

/-- The result is a next state: no fault and no refusal. -/
def GoesOn (o : Result) : Prop := ∃ t, o = .next t

theorem GoesOn.next (t : State) : GoesOn (.next t) := ⟨t, rfl⟩

theorem GoesOn.andThen {o : Result} {k : State → Result} (ho : GoesOn o) (hk : ∀ u, o = .next u → GoesOn (k u)) :
    GoesOn (andThen o k) := by
  obtain ⟨u, rfl⟩ := ho
  exact hk u rfl

/-- The lifecycle check answers, so only what follows it in an Active block is in question (42_strip_controller R111). -/
theorem requireActive_goesOn {k : State → Result} {s : State} (hk : s.lifecycle = .active → GoesOn (k s)) :
    GoesOn (requireActive k s) := by
  rcases requireActive_cases k s with ⟨hl, h⟩ | ⟨-, h⟩ | ⟨-, h⟩
  · rw [h]; exact hk hl
  · exact ⟨_, h⟩
  · exact ⟨_, h⟩

/-! ### The transport (R95) -/

/-- TRANSMIT faults only without a transport. -/
theorem transmit_goesOn {s : State} (ht : s.transport ≠ .none) : GoesOn (transmit s) := by
  unfold transmit
  split
  · next hn => exact absurd hn ht
  · exact .next _
  · exact .next _

/-- A command in flight stands at a position of the hardware-timed TRANSMIT (10_state R21). -/
theorem Inv.transmitOn_goesOn {s : State} {c : Cont} (hi : Inv s) (hc : s.inFlight = some c) : GoesOn (Machine.transmitOn s) := by
  obtain ⟨p, hp⟩ := Option.isSome_iff_exists.mp (hi.waiting.symm.trans (by rw [hc]; rfl))
  obtain ⟨ht, -⟩ := hi.position p hp
  cases htr : s.transport with
  | hardwareTimed h => exact ⟨_, transmitOn_hardware htr hp⟩
  | none | softwareTimed => rw [htr] at ht; cases ht

theorem replyWhenSent_goesOn (s : State) : GoesOn (replyWhenSent s) := by
  cases hs : s.ser with
  | some p => exact ⟨_, replyWhenSent_waits hs⟩
  | none => exact ⟨_, replyWhenSent_sent hs⟩

theorem commit_goesOn {s : State} (ht : s.transport ≠ .none) : GoesOn (commit s) :=
  (transmit_goesOn (s := assembleFrame s) ht).andThen fun u _ => replyWhenSent_goesOn u

theorem restoreWhenSent_goesOn (cs : PixelBuffer) {s : State} (ht : s.transport ≠ .none) : GoesOn (restoreWhenSent cs s) := by
  cases hs : s.ser with
  | some p => exact ⟨_, restoreWhenSent_waits cs hs⟩
  | none =>
    rw [restoreWhenSent_sent cs hs]
    apply commit_goesOn
    rw [writePixels_transport, emit_transport, channelRun_outputOnly { s with inFlight := none }]
    exact ht

/-- A command in flight goes on; a channel that stays not ready is a next state too (R98). -/
theorem Inv.resumeCommand_goesOn {s : State} {c : Cont} (hi : Inv s) (hc : s.inFlight = some c) :
    GoesOn (Machine.resumeCommand c s) := by
  cases c with
  | reply => exact (hi.transmitOn_goesOn hc).andThen fun u _ => replyWhenSent_goesOn u
  | restore cs =>
    refine (hi.transmitOn_goesOn hc).andThen fun u hu => restoreWhenSent_goesOn cs ?_
    rw [transmitOn_outputOnly hu]
    exact hi.transport.mp (hi.active_of_inFlight hc)

theorem release_goesOn {s : State} (ht : s.transport ≠ .none) : GoesOn (release s) := by
  unfold release
  split
  · next hn => exact absurd hn ht
  · exact .next _
  · exact .next _

/-! ### The commands -/

/-- Where SELECT answers a transport the first commit has one, and where it answers none there is no commit (R88, R110). -/
theorem constructWith_goesOn (cfg : Cfg) (l : Level) (s : State) : GoesOn (constructWith cfg l s) := by
  have started {tr : Transport} {u : State}
      (hsel : select cfg.forceSoftware cfg.debug cfg.hwChannelId cfg.hwFreqHz cfg.dataPin cfg.clockPin s = (some tr, u))
      (htr : tr ≠ .none) : GoesOn (constructWith cfg l s) := by
    simp only [constructWith, hsel]
    split
    · exact commit_goesOn htr
    · exact .next _
  rcases select_cases cfg.forceSoftware cfg.debug cfg.hwChannelId cfg.hwFreqHz cfg.dataPin cfg.clockPin s with
    ⟨v, e, -, hsel⟩ | ⟨e, hsel⟩ | ⟨e, -, -, hsel⟩ | ⟨e, hsel⟩ | ⟨e, -, -, hsel⟩
  · exact started hsel nofun
  · exact started hsel nofun
  · exact started hsel nofun
  · exact ⟨_, constructWith_none l hsel⟩
  · exact ⟨_, constructWith_none l hsel⟩

/-- CONSTRUCT refuses at one of its checks, or selects a transport. -/
theorem execConstruct_goesOn (n x : Number) (d c : Nat) (fs dbg : Bool) (id : Nat) (f : Number) (s : State) :
    GoesOn (execConstruct n x d c fs dbg id f s) := by
  unfold execConstruct
  split
  · exact .next _
  · split
    · exact .next _
    · split
      · exact .next _
      · split
        · split
          · exact .next _
          · exact constructWith_goesOn _ _ s
        · exact .next _

/-- An index below `N` has an entry to write. -/
theorem Inv.setPixel_goesOn {s : State} (hi : Inv s) (i : Nat) (op : ColorOperand) : GoesOn (setPixel i op s) := by
  refine requireActive_goesOn fun hl => ?_
  split
  · exact .next _
  · next hn =>
    split
    · exact .next _
    · obtain ⟨c, hc⟩ := hi.pixel_stored hl (Nat.not_le.mp hn)
      rw [readPixel, hc]
      exact commit_goesOn (hi.transport.mp hl)

/-- An index below `N` has an entry to read. -/
theorem Inv.getPixel_goesOn {s : State} (hi : Inv s) (i : Nat) : GoesOn (getPixel i s) := by
  refine requireActive_goesOn fun hl => ?_
  split
  · exact .next _
  · next hn =>
    obtain ⟨c, hc⟩ := hi.pixel_stored hl (Nat.not_le.mp hn)
    rw [readPixel, hc]
    exact .next _

theorem Inv.setAll_goesOn {s : State} (hi : Inv s) (op : ColorOperand) : GoesOn (setAll op s) := by
  refine requireActive_goesOn fun hl => ?_
  split
  · exact .next _
  · exact commit_goesOn (hi.transport.mp hl)

theorem Inv.execSetBuffer_goesOn {s : State} (hi : Inv s) (ops : List ColorOperand) : GoesOn (execSetBuffer ops s) := by
  refine requireActive_goesOn fun hl => ?_
  split
  · exact .next _
  · split
    · exact .next _
    · exact commit_goesOn (hi.transport.mp hl)

theorem Inv.execSetBrightness_goesOn {s : State} (hi : Inv s) (x : Number) : GoesOn (execSetBrightness x s) := by
  refine requireActive_goesOn fun hl => ?_
  split
  · exact .next _
  · exact commit_goesOn (hi.transport.mp hl)

theorem Inv.execShutdown_goesOn {s : State} (hi : Inv s) : GoesOn (execShutdown s) := by
  unfold execShutdown
  split
  · exact .next _
  · exact .next _
  · next hl => exact (release_goesOn (hi.transport.mp hl)).andThen fun u _ => .next _

theorem Inv.execShowTestPattern_goesOn {s : State} (hi : Inv s) : GoesOn (execShowTestPattern s) := by
  refine requireActive_goesOn fun hl => ?_
  have ht := hi.transport.mp hl
  refine (transmit_goesOn (s := assembleFrame (writePixels (testPattern s.cfg.n) s)) ht).andThen fun u hu =>
    restoreWhenSent_goesOn s.pix ?_
  rw [transmit_outputOnly hu]
  exact ht

/-- Every instruction answers a next state where the invariant holds, whatever its operands. -/
theorem Inv.exec_goesOn {s : State} (hi : Inv s) (i : Instr) : GoesOn (Machine.exec i s) := by
  cases i with
  | start | led | pad => exact .next _
  | construct n x d c fs dbg id f => exact execConstruct_goesOn n x d c fs dbg id f s
  | setPixel k op | handleSet k op => exact hi.setPixel_goesOn k op
  | setAll op => exact hi.setAll_goesOn op
  | turnOn => exact hi.setAll_goesOn whiteOperand
  | turnOff => exact hi.setAll_goesOn blackOperand
  | setBuffer ops => exact hi.execSetBuffer_goesOn ops
  | setBrightness x => exact hi.execSetBrightness_goesOn x
  | getPixel k | handleGet k => exact hi.getPixel_goesOn k
  | getBuffer | averageColor | getBrightness | pinToggleTest | pinDriveCheck =>
    rw [Machine.exec]
    exact requireActive_goesOn fun _ => .next _
  | flush => exact requireActive_goesOn fun hl => commit_goesOn (hi.transport.mp hl)
  | shutdown => exact hi.execShutdown_goesOn
  | showTestPattern => exact hi.execShowTestPattern_goesOn

/-- A request is executed, or answered IllegalCommand. -/
theorem Inv.stepCommand_goesOn {s : State} (hi : Inv s) (r : Request) : GoesOn (stepCommand r s) := by
  unfold stepCommand
  split
  · exact hi.channelRun.exec_goesOn _
  · exact .next _

/-- Settles O15: each way a step can go with no frame element in line is an operation that goes on. -/
theorem stepNeverStops : Obligations.StepNeverStops := by
  intro s hi he
  rcases step_cases s with ⟨-, hs⟩ | ⟨c, -, hc, hs⟩ | ⟨w, rest, -, -, hw, -⟩ | ⟨r, rest, -, -, -, -, hs⟩ | ⟨-, -, -, -, hs⟩
  · exact ⟨_, hs⟩
  · rw [hs]
    exact hi.resumeCommand_goesOn hc
  · rw [he] at hw
    cases hw
  · rw [hs]
    exact Inv.stepCommand_goesOn (s := { s with port := rest }) (hi.unread rfl) r
  · exact ⟨_, hs⟩

/-! ### Operations that answer no error -/

/-- From `s` to `t` the block has not answered an error. -/
def AnswersNoError (s t : State) : Prop := ∀ e, t.responses ≠ s.responses ++ [.error e]

theorem AnswersNoError.of_unanswered {s t : State} (h : t.responses = s.responses) : AnswersNoError s t := by
  intro e
  simp [h]

theorem AnswersNoError.ok (v : Value) (s : State) : AnswersNoError s (respond (.ok v) s) := by
  intro e
  simp [respond]

/-- What came before may be anything that answers nothing. -/
theorem AnswersNoError.of_responses_eq {s u t : State} (h : AnswersNoError u t) (hu : u.responses = s.responses) :
    AnswersNoError s t := by
  rw [AnswersNoError, hu] at h
  exact h

theorem replyWhenSent_answersNoError {s t : State} (h : replyWhenSent s = .next t) : AnswersNoError s t := by
  cases hs : s.ser with
  | some p => rw [replyWhenSent_waits hs] at h; cases h; exact .of_unanswered rfl
  | none => rw [replyWhenSent_sent hs] at h; cases h; exact .ok .none s

theorem commit_answersNoError {s t : State} (h : commit s = .next t) : AnswersNoError s t := by
  obtain ⟨u, hu, ht⟩ := andThen_next h
  exact (replyWhenSent_answersNoError ht).of_responses_eq (transmit_unanswered hu).1

theorem restoreWhenSent_answersNoError {cs : PixelBuffer} {s t : State} (h : restoreWhenSent cs s = .next t) :
    AnswersNoError s t := by
  cases hs : s.ser with
  | some p => rw [restoreWhenSent_waits cs hs] at h; cases h; exact .of_unanswered rfl
  | none =>
    rw [restoreWhenSent_sent cs hs] at h
    exact (commit_answersNoError h).of_responses_eq (channelRun_responses _)

/-! ### What an error leaves -/

/-- CONSTRUCT after its checks gets no transport, with at most one `Log` and the environment's answers drawn, or answers no error
(R110). -/
theorem constructWith_error_cases {cfg : Cfg} {l : Level} {s t : State} (h : constructWith cfg l s = .next t) :
    (∃ env, t = answered { s with env := env } (.error (.resource .pin)) ∨
      t = answered { s with env := env, trace := s.trace ++ [.log] } (.error (.resource .pin))) ∨
    AnswersNoError s t := by
  rcases constructWith_cases h with hpin | ⟨tr, u, hclaim, hend⟩
  · exact .inl hpin
  · have hu : (constructed cfg l tr u).responses = s.responses := by
      rcases hclaim with ⟨v, e, -, -, rfl⟩ | ⟨e, lg, -, rfl⟩
      · rfl
      · simp [constructed, claimSoftware_eq]
    right
    rcases hend with ⟨-, hc⟩ | ⟨-, rfl⟩
    · exact (commit_answersNoError hc).of_responses_eq hu
    · exact (AnswersNoError.ok _ _).of_responses_eq hu

/-- An instruction answers and does nothing else, or is a CONSTRUCT that gets no transport, or answers no error. -/
theorem exec_error_cases {i : Instr} {s t : State} (h : exec i s = .next t) :
    (∃ r, t = answered s r) ∨
    (isConstruct i = true ∧ ∃ env, t = answered { s with env := env } (.error (.resource .pin)) ∨
      t = answered { s with env := env, trace := s.trace ++ [.log] } (.error (.resource .pin))) ∨
    AnswersNoError s t := by
  rcases exec_cases h with ⟨-, bs, rfl⟩ | ⟨-, r, -, rfl⟩ | ⟨-, u, hw, hc⟩ | ⟨hi, -, cfg, x, hc⟩ | ⟨-, -, u, hr, rfl⟩ |
    ⟨-, -, rfl⟩ | ⟨-, -, rfl⟩ | ⟨-, -, u, hu, hr⟩
  · exact .inr (.inr (.of_unanswered rfl))
  · exact .inl ⟨r, rfl⟩
  · exact .inr (.inr ((commit_answersNoError hc).of_responses_eq (by rw [written_frame hw])))
  · rcases constructWith_error_cases hc with hpin | hno
    · exact .inr (.inl ⟨hi, hpin⟩)
    · exact .inr (.inr hno)
  · exact .inr (.inr ((AnswersNoError.ok _ _).of_responses_eq (release_responses hr :)))
  · exact .inr (.inr ((AnswersNoError.ok _ _).of_responses_eq (by simp)))
  · exact .inr (.inr ((AnswersNoError.ok _ _).of_responses_eq (by simp)))
  · exact .inr (.inr ((restoreWhenSent_answersNoError hr).of_responses_eq (transmit_unanswered hu).1))

/-- Settles O51: where an error is answered nothing else is done, but that a CONSTRUCT without a transport has drawn answers. -/
theorem errorsWriteNothing : Obligations.ErrorsWriteNothing := by
  intro i s t e h hresp
  rcases exec_error_cases h with ⟨r, rfl⟩ | ⟨hi, env, rfl | rfl⟩ | hno
  · obtain rfl : r = .error e := by simpa [answered] using hresp
    exact ⟨rfl, .inl rfl⟩
  · obtain rfl : .resource .pin = e := by simpa [answered] using hresp
    exact ⟨rfl, .inl rfl⟩
  · obtain rfl : .resource .pin = e := by simpa [answered] using hresp
    exact ⟨rfl, .inr ⟨hi, rfl, rfl⟩⟩
  · exact absurd hresp (hno e)

end Sys2Proof.Machine
end

section
/-! The reset family: the reset state, that it meets `Inv`, and the step that a reset request makes (70_reset_and_hazards R175, R176). -/

namespace Sys2Proof.Machine

/-- After reset nothing is left for another reset to do: the platform, the answers and the port it keeps are those of the reset
state (log 17). -/
theorem applyReset_reset : applyReset State.reset = State.reset := rfl

/-- Settles O12: the reset state is given field by field. -/
theorem resetValues : Obligations.ResetValues :=
  ⟨rfl, rfl, rfl, rfl, rfl, rfl, rfl, rfl, rfl, rfl⟩

/-- Settles O13: the reset state is what the platform's reset makes of it, and that meets the invariant. -/
theorem resetMeetsTheInvariant : Obligations.ResetMeetsTheInvariant := by
  have h : Inv (applyReset State.reset) := Inv.applyReset State.reset
  rwa [applyReset_reset] at h

/-- Settles O11: a reset request comes before all else, so also before a command in flight, and what the step leaves differs from the
reset state in the platform, the answers and the port only. -/
theorem resetRequestResets : Obligations.ResetRequestResets := by
  intro s h
  obtain ⟨hlife, htransport, hactive, hdata, hclock, hser, hpix, hframe, hhwq, htrace⟩ := resetValues
  exact ⟨applyReset s, step_reset h, hlife, htransport, hactive, hdata, hclock, hpix, hframe, hhwq, hser, htrace, rfl, rfl, rfl⟩

end Sys2Proof.Machine
end
